-- ==== Sys2Proof/Word.lean ====
section
/-! DEFINITION. The word types of LEDENC: a byte, a 32-bit word, a tick count (spec/30_encoding.md R80, R90). -/

namespace Sys2Proof

/-- A channel byte, 8 bits, unsigned (R81, R90). -/
abbrev Byte := BitVec 8

/-- A command, response, descriptor or configuration word, 32 bits (R80). -/
abbrev Word := BitVec 32

/-- A tick count, 15 bits (R11, R90). -/
abbrev Tick := BitVec 15

end Sys2Proof
end

