-- ==== Sys2Proof/Config.lean ====
section
/-! DEFINITION. What an implementation fixes and what the environment chooses: the constants of spec/00_scope.md section 4,
the names of the handshake and sequencer states, the moves of the agents, and the free values (constants without a body). -/

namespace Sys2Proof

/-- `TXS`, the transmitter port's status (10_state.md R32). -/
inductive Txs where
  | idle | busy | doneOk | doneErr
deriving DecidableEq, Repr

/-- `STATE`, the five named states of the sequencer (10_state.md R27, 43_render_loop.md R160). -/
inductive SeqState where
  | waitingForChange | snapshotting | encoding | transmitting | resetDelay
deriving DecidableEq, Repr

/-- The six words on the configuration port (45_configuration.md R211). -/
structure CfgWords where
  word0 : Word
  word1 : Word
  word2 : Word
  word3 : Word
  word4 : Word
  word5 : Word
deriving DecidableEq, Repr

/-- One move of the environment: which agent acts next and what it is given.
The agents are those of 10_state.md R20; any order of moves is a run (R20, 60_exceptions.md R234).
DESIGN CHOICE (log entry 1): the choice is plain data. -/
inductive Move where
  /-- Requester `r` acts: it presents `w` if it has no command outstanding, else it goes on with that command (R110). -/
  | requester (r : Nat) (w : Word)
  /-- The sequencer acts (30_encoding.md R97). -/
  | sequencer
  /-- The transmitter alone: its half of a submission, enabled only while the sequencer executes `SEQ_SUBMIT` (R98, R193; log
  entry 16). -/
  | txAccept
  /-- The transmitter completes with result `txr` (R91); `segs` and `cut` are the draws of a failure (R196). -/
  | transmitter (txr : BitVec 1) (segs cut : Nat)
  /-- A play in progress goes on: the line is driven to the next segment of its waveform (R192, R194; log entry 13). -/
  | drive
  /-- The pulse encoder is given one data bit (R143, format BIT). -/
  | encoder (bit : BitVec 1)
  /-- `us` microseconds pass (R35, R169). -/
  | elapse (us : Nat)
  /-- Reset is asserted with these words on the configuration port (R260). -/
  | reset (words : CfgWords)
deriving DecidableEq, Repr, Inhabited

namespace Config

/-- `N_PIXELS` (R9). -/
def nPixels : Nat := 16

/-- `CHUNK_LEN`: 24 data descriptors and one idle descriptor (R9). -/
def chunkLen : Nat := 25

/-- The size of the frame store and of the snapshot buffer in bytes (R21, R30). -/
def frameBytes : Nat := 48

/-- `FRAME_DESCRIPTORS`, the size of the staging buffer (R9, R31). -/
def frameDescriptors : Nat := 400

/-- `TX_BUF_CAP` (R10, 92_eei_decisions.md D24). -/
def txBufCap : Nat := 48

/-- Test configuration T1 of 45_configuration.md R217, word for word. -/
def t1 : CfgWords :=
  ⟨0x00050002, 0x00020005, 0x3F800000, 0x3F800000, 0x3F800000, 0x00000064⟩

/-- Test configuration T2 of 45_configuration.md R217: T1 with the multipliers 0.5, 0.75, 0.25. -/
def t2 : CfgWords :=
  ⟨0x00050002, 0x00020005, 0x3F000000, 0x3F400000, 0x3E800000, 0x00000064⟩

/-- FREE VALUE: the move the environment makes when State holds no scheduled one (log entry 1). -/
opaque environment : Nat → Move

/-- FREE VALUE: `TICK_NS`, OPEN (00_scope.md R14). DESIGN CHOICE (log entry 21): a whole number of nanoseconds, so that a tick of
a fractional number of them (12.5 ns) is not expressed. -/
opaque tickNs : Nat

/-- FREE VALUE: the corrected byte for a multiplier word that has no value (NaN, infinite or negative),
for which the spec states no result; no valid configuration holds one (R18, R212; log entry 17). -/
opaque unstatedCorrection : Word → Byte → Byte

end Config

end Sys2Proof
end

