-- ==== Sys2Proof/Syntax.lean ====
section
/-! DEFINITION. The operations of LEDENC as syntax: one constructor per row of spec/opcode_table.json. -/

namespace Sys2Proof

/-- The rows of the opcode table. A pixel index is a number, 0 to 31 expressible, 0 to 15 legal (30_encoding.md R93);
the bytes are in public order red, green, blue (R94). -/
inductive Instr where
  /-- `SET_PIXEL idx, r, g, b` (40_pixel_store.md R111). -/
  | setPixel (idx : Nat) (r g b : Byte)
  /-- `FB_OPEN` (R112). -/
  | fbOpen
  /-- `FB_WRITE idx, r, g, b` (R113). -/
  | fbWrite (idx : Nat) (r g b : Byte)
  /-- `FB_READ idx` (R114). -/
  | fbRead (idx : Nat)
  /-- `FB_CLOSE` (R115). -/
  | fbClose
  /-- `SEQ_WAKE` (43_render_loop.md R161). -/
  | seqWake
  /-- `SEQ_SNAPSHOT` (R162). -/
  | seqSnapshot
  /-- `SEQ_ENCODE` (R163). -/
  | seqEncode
  /-- `SEQ_SUBMIT` (R164). -/
  | seqSubmit
  /-- `SEQ_NEXT` (R166). -/
  | seqNext
  /-- `SEQ_LAST` (R167). -/
  | seqLast
  /-- `SEQ_FAULT` (R168). -/
  | seqFault
  /-- `SEQ_GAP_DONE` (R169). -/
  | seqGapDone
  /-- `TX_ACCEPT` (44_transmitter.md R193). -/
  | txAccept
  /-- `TX_OK` (R195). -/
  | txOk
  /-- `TX_ERR` (R196). -/
  | txErr
  /-- `BIT2PULSE` of bit 0 (42_pulse_encoder.md R143). -/
  | bit2pulseZero
  /-- `BIT2PULSE` of bit 1 (R143). -/
  | bit2pulseOne
deriving DecidableEq, Repr

end Sys2Proof
end

