-- ==== Sys2Proof/WellFormed.lean ====
section
/-! DEFINITION. Which instructions a word can express. -/

namespace Sys2Proof

/-- An instruction that has an encoding: a pixel index fits the 5-bit `idx` field (30_encoding.md R83, R93).
Index 16 to 31 is well formed and illegal by value (R100), so it is well formed here. -/
def Instr.wellFormed : Instr → Bool
  | .setPixel idx _ _ _ => decide (idx < 32)
  | .fbWrite idx _ _ _ => decide (idx < 32)
  | .fbRead idx => decide (idx < 32)
  | .fbOpen | .fbClose => true
  | .seqWake | .seqSnapshot | .seqEncode | .seqSubmit | .seqNext | .seqLast | .seqFault | .seqGapDone => true
  | .txAccept | .txOk | .txErr => true
  | .bit2pulseZero | .bit2pulseOne => true

end Sys2Proof
end

