-- ==== Sys2Proof/Decode.lean ====
section
/-! DEFINITION. Decoding and encoding: the command words of spec/30_encoding.md R83, R96, R99, the selection of sequencer steps
by `STATE` and condition (R92, R97), of transmitter steps by `TXS` and `TXR` (R98), and of a descriptor by a data bit (R143). -/

namespace Sys2Proof

/-- Why nothing is decoded. -/
inductive Reject where
  /-- `op` is `0b000`, `0b110` or `0b111` (R99 (a)). -/
  | reservedOp
  /-- A field the operation does not use is not zero (R99 (b), (c)). -/
  | unusedBitsSet
  /-- `STATE` code 5, 6 or 7 (R92). -/
  | unreachableState
  /-- The listed condition does not hold: the agent has no enabled step, it is waiting (R97, R98). -/
  | notEnabled
deriving DecidableEq, Repr

/-- What decoding answers. -/
inductive Decoded where
  | instr (i : Instr)
  | rejected (why : Reject)
deriving DecidableEq, Repr

/-- What R97 selects a sequencer step by. -/
structure SeqView where
  /-- The `STATE` code (R92). -/
  code : BitVec 3
  /-- `PENDING = 1`. -/
  pending : Bool
  /-- `GUARD = Free`. -/
  guardFree : Bool
  /-- `TXS`. -/
  txs : Txs
  /-- `K`. -/
  k : BitVec 4
  /-- `GAPT >= RESET_DELAY_US`. -/
  gapDone : Bool
deriving DecidableEq, Repr

/-- What a decoder is given: a command word, a sequencer's view, a sequencer's view and whether that sequencer presents a chunk,
a completion with the drawn result, or a data bit (the formats CMD, SEQ, TXR and BIT of the opcode table). -/
inductive Fetched where
  | cmd (w : Word)
  | seq (v : SeqView)
  | accept (v : SeqView) (offered : Bool)
  | completion (txs : Txs) (txr : BitVec 1)
  | bit (b : BitVec 1)
deriving DecidableEq, Repr

/-- The `STATE` codes (R92). -/
def stateCode : SeqState → BitVec 3
  | .waitingForChange => 0b000#3
  | .snapshotting => 0b001#3
  | .encoding => 0b010#3
  | .transmitting => 0b011#3
  | .resetDelay => 0b100#3

/-- The state a `STATE` code names; codes 5, 6, 7 name none (R92). -/
def stateOfCode (c : BitVec 3) : Option SeqState :=
  if c = 0b000#3 then some .waitingForChange
  else if c = 0b001#3 then some .snapshotting
  else if c = 0b010#3 then some .encoding
  else if c = 0b011#3 then some .transmitting
  else if c = 0b100#3 then some .resetDelay
  else none

/-- `op = CMD[31:29]` (R83). -/
def cmdOp (w : Word) : BitVec 3 := w.extractLsb' 29 3

/-- `index = zext(CMD[28:24])` (R93). -/
def cmdIdx (w : Word) : Nat := (w.extractLsb' 24 5).toNat

/-- `r = CMD[23:16]` (R94). -/
def cmdRed (w : Word) : Byte := w.extractLsb' 16 8

/-- `g = CMD[15:8]` (R94). -/
def cmdGreen (w : Word) : Byte := w.extractLsb' 8 8

/-- `b = CMD[7:0]` (R94). -/
def cmdBlue (w : Word) : Byte := w.extractLsb' 0 8

/-- A word selects the row with `w & mask = match` (R96); every other word is illegal (R99). -/
def decodeCmd (w : Word) : Decoded :=
  if w &&& 0xE0000000#32 = 0x20000000#32 then
    .instr (.setPixel (cmdIdx w) (cmdRed w) (cmdGreen w) (cmdBlue w))
  else if w &&& 0xFFFFFFFF#32 = 0x40000000#32 then .instr .fbOpen
  else if w &&& 0xE0000000#32 = 0x60000000#32 then
    .instr (.fbWrite (cmdIdx w) (cmdRed w) (cmdGreen w) (cmdBlue w))
  else if w &&& 0xE0FFFFFF#32 = 0x80000000#32 then .instr (.fbRead (cmdIdx w))
  else if w &&& 0xFFFFFFFF#32 = 0xA0000000#32 then .instr .fbClose
  else if cmdOp w = 0b010#3 ∨ cmdOp w = 0b100#3 ∨ cmdOp w = 0b101#3 then .rejected .unusedBitsSet
  else .rejected .reservedOp

/-- The table of R97: the `STATE` code and the listed condition select the step. -/
def decodeSeq (v : SeqView) : Decoded :=
  match stateOfCode v.code with
  | none => .rejected .unreachableState
  | some .waitingForChange => if v.pending then .instr .seqWake else .rejected .notEnabled
  | some .snapshotting => if v.guardFree then .instr .seqSnapshot else .rejected .notEnabled
  | some .encoding => .instr .seqEncode
  | some .transmitting =>
    match v.txs with
    | .idle => .instr .seqSubmit
    | .busy => .rejected .notEnabled
    | .doneOk => if v.k.toNat < 15 then .instr .seqNext else .instr .seqLast
    | .doneErr => .instr .seqFault
  | some .resetDelay => if v.gapDone then .instr .seqGapDone else .rejected .notEnabled

/-- The transmitter's half of `SEQ_SUBMIT`: `TXS = Idle` and the sequencer executing that step (R98), which it does while it
presents its chunk (log entry 16). -/
def decodeAccept (v : SeqView) (offered : Bool) : Decoded :=
  match decodeSeq v with
  | .instr .seqSubmit => if offered then .instr .txAccept else .rejected .notEnabled
  | .instr _ => .rejected .notEnabled
  | .rejected why => .rejected why

/-- A completion is selected by `TXS = Busy` and the drawn `TXR` (R98): 0 selects `TX_OK`, 1 selects `TX_ERR` (R91). -/
def decodeCompletion (txs : Txs) (txr : BitVec 1) : Decoded :=
  match txs with
  | .busy => if txr = 0#1 then .instr .txOk else .instr .txErr
  | .idle | .doneOk | .doneErr => .rejected .notEnabled

/-- Data bit 0 selects `ZERO`, 1 selects `ONE` (R98, R143). -/
def decodeBit (b : BitVec 1) : Decoded :=
  if b = 0#1 then .instr .bit2pulseZero else .instr .bit2pulseOne

/-- The decoder, total on everything an agent can be given. -/
def decode : Fetched → Decoded
  | .cmd w => decodeCmd w
  | .seq v => decodeSeq v
  | .accept v offered => decodeAccept v offered
  | .completion txs txr => decodeCompletion txs txr
  | .bit b => decodeBit b

/-- A command word from its fields: `op :: idx :: r :: g :: b` (R83). -/
def cmdWord (op : BitVec 3) (idx : BitVec 5) (r g b : Byte) : Word :=
  op ++ (idx ++ (r ++ (g ++ b)))

/-- A view whose `STATE` code is `c` and whose other fields are those of R97's idle block. -/
def viewOf (c : BitVec 3) : SeqView := ⟨c, false, false, .idle, 0#4, false⟩

/-- The encoder, from the same tables (R83, R91, R96, R97, R98, R143). Where R97 selects by a condition beside the code, the
encoding is one view that meets it. -/
def encode : Instr → Fetched
  | .setPixel idx r g b => .cmd (cmdWord 0b001#3 (BitVec.ofNat 5 idx) r g b)
  | .fbOpen => .cmd (cmdWord 0b010#3 0#5 0#8 0#8 0#8)
  | .fbWrite idx r g b => .cmd (cmdWord 0b011#3 (BitVec.ofNat 5 idx) r g b)
  | .fbRead idx => .cmd (cmdWord 0b100#3 (BitVec.ofNat 5 idx) 0#8 0#8 0#8)
  | .fbClose => .cmd (cmdWord 0b101#3 0#5 0#8 0#8 0#8)
  | .seqWake => .seq (let v := viewOf 0b000#3; { v with pending := true })
  | .seqSnapshot => .seq (let v := viewOf 0b001#3; { v with guardFree := true })
  | .seqEncode => .seq (viewOf 0b010#3)
  | .seqSubmit => .seq (viewOf 0b011#3)
  | .seqNext => .seq (let v := viewOf 0b011#3; { v with txs := .doneOk })
  | .seqLast => .seq (let v := viewOf 0b011#3; { v with txs := .doneOk, k := 15#4 })
  | .seqFault => .seq (let v := viewOf 0b011#3; { v with txs := .doneErr })
  | .seqGapDone => .seq (let v := viewOf 0b100#3; { v with gapDone := true })
  | .txAccept => .accept (viewOf 0b011#3) true
  | .txOk => .completion .busy 0#1
  | .txErr => .completion .busy 1#1
  | .bit2pulseZero => .bit 0#1
  | .bit2pulseOne => .bit 1#1

/-- The view in which the condition of R97 beside code `c` holds: what the opcode table's 3-bit words leave unsaid
(log entry 19). -/
def enabledView (c : BitVec 3) : SeqView := ⟨c, true, true, .idle, 0#4, true⟩

/-- The instruction the decoder reads from the table's word `w` of `nbits` bits. A 32-bit word is a command. A 1-bit word is
a completion (format TXR). Any other is a `STATE` code (format SEQ), read with the condition of R97 beside it taken as met and
`TXS = Idle`; the table gives several rows one word there, and this reading names the first of them (log entry 19). -/
def decodeTableWord (nbits w : Nat) : Option Instr :=
  let d : Decoded :=
    if 8 < nbits then
      if w < 2 ^ 32 then decodeCmd (BitVec.ofNat 32 w) else .rejected .unusedBitsSet
    else if nbits = 1 then
      if w < 2 then decodeCompletion .busy (BitVec.ofNat 1 w) else .rejected .unusedBitsSet
    else
      if w < 8 then decodeSeq (enabledView (BitVec.ofNat 3 w)) else .rejected .unusedBitsSet
  match d with
  | .instr i => some i
  | .rejected _ => none

end Sys2Proof
end

