-- ==== Sys2Proof/Machine/State.lean ====
section
/-! DEFINITION. The state of LEDENC as plain data (spec/10_state.md), and the state right after reset (R38). -/

namespace Sys2Proof.Machine

/-- Who can hold the guard: a requester or the sequencer (10_state.md R24). -/
inductive Agent where
  | requester (r : Nat)
  | sequencer
deriving DecidableEq, Repr

/-- A memory in canonical form: addresses strictly rising, no entry equal to what an unlisted address reads as.
The frame store and the snapshot buffer hold bytes (20_memory.md R50). -/
abbrev Memory := List Host.Cell

/-- A memory of 32-bit descriptor words: the staging buffer and the transmitter's buffer (R50). -/
abbrev DescMemory := List (Nat × Word)

/-- The canonical form of a memory of `size` elements whose unlisted addresses read as `dflt` (log entries 8, 9). -/
abbrev Memory.wf {α : Type} [DecidableEq α] (dflt : Option α) (size : Nat) (m : List (Nat × α)) : Prop :=
  m.Pairwise (fun e f => e.1 < f.1) ∧ ∀ e ∈ m, e.1 < size ∧ some e.2 ≠ dflt

/-- One requester's host port (40_pixel_store.md R110) and its `NOWED` bit. -/
structure Port where
  /-- The outstanding command word; none when the last one has been answered. -/
  cmd : Option Word
  /-- The response word on the port; none before the first response and while a command is outstanding (R84). -/
  rsp : Option Word
  /-- `NOWED[r]`: released after a mutation, notifier not yet raised (10_state.md R34). -/
  nowed : Bool
deriving DecidableEq, Repr

/-- A port after reset: no command outstanding, `NOWED = 0` (R38). -/
def Port.idle : Port := ⟨none, none, false⟩

/-- The eight control registers (10_state.md R28). -/
structure Cfg where
  zeroHigh : Tick
  zeroLow : Tick
  oneHigh : Tick
  oneLow : Tick
  /-- `CORR[0]`, binary32. -/
  corrRed : Word
  /-- `CORR[1]`, binary32. -/
  corrGreen : Word
  /-- `CORR[2]`, binary32. -/
  corrBlue : Word
  /-- `RESET_DELAY_US`, microseconds. -/
  resetDelayUs : Word
deriving DecidableEq, Repr

/-- The result of a submission (30_encoding.md R91). -/
inductive TxResult where
  | ok | err
deriving DecidableEq, Repr

/-- An entry of `TXLOG` (10_state.md R36). -/
structure TxEntry where
  k : BitVec 4
  chunk : List Word
  result : TxResult
deriving DecidableEq, Repr

/-- An entry of `LINELOG`: a segment `(level, ticks)` or a marker `Gap(us)` (10_state.md R36). -/
inductive LineItem where
  | seg (level : BitVec 1) (ticks : Nat)
  | gap (us : Nat)
deriving DecidableEq, Repr

/-- Why the machine stops. Each is a read, before its first write, of an element whose reset value the spec leaves unspecified:
"A model must treat a read of an \"unspecified\" element before its first write as a fault of the model" (10_state.md R38).
All three are safe: no state that meets the invariant of Sys2Proof/Safety.lean raises one. -/
inductive Fault where
  /-- Raised by `SEQ_ENCODE` when some byte of `S` has not been written. Safe. -/
  | unwrittenSnapshot
  /-- Raised by `SEQ_SUBMIT`, `SEQ_NEXT`, `SEQ_LAST`, `SEQ_FAULT` when some slot of `ST[K]` has not been written. Safe. -/
  | unwrittenStaging
  /-- Raised by `TX_OK`, `TX_ERR` and by a play that drives the line, when some word of `TXBUF[0..24]` has not been written. Safe. -/
  | unwrittenTxBuf
deriving DecidableEq, Repr

/-- What the model gives no meaning. -/
inductive Refusal where
  /-- Raised by exec's arm of an instruction that has no meaning yet. Safe. -/
  | notModelled (mnemonic : String)
  /-- Raised by step on every move but reset while the block is held in reset by an invalid configuration:
  "A model refuses such a launch" (60_exceptions.md R229). Safe. -/
  | configInvalid
deriving DecidableEq, Repr

/-- The state of the block, of its ports, and the environment's choices. -/
structure State where
  /-- `F`, `x[0..47]` (R21); an unlisted byte reads as `0x00` (R22, R38). -/
  frame : Memory
  /-- `GUARD`; none is Free (R24). -/
  guard : Option Agent
  /-- `PENDING` (R23). -/
  pending : Bool
  /-- `STATE` (R27). -/
  seqState : SeqState
  /-- `K` (R27). -/
  k : BitVec 4
  /-- `S[0..47]` (R30); an unlisted byte has not been written. -/
  snap : Memory
  /-- `ST[p][j]` at `25p + j` (R31, R50); an unlisted slot has not been written. -/
  staging : DescMemory
  /-- `GAPT` in microseconds; none when not running (R35). -/
  gapt : Option Nat
  /-- `TXS` (R32). -/
  txs : Txs
  /-- `TXBUF[0..47]` (R33); an unlisted word has not been written. -/
  txbuf : DescMemory
  /-- The play position: how many segments of the waveform of `TXBUF[0..24]` the line has been driven to, in index order
  (44_transmitter.md R192, R194); 0 while no play is in progress (log entry 13). -/
  play : Nat
  /-- `LINE`, 1 high (R26). -/
  line : BitVec 1
  /-- `FAULT` (R25). -/
  fault : Bool
  /-- `FAULT_CHUNK` (R25). -/
  faultChunk : BitVec 4
  /-- The control registers (R28). -/
  cfg : Cfg
  /-- The block is held in reset by an invalid configuration (R213). -/
  held : Bool
  /-- `N_REQ` (R14, R37). -/
  nReq : Nat
  /-- The host ports by requester number; an unlisted port is idle (R110). -/
  ports : List (Nat × Port)
  /-- `TXLOG` (R36). -/
  txlog : List TxEntry
  /-- `LINELOG` (R36). -/
  linelog : List LineItem
  /-- `FAULTLOG` (R36). -/
  faultlog : List (BitVec 4)
  /-- The model's own: the host port whose command is in execution (log entry 3). -/
  me : Nat
  /-- The model's own: the environment's scheduled moves, oldest first (log entry 1). -/
  sched : List Move
  /-- The model's own: the chunk the sequencer presents to the transmitter while it executes `SEQ_SUBMIT`; none at every other
  time. Like `Held(SEQ)` (R24) it is never observed between steps (log entry 16). -/
  offer : Option (List Word)
  /-- The model's own: how many moves the free environment has made (log entry 1). -/
  turn : Nat
  /-- The model's own: the draw `n` of R196, how many segments a failing chunk puts on the line (log entry 14). -/
  drawSegs : Nat
  /-- The model's own: the draw that shortens the last of them, 0 for not at all (log entry 14). -/
  drawCut : Nat
  /-- The model's own: the descriptor word `BIT2PULSE` answers (log entry 15). -/
  encOut : Word
deriving DecidableEq, Repr

/-- The control registers of test configuration T1 (45_configuration.md R217). DESIGN CHOICE (log entry 7). -/
def Cfg.t1 : Cfg := ⟨2, 5, 5, 2, 0x3F800000, 0x3F800000, 0x3F800000, 100⟩

/-- The machine right after reset (R38), released with configuration T1 latched (log entry 7) and two requesters (log entry 6). -/
def State.reset : State where
  frame := []
  guard := none
  pending := false
  seqState := .waitingForChange
  k := 0
  snap := []
  staging := []
  gapt := none
  txs := .idle
  txbuf := []
  play := 0
  line := 0
  fault := false
  faultChunk := 0
  cfg := Cfg.t1
  held := false
  nReq := 2
  ports := []
  txlog := []
  linelog := []
  faultlog := []
  me := 0
  sched := []
  offer := none
  turn := 0
  drawSegs := 0
  drawCut := 0
  encOut := 0

end Sys2Proof.Machine
end

