-- ==== Sys2Proof/Machine/Operands.lean ====
section
/-! DEFINITION. Operand forms: pixel addresses and channel order (spec/20_memory.md R51, R52, R54), response words
(spec/30_encoding.md R84), pulse descriptors (R85, R86) and the binary32 multipliers (spec/00_scope.md R18). -/

namespace Sys2Proof.Machine

/-- The byte address of internal channel `ic` of pixel `p` (R51). -/
def pixelAddr (p ic : Nat) : Nat := 3 * p + ic

/-- The slot of descriptor `j` of chunk `p` (R50, R52). -/
def slotAddr (p j : Nat) : Nat := 25 * p + j

/-- `perm = [1, 0, 2]`: internal channel of a public channel (R54); it is its own inverse. -/
def perm (c : Fin 3) : Fin 3 :=
  match c with
  | 0 => 1
  | 1 => 0
  | 2 => 2

/-- `to_internal(r, g, b) = (g, r, b)`, as the three bytes at consecutive addresses (R82). -/
def toInternal (r g b : Byte) : List Byte := [g, r, b]

/-- `to_public` packed as a `PIX`: `i1 :: i0 :: i2`, red, green, blue (R81, R82, R114). -/
def toPublic (i0 i1 i2 : Byte) : BitVec 24 := i1 ++ (i0 ++ i2)

/-- The three statuses a response can carry (R84). -/
inductive Status where
  | ok | indexOutOfRange | illegalCommand
deriving DecidableEq, Repr

/-- The status field's codes (R84). -/
def statusCode : Status → BitVec 2
  | .ok => 0
  | .indexOutOfRange => 1
  | .illegalCommand => 2

/-- The response word: status in bits 31:30, six zero bits, data in bits 23:0 (R84). -/
def rspWord (st : Status) (data : BitVec 24) : Word := statusCode st ++ (0#6 ++ data)

/-- A Pulse Descriptor in structured form (R85). -/
structure Desc where
  highTicks : Tick
  highLevel : BitVec 1
  lowTicks : Tick
  lowLevel : BitVec 1
deriving DecidableEq, Repr

/-- `pack(d) = low_level :: low_ticks :: high_level :: high_ticks` (R86). -/
def packDesc (d : Desc) : Word := d.lowLevel ++ (d.lowTicks ++ (d.highLevel ++ d.highTicks))

/-- The inverse of `pack` (R86). -/
def unpackDesc (w : Word) : Desc where
  highTicks := w.extractLsb' 0 15
  highLevel := w.extractLsb' 15 1
  lowTicks := w.extractLsb' 16 15
  lowLevel := w.extractLsb' 31 1

/-- The descriptor written `(h, l)`: high first, then low (R85). -/
def dataDesc (h l : Tick) : Desc := ⟨h, 1, l, 0⟩

/-- `IDLE`: all four fields zero (R87). -/
def idleDesc : Desc := ⟨0, 0, 0, 0⟩

/-- `IDLE` as a raw word. -/
def idleWord : Word := packDesc idleDesc

/-- A response of a submission from its bit: 0 `Ok`, 1 `Err` (R91). -/
def txResultOf (txr : BitVec 1) : TxResult := if txr = 0#1 then .ok else .err

/-- `val32(w)` as a fraction `M / 2^E` (R18). None for a negative datum, an infinity or a NaN, which have no value there. -/
def val32 (w : Word) : Option (Nat × Nat) :=
  let s := w.extractLsb' 31 1
  let e := (w.extractLsb' 23 8).toNat
  let m := (w.extractLsb' 0 23).toNat
  if s ≠ 0#1 then none
  else if e = 0 then some (m, 149)
  else if e = 255 then none
  else if e ≤ 150 then some (2 ^ 23 + m, 150 - e)
  else some ((2 ^ 23 + m) * 2 ^ (e - 150), 0)

/-- A legal multiplier as a bit pattern: finite, positive, at most 1 (45_configuration.md R212 (c)). -/
def corrValid (w : Word) : Bool := decide (1 ≤ w.toNat ∧ w.toNat ≤ 0x3F800000)

end Sys2Proof.Machine
end

