-- ==== Sys2Proof/Machine/Ops.lean ====
section
/-! DEFINITION. The named operations over memories, ports and the guard, and the taking of faults: shared by all meanings. -/

namespace Sys2Proof.Machine

/-! ### Memories -/

/-- The element at address `a`: the listed one, else `dflt`, what an unlisted address reads as. -/
def cellsRead {α : Type} (dflt : Option α) (m : List (Nat × α)) (a : Nat) : Option α :=
  match m with
  | [] => dflt
  | e :: rest => if e.1 = a then some e.2 else cellsRead dflt rest a

/-- The `n` elements from `base` up; none if one of them has no value. -/
def cellsReadRange {α : Type} (dflt : Option α) (m : List (Nat × α)) (base : Nat) : Nat → Option (List α)
  | 0 => some []
  | n + 1 =>
    match cellsRead dflt m base, cellsReadRange dflt m (base + 1) n with
    | some v, some vs => some (v :: vs)
    | _, _ => none

/-- The list `vs` laid out at consecutive addresses from `base` up. -/
def cellsAt {α : Type} (base : Nat) : List α → List (Nat × α)
  | [] => []
  | v :: vs => (base, v) :: cellsAt (base + 1) vs

/-- Write the list `vs` at consecutive addresses from `base` up, keeping the canonical form. -/
def cellsWrite {α : Type} [DecidableEq α] (dflt : Option α) (m : List (Nat × α)) (base : Nat) (vs : List α) :
    List (Nat × α) :=
  m.filter (fun e => decide (e.1 < base))
    ++ ((cellsAt base vs).filter (fun e => decide (some e.2 ≠ dflt))
      ++ m.filter (fun e => decide (base + vs.length ≤ e.1)))

/-- What an unlisted byte of the frame store reads as: its reset value (10_state.md R22). -/
def frameDefault : Option Byte := some 0x00

/-- What an unlisted element of `S`, `ST`, `TXBUF` reads as: nothing, it has not been written (R38). -/
def unwritten {α : Type} : Option α := none

/-- `x[i]` (00_scope.md R16). -/
def State.x (s : State) (i : Nat) : Byte := (cellsRead frameDefault s.frame i).getD 0x00

/-- `F[p][ic] = x[3p + ic]` (10_state.md R21). -/
def State.channel (s : State) (p ic : Nat) : Byte := s.x (pixelAddr p ic)

/-- `MemRead(0, 48)`: the whole frame (R16, R59). -/
def State.frameBytes (s : State) : List Byte := (List.range Config.frameBytes).map s.x

/-- `MemWrite(3 * index, 3, bytes)`: one pixel in internal order (R16, 40_pixel_store.md R111). -/
def writePixel (index : Nat) (bytes : List Byte) (s : State) : State :=
  { s with frame := cellsWrite frameDefault s.frame (pixelAddr index 0) bytes }

/-- All 48 bytes of `S`, none before they have been written (R30, R38). -/
def State.snapBytes (s : State) : Option (List Byte) := cellsReadRange unwritten s.snap 0 Config.frameBytes

/-- `ST[p]`: the 25 descriptors of chunk `p` (R31). -/
def State.chunk (s : State) (p : Nat) : Option (List Word) :=
  cellsReadRange unwritten s.staging (slotAddr p 0) Config.chunkLen

/-- `TXBUF[0..24]` (R33). -/
def State.txChunk (s : State) : Option (List Word) := cellsReadRange unwritten s.txbuf 0 Config.chunkLen

/-! ### The guard (20_memory.md R60) -/

/-- `GUARD <- Held(a)`. -/
def acquireGuard (a : Agent) (s : State) : State := { s with guard := some a }

/-- `GUARD <- Free`. -/
def releaseGuard (s : State) : State := { s with guard := none }

/-! ### Host ports (40_pixel_store.md R110) -/

/-- Requester `r`'s port. -/
def State.port (s : State) (r : Nat) : Port := (cellsRead (some Port.idle) s.ports r).getD Port.idle

/-- Write requester `r`'s port. -/
def setPort (r : Nat) (p : Port) (s : State) : State :=
  { s with ports := cellsWrite (some Port.idle) s.ports r [p] }

/-- `NOWED[me]`. -/
def State.owes (s : State) : Bool := (s.port s.me).nowed

/-- `respond(status, data)`: the response word goes to the issuing requester, whose command is no longer outstanding
(00_scope.md R17, 30_encoding.md R84). -/
def respond (st : Status) (data : BitVec 24) (s : State) : State :=
  setPort s.me { (s.port s.me) with cmd := none, rsp := some (rspWord st data) } s

/-- The word requester `r` works on: the outstanding one, else the one it presents now (R110). -/
def State.cmdOf (s : State) (r : Nat) (w : Word) : Word := (s.port r).cmd.getD w

/-- Requester `r` presents `w` if it has no command outstanding; the response of the previous command leaves the port. -/
def presentCmd (r : Nat) (w : Word) (s : State) : State :=
  { setPort r { (s.port r) with cmd := some (s.cmdOf r w), rsp := none } s with me := r }

/-! ### Faults (60_exceptions.md) -/

/-- `raise IllegalCommand`: answered, nothing else changes (R227). -/
def raiseIllegalCommand (s : State) : State := respond .illegalCommand 0 s

/-- `raise IndexOutOfRange(index)`: answered, nothing else changes (R226). -/
def raiseIndexOutOfRange (s : State) : State := respond .indexOutOfRange 0 s

/-- `raise TransmitFault(k)`: `FAULT <- 1`, `FAULT_CHUNK <- k`, one `FAULTLOG` entry (R228). -/
def raiseTransmitFault (k : BitVec 4) (s : State) : State :=
  { s with fault := true, faultChunk := k, faultlog := s.faultlog ++ [k] }

/-- `raise ConfigInvalid`: the block stays in reset (R229). -/
def raiseConfigInvalid (s : State) : State := { s with held := true }

/-- The rest of the entry of a transmission fault and of the end of a good pass: `GAPT <- 0`, `pc <- (ResetDelay, K)`
(R235, 43_render_loop.md R167, R168). -/
def enterResetDelay (s : State) : State := { s with gapt := some 0, seqState := .resetDelay }

/-- The return, after a fault like after a good pass: leave `ResetDelay` for `WaitingForChange`; the timer's indication is
cleared by leaving the state (R232, R237; log entry 12). -/
def leaveResetDelay (s : State) : State := { s with gapt := none, seqState := .waitingForChange }

/-! ### Histories (10_state.md R36) -/

/-- `TXLOG <- TXLOG ++ [(K, chunk, result)]`. -/
def logSubmission (chunk : List Word) (result : TxResult) (s : State) : State :=
  { s with txlog := s.txlog ++ [⟨s.k, chunk, result⟩] }

/-- `LINELOG <- LINELOG ++ items`. -/
def logLine (items : List LineItem) (s : State) : State := { s with linelog := s.linelog ++ items }

end Sys2Proof.Machine
end

