-- ==== Sys2Proof/Machine/Flags.lean ====
section
/-! DEFINITION. The one-bit and handshake state: `PENDING` with `NOTIFY` and `WAIT` (spec/41_change_notifier.md), `NOWED`
(spec/10_state.md R34), `TXS` (R32), `LINE` (R26) and the gap timer (R35). -/

namespace Sys2Proof.Machine

/-- `NOTIFY`: `PENDING <- 1` (R131). -/
def notify (s : State) : State := { s with pending := true }

/-- The clear of `WAIT`: `PENDING <- 0` (R132); the caller tests `PENDING = 1` in the same step. -/
def consumePending (s : State) : State := { s with pending := false }

/-- `NOWED[me] <- b` (R34). -/
def setOwed (b : Bool) (s : State) : State := setPort s.me { (s.port s.me) with nowed := b } s

/-- Step 2 of `SET_PIXEL` and `FB_CLOSE`: `NOTIFY`; `NOWED[me] <- 0`; `respond(Ok, 0)` (40_pixel_store.md R111, R115). -/
def finishNotify (s : State) : State := respond .ok 0 (setOwed false (notify s))

/-- `TXS <- v`. -/
def setTxs (v : Txs) (s : State) : State := { s with txs := v }

/-- `LINE <- v`. -/
def setLine (v : BitVec 1) (s : State) : State := { s with line := v }

/-- `GAPT >= RESET_DELAY_US` (R97); false while the timer is not running. -/
def State.gapElapsed (s : State) : Bool :=
  match s.gapt with
  | some t => decide (s.cfg.resetDelayUs.toNat ≤ t)
  | none => false

/-- Time passes: a running timer counts it (R35). -/
def elapseTime (us : Nat) (s : State) : State := { s with gapt := s.gapt.map (fun t => t + us) }

/-- What R97 selects a sequencer step by. -/
def State.seqView (s : State) : SeqView where
  code := stateCode s.seqState
  pending := s.pending
  guardFree := s.guard.isNone
  txs := s.txs
  k := s.k
  gapDone := s.gapElapsed

end Sys2Proof.Machine
end

