-- ==== Sys2Proof/Machine/PixelStore.lean ====
section
/-! DEFINITION. The five host-port commands (spec/40_pixel_store.md). Each meaning is ONE atomic step of the command issued at
port `me`: a command that cannot step yet stalls, that is, the state does not change (spec/00_scope.md R17, log entry 2);
while `NOWED[me] = 1` the requester can do nothing but step 2 (spec/10_state.md R34). -/

namespace Sys2Proof.Machine

/-- Checks (2) and (3) of R110 passed or a fault raised: a window command needs the guard, then a legal index
(spec/60_exceptions.md R233). -/
def inWindow (s : State) : Bool := decide (s.guard = some (.requester s.me))

/-- `SET_PIXEL idx, r, g, b` (R111): step 1 acquires the guard, writes, releases and owes the notification; step 2 notifies
and responds. -/
def execSetPixel (idx : Nat) (r g b : Byte) (s : State) : Host.Outcome State Fault Refusal :=
  if s.owes then .next (finishNotify s)
  else if 16 ≤ idx then .next (raiseIndexOutOfRange s)
  else if s.guard.isNone then
    .next (setOwed true (releaseGuard (writePixel idx (toInternal r g b) (acquireGuard (.requester s.me) s))))
  else .next s

/-- `FB_OPEN` (R112). -/
def execFbOpen (s : State) : Host.Outcome State Fault Refusal :=
  if s.owes then .next s
  else if s.guard.isNone then .next (respond .ok 0 (acquireGuard (.requester s.me) s))
  else .next s

/-- `FB_WRITE idx, r, g, b` (R113). -/
def execFbWrite (idx : Nat) (r g b : Byte) (s : State) : Host.Outcome State Fault Refusal :=
  if s.owes then .next s
  else if !inWindow s then .next (raiseIllegalCommand s)
  else if 16 ≤ idx then .next (raiseIndexOutOfRange s)
  else .next (respond .ok 0 (writePixel idx (toInternal r g b) s))

/-- `FB_READ idx` (R114): the data are the stored bytes in public order. -/
def execFbRead (idx : Nat) (s : State) : Host.Outcome State Fault Refusal :=
  if s.owes then .next s
  else if !inWindow s then .next (raiseIllegalCommand s)
  else if 16 ≤ idx then .next (raiseIndexOutOfRange s)
  else .next (respond .ok (toPublic (s.channel idx 0) (s.channel idx 1) (s.channel idx 2)) s)

/-- `FB_CLOSE` (R115): step 1 releases the guard and owes the notification; step 2 notifies and responds. -/
def execFbClose (s : State) : Host.Outcome State Fault Refusal :=
  if s.owes then .next (finishNotify s)
  else if !inWindow s then .next (raiseIllegalCommand s)
  else .next (setOwed true (releaseGuard s))

end Sys2Proof.Machine
end

