-- ==== Sys2Proof/Machine/Encoder.lean ====
section
/-! DEFINITION. The Pulse Encoder (spec/42_pulse_encoder.md): pure functions of their arguments and the latched configuration,
the test oracle's inverses, and the two `BIT2PULSE` rows of the opcode table. -/

namespace Sys2Proof.Machine

/-- `min(255, floor(b*c + 1/2))` for `c = M / 2^E`, in exact integers (R141, R150). -/
def correctNat (b M E : Nat) : Nat := min 255 ((2 * b * M + 2 ^ E) / 2 ^ (E + 1))

/-- `CORRECT(b, c)` with the multiplier given by its binary32 word (R141). A word without a value has no stated result: a
free value (log entry 17). -/
def correct (b : Byte) (c : Word) : Byte :=
  match val32 c with
  | some (M, E) => BitVec.ofNat 8 (correctNat b.toNat M E)
  | none => Config.unstatedCorrection c b

/-- The raw word of `ZERO` (R143, R86). -/
def zeroWord (c : Cfg) : Word := packDesc (dataDesc c.zeroHigh c.zeroLow)

/-- The raw word of `ONE` (R143, R86). -/
def oneWord (c : Cfg) : Word := packDesc (dataDesc c.oneHigh c.oneLow)

/-- `BIT2PULSE(bit)` as a raw descriptor word (R143). -/
def bit2pulse (c : Cfg) (bit : Bool) : Word := if bit then oneWord c else zeroWord c

/-- `CORR[k]` in public order: 0 red, 1 green, 2 blue (R28). -/
def corrOf (c : Cfg) (k : Fin 3) : Word :=
  match k with
  | 0 => c.corrRed
  | 1 => c.corrGreen
  | 2 => c.corrBlue

/-- The eight descriptors of a corrected byte, most significant bit first (R95, R144). -/
def pulsesOf (c : Cfg) (a : Byte) : List Word := (List.range 8).map (fun i => bit2pulse c (a.getLsbD (7 - i)))

/-- `ENCODE_BYTE(b, c)`: correction first, bit extraction second (R144). -/
def encodeByte (c : Cfg) (b : Byte) (mult : Word) : List Word := pulsesOf c (correct b mult)

/-- `ENCODE_PIXEL(q)` for an internal pixel; internal channel `ic` is corrected with `CORR[perm(ic)]` (R145, R146). -/
def encodePixel (c : Cfg) (q0 q1 q2 : Byte) : List Word :=
  encodeByte c q0 (corrOf c (perm 0)) ++ (encodeByte c q1 (corrOf c (perm 1)) ++
    (encodeByte c q2 (corrOf c (perm 2)) ++ [idleWord]))

/-- Chunk `p` of `ENCODE_FRAME(s)` (R149). -/
def encodeChunk (c : Cfg) (bytes : List Byte) (p : Nat) : List Word :=
  encodePixel c (bytes.getD (pixelAddr p 0) 0) (bytes.getD (pixelAddr p 1) 0) (bytes.getD (pixelAddr p 2) 0)

/-- `ENCODE_FRAME(s)`: 16 chunks (R149). -/
def encodeFrame (c : Cfg) (bytes : List Byte) : List (List Word) :=
  (List.range Config.nPixels).map (encodeChunk c bytes)

/-- The number whose binary digits, most significant first, say which descriptors are `ONE` (R151). -/
def pulseBits (c : Cfg) (acc : Nat) : List Word → Nat
  | [] => acc
  | d :: ds => pulseBits c (2 * acc + (if d = oneWord c then 1 else 0)) ds

/-- `DECODE_BYTE(ds)`: defined on eight descriptors each `ZERO` or `ONE`, when the two differ (R151). -/
def decodeByte (c : Cfg) (ds : List Word) : Option Byte :=
  if zeroWord c ≠ oneWord c ∧ ds.length = 8 ∧ ∀ d ∈ ds, d = zeroWord c ∨ d = oneWord c then
    some (BitVec.ofNat 8 (pulseBits c 0 ds))
  else none

/-- `DECODE_CHUNK(ch)`: the three bytes in internal order, requiring `ch[24] = IDLE` (R151). -/
def decodeChunk (c : Cfg) (ch : List Word) : Option (Byte × Byte × Byte) :=
  if ch.length = 25 ∧ ch[24]? = some idleWord then
    match decodeByte c (ch.take 8), decodeByte c ((ch.drop 8).take 8), decodeByte c ((ch.drop 16).take 8) with
    | some q0, some q1, some q2 => some (q0, q1, q2)
    | _, _, _ => none
  else none

/-- The row `BIT2PULSE_ZERO`: data bit 0 selects `ZERO` (R143). The function's answer is put in the model's own output field;
no other state is read or written (log entry 15). -/
def execBit2pulseZero (s : State) : Host.Outcome State Fault Refusal :=
  .next { s with encOut := bit2pulse s.cfg false }

/-- The row `BIT2PULSE_ONE`: data bit 1 selects `ONE` (R143). -/
def execBit2pulseOne (s : State) : Host.Outcome State Fault Refusal :=
  .next { s with encOut := bit2pulse s.cfg true }

end Sys2Proof.Machine
end

