-- ==== Sys2Proof/Machine/Transmitter.lean ====
section
/-! DEFINITION. The transmitter's steps and the waveform function (spec/44_transmitter.md). -/

namespace Sys2Proof.Machine

/-- `WAVE`, `TX_PLAY` (R194): each descriptor drives its high part, then its low part; a descriptor with both durations zero ends
the play. The levels are the descriptor's own, for a data bit high then low (log entry 18). -/
def wave : List Word → List LineItem
  | [] => []
  | w :: rest =>
    if (unpackDesc w).highTicks = 0 ∧ (unpackDesc w).lowTicks = 0 then []
    else
      .seg (unpackDesc w).highLevel (unpackDesc w).highTicks.toNat ::
        .seg (unpackDesc w).lowLevel (unpackDesc w).lowTicks.toNat :: wave rest

/-- The ticks of a waveform's segments (R194, 70_reset_and_hazards.md R283). -/
def waveTicks : List LineItem → Nat
  | [] => 0
  | .seg _ t :: rest => t + waveTicks rest
  | .gap _ :: rest => waveTicks rest

/-- The nominal duration of a chunk in nanoseconds, for information (R283). -/
def chunkNanoseconds (chunk : List Word) : Nat := waveTicks (wave chunk) * Config.tickNs

/-- The last segment shortened to `cut` ticks; `cut = 0` leaves it whole (R196). -/
def shortenLast (cut : Nat) : List LineItem → List LineItem
  | [] => []
  | [.seg l t] => [.seg l (if cut = 0 then t else min t cut)]
  | [.gap us] => [.gap us]
  | i :: j :: rest => i :: shortenLast cut (j :: rest)

/-- `prefix(n, WAVE)`, the last segment possibly shortened (R196, 92_eei_decisions.md D21). -/
def failedWave (n cut : Nat) (items : List LineItem) : List LineItem := shortenLast cut (items.take n)

/-- The level of segment `j` of a waveform, low past its end (R194). -/
def levelAt (items : List LineItem) (j : Nat) : BitVec 1 :=
  match items[j]? with
  | some (.seg l _) => l
  | some (.gap _) => 0
  | none => 0

/-- The sequencer presents `chunk` on the transmitter port (43_render_loop.md R164; log entry 16). -/
def offerChunk (chunk : List Word) (s : State) : State := { s with offer := some chunk }

/-- `TX_ACCEPT(chunk)`: `TXBUF[0..24] <- chunk`, `TXS <- Busy` (R193); the chunk is no longer presented and its play has not
begun. -/
def acceptChunk (chunk : List Word) (s : State) : State :=
  setTxs .busy { s with txbuf := cellsWrite unwritten s.txbuf 0 chunk, play := 0, offer := none }

/-- A play of `items` goes on with its next segment, each once and in index order (R192, R194). Past the last one it has ended:
"the line goes (stays) low and nothing after it in the buffer is played". -/
def playSegment (items : List LineItem) (s : State) : State :=
  setLine (levelAt items s.play) { s with play := min (s.play + 1) items.length }

/-- A completion ends the play: the line is low (R195, R196). -/
def endPlay (s : State) : State := setLine 0 { s with play := 0 }

/-- A play in progress drives the line (R194, R197); nothing plays unless `TXS = Busy` (log entry 13). A play reads
`TXBUF[0..24]`, so an unwritten word of it is the fault of R38. -/
def driveLine (s : State) : Host.Outcome State Fault Refusal :=
  if s.txs = .busy then
    match s.txChunk with
    | some ds => .next (playSegment (wave ds) s)
    | none => .fault .unwrittenTxBuf
  else .next s

/-- `TX_ACCEPT`, the transmitter's half of `SEQ_SUBMIT` (R98, R193): it takes the chunk the sequencer presents. Only the sequencer
presents one, only in `SEQ_SUBMIT` (43_render_loop.md R176); without one it is not enabled (log entries 2, 16). -/
def execTxAccept (s : State) : Host.Outcome State Fault Refusal :=
  if s.txs = .idle then
    match s.offer with
    | some c => .next (acceptChunk c s)
    | none => .next s
  else .next s

/-- `TX_OK` (R195): the whole chunk has been played. What the line has not been driven to yet is played within this step
(30_encoding.md R98: "`TX_PLAY` (rule R194) is not a step but the function that gives the waveform `TX_OK` and `TX_ERR` put on
the line"). -/
def execTxOk (s : State) : Host.Outcome State Fault Refusal :=
  if s.txs = .busy then
    match s.txChunk with
    | some ds => .next (setTxs .doneOk (endPlay (logLine (wave ds) s)))
    | none => .fault .unwrittenTxBuf
  else .next s

/-- How many segments of a failing chunk got out: the draw of R196, and no fewer than the line has been driven to (log entry 14). -/
def segmentsOut (s : State) : Nat := max s.play s.drawSegs

/-- `TX_ERR` (R196): the drawn prefix of the chunk has been played, what the line has not been driven to yet of it within this
step. -/
def execTxErr (s : State) : Host.Outcome State Fault Refusal :=
  if s.txs = .busy then
    match s.txChunk with
    | some ds => .next (setTxs .doneErr (endPlay (logLine (failedWave (segmentsOut s) s.drawCut (wave ds)) s)))
    | none => .fault .unwrittenTxBuf
  else .next s

end Sys2Proof.Machine
end

