-- ==== Sys2Proof/Machine/RenderLoop.lean ====
section
/-! DEFINITION. The sequencer's steps (spec/43_render_loop.md). Each meaning tests the `STATE` and the condition that select it
(spec/30_encoding.md R97); where they do not hold the step is not enabled and the state does not change (log entry 2). -/

namespace Sys2Proof.Machine

/-- `SEQ_WAKE` (R161): `WAIT`, then `pc <- (Snapshotting, K)`. -/
def execSeqWake (s : State) : Host.Outcome State Fault Refusal :=
  if s.seqState = .waitingForChange ∧ s.pending = true then
    .next { consumePending s with seqState := .snapshotting }
  else .next s

/-- `S <- MemRead(0, 48)` (R162). -/
def copySnapshot (s : State) : State := { s with snap := cellsWrite unwritten s.snap 0 s.frameBytes }

/-- `SEQ_SNAPSHOT` (R162): acquire, copy, release, in one atomic step. -/
def execSeqSnapshot (s : State) : Host.Outcome State Fault Refusal :=
  if s.seqState = .snapshotting ∧ s.guard.isNone = true then
    .next { releaseGuard (copySnapshot (acquireGuard .sequencer s)) with seqState := .encoding }
  else .next s

/-- `ST <- ENCODE_FRAME(S)`, all 400 slots (R163). -/
def stageFrame (bytes : List Byte) (s : State) : State :=
  { s with staging := cellsWrite unwritten s.staging 0 (encodeFrame s.cfg bytes).flatten }

/-- `SEQ_ENCODE` (R163). -/
def execSeqEncode (s : State) : Host.Outcome State Fault Refusal :=
  if s.seqState = .encoding then
    match s.snapBytes with
    | some bytes => .next { stageFrame bytes s with seqState := .transmitting, k := 0 }
    | none => .fault .unwrittenSnapshot
  else .next s

/-- `SEQ_SUBMIT` (R164): `TX_ACCEPT(ST[K])`, presented and accepted in one atomic step (R98; log entry 16). -/
def execSeqSubmit (s : State) : Host.Outcome State Fault Refusal :=
  if s.seqState = .transmitting ∧ s.txs = .idle then
    match s.chunk s.k.toNat with
    | some c => .next (acceptChunk c (offerChunk c s))
    | none => .fault .unwrittenStaging
  else .next s

/-- `SEQ_NEXT` (R166). -/
def execSeqNext (s : State) : Host.Outcome State Fault Refusal :=
  if s.seqState = .transmitting ∧ s.txs = .doneOk ∧ s.k.toNat < 15 then
    match s.chunk s.k.toNat with
    | some c => .next { setTxs .idle (logSubmission c .ok s) with k := s.k + 1 }
    | none => .fault .unwrittenStaging
  else .next s

/-- `SEQ_LAST` (R167). -/
def execSeqLast (s : State) : Host.Outcome State Fault Refusal :=
  if s.seqState = .transmitting ∧ s.txs = .doneOk ∧ s.k.toNat = 15 then
    match s.chunk s.k.toNat with
    | some c => .next (enterResetDelay (setTxs .idle (logSubmission c .ok s)))
    | none => .fault .unwrittenStaging
  else .next s

/-- `SEQ_FAULT` (R168): the entry of `TransmitFault(K)`. -/
def execSeqFault (s : State) : Host.Outcome State Fault Refusal :=
  if s.seqState = .transmitting ∧ s.txs = .doneErr then
    match s.chunk s.k.toNat with
    | some c => .next (enterResetDelay (setTxs .idle (raiseTransmitFault s.k (logSubmission c .err s))))
    | none => .fault .unwrittenStaging
  else .next s

/-- `SEQ_GAP_DONE` (R169). -/
def execSeqGapDone (s : State) : Host.Outcome State Fault Refusal :=
  if s.seqState = .resetDelay ∧ s.gapElapsed = true then
    .next (leaveResetDelay (logLine [.gap s.cfg.resetDelayUs.toNat] s))
  else .next s

end Sys2Proof.Machine
end

