-- ==== Sys2Proof/Machine/Dispatch.lean ====
section
/-! DEFINITION. One arm per instruction. -/

namespace Sys2Proof.Machine

/-- The meaning of an instruction: one atomic step of the agent that executes it. -/
def exec (i : Instr) (s : State) : Host.Outcome State Fault Refusal :=
  match i with
  | .setPixel idx r g b => Sys2Proof.Machine.execSetPixel idx r g b s
  | .fbOpen => Sys2Proof.Machine.execFbOpen s
  | .fbWrite idx r g b => Sys2Proof.Machine.execFbWrite idx r g b s
  | .fbRead idx => Sys2Proof.Machine.execFbRead idx s
  | .fbClose => Sys2Proof.Machine.execFbClose s
  | .seqWake => Sys2Proof.Machine.execSeqWake s
  | .seqSnapshot => Sys2Proof.Machine.execSeqSnapshot s
  | .seqEncode => Sys2Proof.Machine.execSeqEncode s
  | .seqSubmit => Sys2Proof.Machine.execSeqSubmit s
  | .seqNext => Sys2Proof.Machine.execSeqNext s
  | .seqLast => Sys2Proof.Machine.execSeqLast s
  | .seqFault => Sys2Proof.Machine.execSeqFault s
  | .seqGapDone => Sys2Proof.Machine.execSeqGapDone s
  | .txAccept => Sys2Proof.Machine.execTxAccept s
  | .txOk => Sys2Proof.Machine.execTxOk s
  | .txErr => Sys2Proof.Machine.execTxErr s
  | .bit2pulseZero => Sys2Proof.Machine.execBit2pulseZero s
  | .bit2pulseOne => Sys2Proof.Machine.execBit2pulseOne s

end Sys2Proof.Machine
end

