-- ==== Sys2Proof/Machine/Configuration.lean ====
section
/-! DEFINITION. The configuration words, their validity, `CFG_LATCH` (spec/45_configuration.md) and reset
(spec/70_reset_and_hazards.md). -/

namespace Sys2Proof.Machine

/-- The eight fields of the six configuration words (R211). -/
def unpackCfg (w : CfgWords) : Cfg where
  zeroHigh := w.word0.extractLsb' 0 15
  zeroLow := w.word0.extractLsb' 16 15
  oneHigh := w.word1.extractLsb' 0 15
  oneLow := w.word1.extractLsb' 16 15
  corrRed := w.word2
  corrGreen := w.word3
  corrBlue := w.word4
  resetDelayUs := w.word5

/-- Clauses (a) and (c) of `cfg_valid`, which are about the fields (R212). -/
def cfgValid (c : Cfg) : Bool :=
  decide (1 ≤ c.zeroHigh.toNat ∧ 1 ≤ c.zeroLow.toNat ∧ 1 ≤ c.oneHigh.toNat ∧ 1 ≤ c.oneLow.toNat) &&
    (corrValid c.corrRed && (corrValid c.corrGreen && corrValid c.corrBlue))

/-- Bits 15 and 31 of a pulse word are 0 (R212 (b)). -/
def pulseWordClear (w : Word) : Bool := !w.getLsbD 15 && !w.getLsbD 31

/-- `cfg_valid` on the words of the configuration port (R212). -/
def cfgWordsValid (w : CfgWords) : Bool :=
  cfgValid (unpackCfg w) && (pulseWordClear w.word0 && pulseWordClear w.word1)

/-- `CFG_LATCH` (R213): the control registers take the fields of a valid configuration; an invalid one raises
`ConfigInvalid` and the registers are not written. -/
def cfgLatch (w : CfgWords) (s : State) : State :=
  if cfgWordsValid w then { s with cfg := unpackCfg w, held := false } else raiseConfigInvalid s

/-- All state at its reset value (R260, R261 steps 1 and 2); the number of ports is no state, the environment's own fields
go on, and the control registers wait for `CFG_LATCH`. -/
def clearState (s : State) : State :=
  { State.reset with cfg := s.cfg, nReq := s.nReq, sched := s.sched, turn := s.turn }

/-- Reset with these words on the configuration port (R260, R261). -/
def resetBlock (w : CfgWords) (s : State) : State := cfgLatch w (clearState s)

end Sys2Proof.Machine
end

