-- ==== Sys2Proof/Machine/Agents.lean ====
section
/-! DEFINITION. Which agent moves and what it fetches: the environment's next move (spec/10_state.md R20) turned into an
instruction by the decoder, or into an effect that is no instruction. -/

namespace Sys2Proof.Machine

/-- What a move comes to. -/
inductive Fetch where
  /-- Instruction `i` runs in state `s`. -/
  | run (i : Instr) (s : State)
  /-- No instruction runs; the state is `s`. -/
  | quiet (s : State)
  /-- No instruction runs; the move stops with a fault of the model. -/
  | stop (why : Fault)
  /-- The model gives the move no meaning. -/
  | refuse (why : Refusal)
deriving DecidableEq, Repr

/-- The move that comes next: the oldest scheduled one, else the free environment's (log entry 1). -/
def nextMove (s : State) : Move :=
  match s.sched with
  | m :: _ => m
  | [] => Config.environment s.turn

/-- The state after that move has been taken. -/
def takeMove (s : State) : State :=
  match s.sched with
  | _ :: rest => { s with sched := rest }
  | [] => { s with turn := s.turn + 1 }

/-- An agent's decoded step runs; an agent without an enabled step is stalled and nothing changes (30_encoding.md R97). -/
def runDecoded (d : Decoded) (s : State) : Fetch :=
  match d with
  | .instr i => .run i s
  | .rejected _ => .quiet s

/-- A move that is no instruction comes to its own outcome. -/
def fetchOutcome (o : Host.Outcome State Fault Refusal) : Fetch :=
  match o with
  | .next t => .quiet t
  | .fault why => .stop why
  | .refused why => .refuse why

/-- Requester `r` acts (40_pixel_store.md R110): its outstanding command goes on, or `w` is presented; a word that decodes to
nothing is answered `IllegalCommand` (check (1)). There is no requester past `N_REQ` (log entry 20). -/
def fetchCommand (r : Nat) (w : Word) (s : State) : Fetch :=
  if r < s.nReq then
    match decode (.cmd (s.cmdOf r w)) with
    | .instr i => .run i (presentCmd r w s)
    | .rejected _ => .quiet (raiseIllegalCommand (presentCmd r w s))
  else .quiet s

/-- What move `m` comes to in a block that is out of reset. -/
def fetchReleased (m : Move) (s : State) : Fetch :=
  match m with
  | .requester r w => fetchCommand r w s
  | .sequencer => runDecoded (decode (.seq s.seqView)) s
  | .txAccept => runDecoded (decode (.accept s.seqView s.offer.isSome)) s
  | .transmitter txr segs cut =>
    runDecoded (decode (.completion s.txs txr)) { s with drawSegs := segs, drawCut := cut }
  | .drive => fetchOutcome (driveLine s)
  | .encoder bit => runDecoded (decode (.bit bit)) s
  | .elapse us => .quiet (elapseTime us s)
  | .reset words => .quiet (resetBlock words s)

/-- What move `m` comes to. A block held in reset by an invalid configuration only answers reset: the model refuses such a
launch (60_exceptions.md R229; log entry 11). -/
def fetchMove (m : Move) (s : State) : Fetch :=
  if s.held then
    match m with
    | .reset words => .quiet (resetBlock words s)
    | .requester _ _ | .sequencer | .txAccept | .transmitter _ _ _ | .drive | .encoder _ | .elapse _ =>
      .refuse .configInvalid
  else fetchReleased m s

end Sys2Proof.Machine
end

