-- ==== Sys2Proof/Machine/Loading.lean ====
section
/-! DEFINITION. How an opcode-table word comes to be what the next step runs: the word is put where its agent fetches, and the
condition the table lists beside it is made true (spec/30_encoding.md R97, R98; log entry 19). -/

namespace Sys2Proof.Machine

/-- The first `size` elements written: those not yet written take the value `v`. -/
def cellsFill {α : Type} [DecidableEq α] (size : Nat) (v : α) (m : List (Nat × α)) : List (Nat × α) :=
  cellsWrite unwritten m 0 ((List.range size).map (fun a => (cellsRead unwritten m a).getD v))

/-- The command word stands on host port 0 as its outstanding command, and requester 0 moves next. -/
def loadCommand (w : Word) (s : State) : State :=
  let s := setPort 0 { (s.port 0) with cmd := some w, nowed := false } s
  { s with nReq := max 1 s.nReq, sched := .requester 0 w :: s.sched }

/-- The `STATE` code and the condition R97 lists beside it; code `0b011` is read with `TXS = Idle`. -/
def loadStateCode (c : BitVec 3) (s : State) : State :=
  let s := { s with sched := .sequencer :: s.sched }
  match stateOfCode c with
  | some .waitingForChange => { s with seqState := .waitingForChange, pending := true }
  | some .snapshotting => { s with seqState := .snapshotting, guard := none }
  | some .encoding => { s with seqState := .encoding, snap := cellsFill Config.frameBytes 0 s.snap }
  | some .transmitting =>
    { s with seqState := .transmitting, txs := .idle,
             staging := cellsFill Config.frameDescriptors idleWord s.staging }
  | some .resetDelay => { s with seqState := .resetDelay, gapt := some s.cfg.resetDelayUs.toNat }
  | none => s

/-- A completion with result `txr`: a chunk is in the transmitter and it completes next. -/
def loadCompletion (txr : BitVec 1) (s : State) : State :=
  { s with txs := .busy, txbuf := cellsFill Config.chunkLen idleWord s.txbuf,
           sched := .transmitter txr s.drawSegs s.drawCut :: s.sched }

/-- The table's word `w` of `nbits` bits loaded, by the formats `decodeTableWord` reads. -/
def loadTableWord (nbits w : Nat) (s : State) : State :=
  let s := { s with held := false }
  if 8 < nbits then loadCommand (BitVec.ofNat 32 w) s
  else if nbits = 1 then loadCompletion (BitVec.ofNat 1 w) s
  else loadStateCode (BitVec.ofNat 3 w) s

end Sys2Proof.Machine
end

