-- ==== Sys2Proof/Machine/Step.lean ====
section
/-! DEFINITION. One step of the block: the next move's instruction runs (spec/10_state.md R20). -/

namespace Sys2Proof.Machine

/-- What a fetch comes to: its instruction runs, or the state is as it says, or the move stops or is refused. -/
def runFetch (f : Fetch) : Host.Outcome State Fault Refusal :=
  match f with
  | .run i t => exec i t
  | .quiet t => .next t
  | .stop why => .fault why
  | .refuse why => .refused why

/-- One atomic step of the agent that moves next. -/
def step (s : State) : Host.Outcome State Fault Refusal := runFetch (fetchMove (nextMove s) (takeMove s))

/-- `s` with an opcode-table word where step fetches its next instruction (log entry 19). -/
def State.withFetchWord (s : State) (nbits w : Nat) : State := loadTableWord nbits w s

end Sys2Proof.Machine
end

