-- ==== Sys2Proof/Safety.lean ====
section
/-! DEFINITION. What counts as a safe state and a safe run of LEDENC: the invariant the rules maintain between the state's
elements, and the single-snapshot reading of `TXLOG` (spec/43_render_loop.md R172). -/

namespace Sys2Proof.Machine

/-- Entry `j` of a pass: chunk `j` of the encoding of `bytes`. -/
def EntryOf (c : Cfg) (bytes : List Byte) (j : Nat) (e : TxEntry) : Prop :=
  e.k.toNat = j ∧ e.chunk = encodeChunk c bytes j

/-- The entries of `p` are consecutive from `k = 0` and all come from the one snapshot `bytes` (R172). -/
def PassOf (c : Cfg) (bytes : List Byte) (p : List TxEntry) : Prop :=
  p.length ≤ 16 ∧ ∀ j e, p[j]? = some e → EntryOf c bytes j e

/-- `TXLOG` splits into passes, each of a single 48-byte snapshot (R172). -/
def SingleSnapshot (c : Cfg) (log : List TxEntry) : Prop :=
  ∃ passes : List (List TxEntry), passes.flatten = log ∧
    ∀ p ∈ passes, p ≠ [] ∧ ∃ bytes : List Byte, bytes.length = 48 ∧ PassOf c bytes p

/-- The `TXLOG` entries of chunks `0 .. n-1` of the encoding of `bytes`, all `Ok`. -/
def okEntries (c : Cfg) (bytes : List Byte) (n : Nat) : List TxEntry :=
  (List.range n).map (fun j => ⟨BitVec.ofNat 4 j, encodeChunk c bytes j, .ok⟩)

/-- The waveforms of chunks `0 .. n-1`. -/
def okWaves (c : Cfg) (bytes : List Byte) (n : Nat) : List LineItem :=
  ((List.range n).map (fun j => wave (encodeChunk c bytes j))).flatten

/-- `LINELOG` between passes: nothing yet, or a `Gap` last (R174, R175). -/
def LineRests (l : List LineItem) : Prop := l = [] ∨ ∃ us, l.getLast? = some (.gap us)

/-- The level the line has when a play has driven it to `n` segments: low before the first, then the last segment's (R194). -/
def lineAfter (items : List LineItem) : Nat → BitVec 1
  | 0 => 0
  | n + 1 => levelAt items n

/-- What the chunk in the transmitter has put on `LINELOG` so far (44_transmitter.md R195, R196). -/
def PlayedSoFar (txs : Txs) (chunk : List Word) (items : List LineItem) : Prop :=
  match txs with
  | .idle | .busy => items = []
  | .doneOk => items = wave chunk
  | .doneErr => ∃ n cut, items = failedWave n cut (wave chunk)

/-- The pass in progress has sent chunks `0 .. k-1`, all `Ok`, after complete passes; the line has their waveforms and `items`. -/
def PassInProgress (c : Cfg) (bytes : List Byte) (k : Nat) (txlog : List TxEntry) (linelog items : List LineItem) : Prop :=
  ∃ done before, SingleSnapshot c done ∧ LineRests before ∧
    txlog = done ++ okEntries c bytes k ∧ linelog = before ++ okWaves c bytes k ++ items

/-- The last pass sent all 16 chunks, `Ok`, and the line has their 16 waveforms and `tail` (R174, 44_transmitter.md R200). -/
def EndsFullPass (c : Cfg) (bytes : List Byte) (txlog : List TxEntry) (linelog tail : List LineItem) : Prop :=
  PassInProgress c bytes 16 txlog linelog tail

/-- The last pass sent `f` chunks, `Ok`, and chunk `f`, `Err`; the line has the `f` waveforms, a drawn prefix of the next and
`tail` (R175; log entry 14). -/
def EndsFaultedPass (c : Cfg) (bytes : List Byte) (f : Nat) (txlog : List TxEntry) (linelog tail : List LineItem) : Prop :=
  ∃ done before n cut, SingleSnapshot c done ∧ LineRests before ∧
    txlog = done ++ okEntries c bytes f ++ [⟨BitVec.ofNat 4 f, encodeChunk c bytes f, .err⟩] ∧
    linelog = before ++ okWaves c bytes f ++ failedWave n cut (wave (encodeChunk c bytes f)) ++ tail

/-- The command word of a port that waits: it stalls on the guard, or it has released the guard and owes the notification
(R34, R60, 40_pixel_store.md R110). -/
def WaitingCommand (w : Word) (nowed : Bool) : Prop :=
  (∃ idx r g b, decodeCmd w = .instr (.setPixel idx r g b) ∧ idx < 16) ∨
    (decodeCmd w = .instr .fbOpen ∧ nowed = false) ∨ (decodeCmd w = .instr .fbClose ∧ nowed = true)

/-- Memories in canonical form (20_memory.md R50). -/
structure MemoriesOk (s : State) : Prop where
  frame : Memory.wf frameDefault Config.frameBytes s.frame
  snap : Memory.wf unwritten Config.frameBytes s.snap
  staging : Memory.wf unwritten Config.frameDescriptors s.staging
  txbuf : Memory.wf unwritten Config.txBufCap s.txbuf
  ports : Memory.wf (some Port.idle) s.nReq s.ports

/-- The guard and the host ports (R24, R34, R60). -/
structure PortsOk (s : State) : Prop where
  /-- There is a requester (R14). -/
  someRequester : 1 ≤ s.nReq
  /-- `Held(SEQ)` is never observed (R24). -/
  notSequencer : s.guard ≠ some .sequencer
  /-- A window's holder is a requester that owes no notification. -/
  holder : ∀ r, s.guard = some (.requester r) → r < s.nReq ∧ (s.port r).nowed = false
  /-- An outstanding command is one that waits. -/
  waiting : ∀ r w, (s.port r).cmd = some w → WaitingCommand w (s.port r).nowed
  /-- `NOWED[r]` belongs to an outstanding command. -/
  owing : ∀ r, (s.port r).nowed = true → (s.port r).cmd.isSome = true

/-- The transmitter's handshake, the line and the gap timer (R32, R35, R197). -/
structure LinkOk (s : State) : Prop where
  idleLine : s.txs ≠ .busy → s.line = 0
  inPass : s.txs ≠ .idle → s.seqState = .transmitting
  timer : s.gapt.isSome = true ↔ s.seqState = .resetDelay
  buffered : s.txs ≠ .idle → s.txChunk = s.chunk s.k.toNat
  /-- Nothing plays unless `TXS = Busy`. -/
  idlePlay : s.txs ≠ .busy → s.play = 0
  /-- A play has driven the line to its first segments, in order, and no further than its end, where the line goes low. -/
  playing : ∀ ds, s.txs = .busy → s.txChunk = some ds → s.play ≤ (wave ds).length ∧
    (s.line = lineAfter (wave ds) s.play ∨ (s.play = (wave ds).length ∧ s.line = 0))
  /-- A presented chunk is never observed (log entry 16). -/
  notOffered : s.offer = none

/-- The fault port (R25, R238): `FAULT` and `FAULT_CHUNK` agree with `FAULTLOG`. -/
structure FaultPortOk (s : State) : Prop where
  sticky : s.fault = true ↔ s.faultlog ≠ []
  latest : s.fault = true → s.faultlog.getLast? = some s.faultChunk

/-- What the sequencer has prepared, and what it has sent, in each state (R30, R31, R172, R174, R175). -/
structure PassOk (s : State) : Prop where
  encoding : s.seqState = .encoding → ∃ bytes, s.snapBytes = some bytes ∧ bytes.length = 48
  transmitting : s.seqState = .transmitting → ∃ bytes, s.snapBytes = some bytes ∧ bytes.length = 48 ∧
    (∀ p, p < 16 → s.chunk p = some (encodeChunk s.cfg bytes p)) ∧
    ∃ items, PlayedSoFar s.txs (encodeChunk s.cfg bytes s.k.toNat) items ∧
      PassInProgress s.cfg bytes s.k.toNat s.txlog s.linelog items
  closing : s.seqState = .resetDelay → ∃ bytes, s.snapBytes = some bytes ∧ bytes.length = 48 ∧
    (s.k = 15 ∧ EndsFullPass s.cfg bytes s.txlog s.linelog [] ∨
      s.fault = true ∧ s.faultChunk = s.k ∧ EndsFaultedPass s.cfg bytes s.k.toNat s.txlog s.linelog [])
  between : s.seqState ≠ .transmitting → SingleSnapshot s.cfg s.txlog
  resting : s.seqState ≠ .transmitting → s.seqState ≠ .resetDelay → LineRests s.linelog

/-- A block held in reset does nothing and drives nothing (R213, R229). -/
structure HeldOk (s : State) : Prop where
  waits : s.held = true → s.seqState = .waitingForChange ∧ s.pending = false ∧ s.txs = .idle ∧ s.line = 0
  latched : s.held = false → cfgValid s.cfg = true

/-- The invariant of LEDENC: it holds after reset and every step keeps it. -/
structure StateInv (s : State) : Prop where
  memories : MemoriesOk s
  ports : PortsOk s
  link : LinkOk s
  faultPort : FaultPortOk s
  pass : PassOk s
  heldOk : HeldOk s

/-- The move is a reset. -/
def isReset : Move → Bool
  | .reset _ => true
  | .requester _ _ | .sequencer | .txAccept | .transmitter _ _ _ | .drive | .encoder _ | .elapse _ => false

/-- `n` steps, stopping at the first fault or refusal: `Host.Core.run` of the machine, said in its own types. -/
def runSteps : Nat → State → Host.Outcome State Fault Refusal
  | 0, s => .next s
  | n + 1, s =>
    match step s with
    | .next t => runSteps n t
    | .fault why => .fault why
    | .refused why => .refused why

/-- A step from `s` that answers a next state, or the refusal of a block held in reset by an invalid configuration
(60_exceptions.md R229). -/
def SafeOutcome (s : State) (o : Host.Outcome State Fault Refusal) : Prop :=
  (∃ t, o = .next t) ∨ (s.held = true ∧ o = .refused .configInvalid)

end Sys2Proof.Machine
end

