-- ==== Sys2Proof/Certificates/Slice0/Obligations.lean ====
section
/-! DEFINITION. The statements about LEDENC that the provers are asked to prove or refute; OBLIGATIONS.json lists them. Each
says in Lean what the numbered rules of spec/ say; `s.me` is the host port whose command is in execution. -/

open Sys2Proof Sys2Proof.Machine

/-! ### Words used by the statements -/

namespace Sys2Proof.Machine

/-- Port `me` holds `p` afterwards and no other port changed. -/
def MyPortIs (s t : State) (p : Port) : Prop := t.port s.me = p ∧ ∀ r, r ≠ s.me → t.port r = s.port r

/-- The command at port `me` has been answered with `w`, and nothing else has changed. -/
def AnsweredOnly (s t : State) (w : Word) : Prop :=
  MyPortIs s t { (s.port s.me) with cmd := none, rsp := some w } ∧ t = { s with ports := t.ports }

/-- Step 2 of a mutating command: `PENDING` is 1, `NOWED[me]` is 0, the answer is `Ok`, and nothing else has changed. -/
def NotifiedOnly (s t : State) : Prop :=
  MyPortIs s t ⟨none, some 0x00000000, false⟩ ∧ t = { s with pending := true, ports := t.ports }

/-- The frame store after pixel `i` has been written with `(r, g, b)`: green, red, blue at `3i`, `3i+1`, `3i+2`; every other
byte as before. -/
def PixelWritten (s t : State) (i : Nat) (r g b : Byte) : Prop :=
  t.x (3 * i) = g ∧ t.x (3 * i + 1) = r ∧ t.x (3 * i + 2) = b ∧
    ∀ a, a < 3 * i ∨ 3 * i + 2 < a → t.x a = s.x a

/-- The five host-port commands. -/
def isCommand : Instr → Bool
  | .setPixel _ _ _ _ | .fbOpen | .fbWrite _ _ _ _ | .fbRead _ | .fbClose => true
  | .seqWake | .seqSnapshot | .seqEncode | .seqSubmit | .seqNext | .seqLast | .seqFault | .seqGapDone => false
  | .txAccept | .txOk | .txErr | .bit2pulseZero | .bit2pulseOne => false

/-- The eight sequencer steps. -/
def isSequencerStep : Instr → Bool
  | .seqWake | .seqSnapshot | .seqEncode | .seqSubmit | .seqNext | .seqLast | .seqFault | .seqGapDone => true
  | .setPixel _ _ _ _ | .fbOpen | .fbWrite _ _ _ _ | .fbRead _ | .fbClose => false
  | .txAccept | .txOk | .txErr | .bit2pulseZero | .bit2pulseOne => false

/-- The moves of one submission that completes with result `txr`. -/
def submissionMoves (txr : BitVec 1) (segs cut : Nat) : List Move := [.sequencer, .transmitter txr segs cut, .sequencer]

/-- The moves of a render pass whose first `n` chunks complete `Ok`, then `last`, then the gap of `us` microseconds. -/
def passMoves (n : Nat) (last : List Move) (us : Nat) : List Move :=
  [.sequencer, .sequencer, .sequencer] ++ (List.replicate n (submissionMoves 0 0 0)).flatten ++ last ++
    [.elapse us, .sequencer]

/-- The sequencer is about to wake: out of reset, waiting with a pending notification, guard free, transmitter idle. -/
def AboutToWake (s : State) : Prop :=
  s.held = false ∧ s.seqState = .waitingForChange ∧ s.pending = true ∧ s.guard = none ∧ s.txs = .idle

end Sys2Proof.Machine

/-! ### Encodings -/

/-- Decoding what the encoder writes gives the instruction back, with every operand (30_encoding.md R83, R96, R97, R98, R143). -/
def Obligations.DecodeEncodeRoundTrip : Prop :=
  ∀ i : Instr, i.wellFormed = true → decode (encode i) = .instr i

/-- Every legal command word is the encoding of what it decodes to: one meaning a word, no bit dropped (R83, R96). -/
def Obligations.LegalWordIsItsEncoding : Prop :=
  ∀ (w : Word) (i : Instr), decodeCmd w = .instr i → i.wellFormed = true ∧ encode i = .cmd w

/-- R96: a word selects the row with `w & mask = match`, with the fields at their places; a reserved `op` selects none. -/
def Obligations.CommandRowsByMatchAndMask : Prop :=
  ∀ w : Word,
    (decodeCmd w = .instr (.setPixel (cmdIdx w) (cmdRed w) (cmdGreen w) (cmdBlue w)) ↔
      w &&& 0xE0000000#32 = 0x20000000#32) ∧
    (decodeCmd w = .instr .fbOpen ↔ w &&& 0xFFFFFFFF#32 = 0x40000000#32) ∧
    (decodeCmd w = .instr (.fbWrite (cmdIdx w) (cmdRed w) (cmdGreen w) (cmdBlue w)) ↔
      w &&& 0xE0000000#32 = 0x60000000#32) ∧
    (decodeCmd w = .instr (.fbRead (cmdIdx w)) ↔ w &&& 0xE0FFFFFF#32 = 0x80000000#32) ∧
    (decodeCmd w = .instr .fbClose ↔ w &&& 0xFFFFFFFF#32 = 0xA0000000#32) ∧
    (w.extractLsb' 29 3 = 0b000#3 ∨ w.extractLsb' 29 3 = 0b110#3 ∨ w.extractLsb' 29 3 = 0b111#3 →
      decodeCmd w = .rejected .reservedOp)

/-- R99 (a) to (c): exactly the words with a reserved `op`, or with a non-zero unused field, decode to nothing. -/
def Obligations.IllegalWordsExactly : Prop :=
  ∀ w : Word, (∃ why, decodeCmd w = .rejected why) ↔
    (w.extractLsb' 29 3 = 0b000#3 ∨ w.extractLsb' 29 3 = 0b110#3 ∨ w.extractLsb' 29 3 = 0b111#3) ∨
    ((w.extractLsb' 29 3 = 0b010#3 ∨ w.extractLsb' 29 3 = 0b101#3) ∧ w.extractLsb' 0 29 ≠ 0) ∨
    (w.extractLsb' 29 3 = 0b100#3 ∧ w.extractLsb' 0 24 ≠ 0)

/-- R97: the table of sequencer steps; in every other combination there is no enabled step. The view the sequencer is given is
the state's `STATE` code, `PENDING`, `GUARD`, `TXS`, `K` and gap timer. -/
def Obligations.SequencerStepSelection : Prop :=
  (∀ s : State, s.seqView.code = stateCode s.seqState ∧ s.seqView.pending = s.pending ∧
    (s.seqView.guardFree = true ↔ s.guard = none) ∧ s.seqView.txs = s.txs ∧ s.seqView.k = s.k ∧
    (s.seqView.gapDone = true ↔ ∃ us, s.gapt = some us ∧ s.cfg.resetDelayUs.toNat ≤ us)) ∧
  ∀ (v : SeqView) (i : Instr), decodeSeq v = .instr i ↔
    (v.code = 0b000#3 ∧ v.pending = true ∧ i = .seqWake) ∨
    (v.code = 0b001#3 ∧ v.guardFree = true ∧ i = .seqSnapshot) ∨
    (v.code = 0b010#3 ∧ i = .seqEncode) ∨
    (v.code = 0b011#3 ∧ v.txs = .idle ∧ i = .seqSubmit) ∨
    (v.code = 0b011#3 ∧ v.txs = .doneOk ∧ v.k.toNat < 15 ∧ i = .seqNext) ∨
    (v.code = 0b011#3 ∧ v.txs = .doneOk ∧ v.k.toNat = 15 ∧ i = .seqLast) ∨
    (v.code = 0b011#3 ∧ v.txs = .doneErr ∧ i = .seqFault) ∨
    (v.code = 0b100#3 ∧ v.gapDone = true ∧ i = .seqGapDone)

/-- R98: the transmitter's steps and the descriptor a data bit selects. "The sequencer executing `SEQ_SUBMIT`" is, in the model,
that it presents a chunk: log entry 16, the model's choice. -/
def Obligations.TransmitterStepSelection : Prop :=
  (∀ (v : SeqView) (offered : Bool) (i : Instr), decodeAccept v offered = .instr i ↔
    v.code = 0b011#3 ∧ v.txs = .idle ∧ offered = true ∧ i = .txAccept) ∧
  (∀ (txs : Txs) (txr : BitVec 1) (i : Instr), decodeCompletion txs txr = .instr i ↔
    (txs = .busy ∧ txr = 0 ∧ i = .txOk) ∨ (txs = .busy ∧ txr = 1 ∧ i = .txErr)) ∧
  (∀ (b : BitVec 1) (i : Instr), decodeBit b = .instr i ↔
    (b = 0 ∧ i = .bit2pulseZero) ∨ (b = 1 ∧ i = .bit2pulseOne))

/-- Command words written out from the encodings decode to the instructions they stand for (95_test_vectors.md W1 to W11). The
last two clauses are no encodings of the spec: R97 says sequencer steps are not decoded from a word, and that `decodeTableWord`
reads a `STATE` code with its condition met and a 1-bit word as `TXR` is log entry 19, the model's choice. -/
def Obligations.SampleWordsDecode : Prop :=
  decodeCmd 0x25123456 = .instr (.setPixel 5 0x12 0x34 0x56) ∧
  decodeCmd 0x40000000 = .instr .fbOpen ∧
  decodeCmd 0x62010203 = .instr (.fbWrite 2 1 2 3) ∧
  decodeCmd 0x83000000 = .instr (.fbRead 3) ∧
  decodeCmd 0xA0000000 = .instr .fbClose ∧
  decodeTableWord 8 0b100 = some .seqGapDone ∧
  decodeTableWord 1 0b1 = some .txErr

/-- R86: `pack` and `unpack` are inverse to each other, the fields stand where the table puts them, and a data-bit descriptor
`(h, l)` packs to `(l << 16) | 0x8000 | h`. -/
def Obligations.DescriptorPackUnpack : Prop :=
  (∀ d : Desc, unpackDesc (packDesc d) = d) ∧
  (∀ w : Word, packDesc (unpackDesc w) = w ∧
    (unpackDesc w).highTicks = w.extractLsb' 0 15 ∧ (unpackDesc w).highLevel = w.extractLsb' 15 1 ∧
    (unpackDesc w).lowTicks = w.extractLsb' 16 15 ∧ (unpackDesc w).lowLevel = w.extractLsb' 31 1) ∧
  (∀ h l : Tick, packDesc (dataDesc h l) =
    (l.setWidth 32 <<< (16 : Nat)) ||| (0x8000#32 ||| h.setWidth 32))

/-- R211: `pack(ZERO) = word0 | 0x8000` and `pack(ONE) = word1 | 0x8000` for a valid configuration. -/
def Obligations.ConfigurationWordsPackPulses : Prop :=
  ∀ w : CfgWords, cfgWordsValid w = true →
    zeroWord (unpackCfg w) = w.word0 ||| 0x8000#32 ∧ oneWord (unpackCfg w) = w.word1 ||| 0x8000#32

/-- R212, on the six words of R211: a configuration is valid exactly when (a) its four durations are in 1 to 32767, (b) bits 15
and 31 of words 0 and 1 are 0, and (c) its three multipliers have a value `M / 2^E` in (0, 1], that is a bit pattern from
`0x00000001` to `0x3F800000`; (d) word 5 is any word. -/
def Obligations.ConfigurationValidity : Prop :=
  (∀ w : Word, corrValid w = true ↔ ∃ M E : Nat, val32 w = some (M, E) ∧ 0 < M ∧ M ≤ 2 ^ E) ∧
  (∀ w : Word, corrValid w = true ↔ 0x00000001 ≤ w.toNat ∧ w.toNat ≤ 0x3F800000) ∧
  ∀ w : CfgWords, cfgWordsValid w = true ↔
    (∀ d : BitVec 15, d = w.word0.extractLsb' 0 15 ∨ d = w.word0.extractLsb' 16 15 ∨ d = w.word1.extractLsb' 0 15 ∨
      d = w.word1.extractLsb' 16 15 → 1 ≤ d.toNat ∧ d.toNat ≤ 32767) ∧
    (w.word0.getLsbD 15 = false ∧ w.word0.getLsbD 31 = false ∧ w.word1.getLsbD 15 = false ∧ w.word1.getLsbD 31 = false) ∧
    (∀ c : Word, c = w.word2 ∨ c = w.word3 ∨ c = w.word4 → ∃ M E : Nat, val32 c = some (M, E) ∧ 0 < M ∧ M ≤ 2 ^ E)

/-! ### The Pulse Encoder -/

/-- R141 for a valid multiplier: `floor((2bM + 2^E) / 2^(E+1))`; 0 stays 0, and the multiplier 1 is the identity. -/
def Obligations.CorrectionRoundsExactProduct : Prop :=
  (∀ (b : Byte) (c : Word) (M E : Nat), corrValid c = true → val32 c = some (M, E) →
    (correct b c).toNat = (2 * b.toNat * M + 2 ^ E) / 2 ^ (E + 1)) ∧
  (∀ c : Word, corrValid c = true → correct 0 c = 0) ∧
  (∀ b : Byte, correct b 0x3F800000 = b)

/-- R142 (a), (b), (c), (e) for every valid multiplier `M / 2^E`. Law (d) is not stated: it contradicts the vector of
95_test_vectors.md for `0x3F7FFFFF` (log entry 23). -/
def Obligations.CorrectionLaws : Prop :=
  ∀ (c : Word) (M E : Nat), corrValid c = true → val32 c = some (M, E) →
    (∀ b : Byte, (correct b c).toNat ≤ b.toNat) ∧
    (∀ b1 b2 : Byte, b1.toNat ≤ b2.toNat → (correct b1 c).toNat ≤ (correct b2 c).toNat) ∧
    (∀ b : Byte, 2 * (b.toNat * M) ≤ 2 ^ E * (2 * (correct b c).toNat + 1) ∧
      2 ^ E * (2 * (correct b c).toNat) ≤ 2 * (b.toNat * M) + 2 ^ E) ∧
    (∀ b : Byte, correct b c = 0 ↔ 2 * (b.toNat * M) < 2 ^ E)

/-- R147: eight descriptors, each `ZERO` or `ONE`, the big-endian bit expansion of the corrected byte; every chunk is 24 of them
and `IDLE`; a frame is 16 chunks of 25. -/
def Obligations.EncodedShape : Prop :=
  (∀ (c : Cfg) (b : Byte) (mult : Word), (encodeByte c b mult).length = 8 ∧
    (∀ i, i < 8 → (encodeByte c b mult)[i]? =
      some (if (correct b mult).getLsbD (7 - i) = true then oneWord c else zeroWord c))) ∧
  (∀ (c : Cfg) (bytes : List Byte), (encodeFrame c bytes).length = 16 ∧
    ∀ ch ∈ encodeFrame c bytes, ch.length = 25 ∧ ch[24]? = some 0x00000000#32 ∧
      ∀ i, i < 24 → ch[i]? = some (zeroWord c) ∨ ch[i]? = some (oneWord c))

/-- R149 with R145 and R146: chunk `p` is green, red, blue of pixel `p`, each with its own channel's multiplier, then `IDLE`;
an all-zero snapshot gives 16 chunks of 24 `ZERO` and `IDLE` under every valid configuration. -/
def Obligations.FrameEncodesPixelByPixel : Prop :=
  (∀ (c : Cfg) (bytes : List Byte), (encodeFrame c bytes).length = 16) ∧
  (∀ (c : Cfg) (bytes : List Byte) (p : Nat), p < 16 → (encodeFrame c bytes)[p]? =
    some (encodeByte c (bytes.getD (3 * p) 0) c.corrGreen ++ encodeByte c (bytes.getD (3 * p + 1) 0) c.corrRed ++
      encodeByte c (bytes.getD (3 * p + 2) 0) c.corrBlue ++ [0x00000000#32])) ∧
  (∀ c : Cfg, cfgValid c = true → encodeFrame c (List.replicate 48 0) =
    List.replicate 16 (List.replicate 24 (zeroWord c) ++ [0x00000000#32]))

/-- R151: decoding what was encoded gives the corrected bytes, when `ZERO` and `ONE` differ; the bytes themselves when the
multiplier is 1. -/
def Obligations.DecodedChunkIsCorrectedPixel : Prop :=
  ∀ c : Cfg, zeroWord c ≠ oneWord c →
    (∀ (b : Byte) (mult : Word), decodeByte c (encodeByte c b mult) = some (correct b mult)) ∧
    (∀ b : Byte, decodeByte c (encodeByte c b 0x3F800000) = some b) ∧
    (∀ q0 q1 q2 : Byte, decodeChunk c (encodePixel c q0 q1 q2) =
      some (correct q0 c.corrGreen, correct q1 c.corrRed, correct q2 c.corrBlue))

/-- R194 and R283: the waveform of an encoded chunk has 48 segments, segment `2j` high and `2j+1` low for the ticks of
descriptor `j`, and lasts the sum of its 24 descriptors' ticks. -/
def Obligations.ChunkWaveform : Prop :=
  ∀ (c : Cfg) (q0 q1 q2 : Byte), cfgValid c = true →
    (wave (encodePixel c q0 q1 q2)).length = 48 ∧
    (∀ j, j < 24 → ∀ d, (encodePixel c q0 q1 q2)[j]? = some d →
      (wave (encodePixel c q0 q1 q2))[2 * j]? = some (.seg 1 (unpackDesc d).highTicks.toNat) ∧
      (wave (encodePixel c q0 q1 q2))[2 * j + 1]? = some (.seg 0 (unpackDesc d).lowTicks.toNat)) ∧
    ∃ n1, n1 ≤ 24 ∧ ((encodePixel c q0 q1 q2).filter (fun d => d = oneWord c)).length = n1 ∧
      waveTicks (wave (encodePixel c q0 q1 q2)) =
        n1 * (c.oneHigh.toNat + c.oneLow.toNat) + (24 - n1) * (c.zeroHigh.toNat + c.zeroLow.toNat)

/-- R143: the two rows answer `ZERO` and `ONE` of the configuration, high then low, in the model's own output field (log entry
15), and touch nothing else. -/
def Obligations.BitSelectsPulse : Prop :=
  ∀ s : State,
    exec .bit2pulseZero s = .next { s with encOut := packDesc ⟨s.cfg.zeroHigh, 1, s.cfg.zeroLow, 0⟩ } ∧
    exec .bit2pulseOne s = .next { s with encOut := packDesc ⟨s.cfg.oneHigh, 1, s.cfg.oneLow, 0⟩ }

/-! ### The host-port commands -/

/-- R111: `SET_PIXEL`, step 2 when step 1 has been done, else the index check, step 1 when the guard is free, the stall when it
is not; every word with `op = 0b001` is one. -/
def Obligations.SetPixelCommand : Prop :=
  (∀ w : Word, w.extractLsb' 29 3 = 0b001#3 →
    decodeCmd w = .instr (.setPixel (w.extractLsb' 24 5).toNat (w.extractLsb' 16 8) (w.extractLsb' 8 8)
      (w.extractLsb' 0 8))) ∧
  ∀ (s : State) (idx : Nat) (r g b : Byte),
    ((s.port s.me).nowed = true → ∃ t, exec (.setPixel idx r g b) s = .next t ∧ NotifiedOnly s t) ∧
    ((s.port s.me).nowed = false → 16 ≤ idx →
      ∃ t, exec (.setPixel idx r g b) s = .next t ∧ AnsweredOnly s t 0x40000000) ∧
    ((s.port s.me).nowed = false → idx < 16 → s.guard = none →
      ∃ t, exec (.setPixel idx r g b) s = .next t ∧ PixelWritten s t idx r g b ∧
        MyPortIs s t { (s.port s.me) with nowed := true } ∧ t = { s with frame := t.frame, ports := t.ports }) ∧
    ((s.port s.me).nowed = false → idx < 16 → s.guard ≠ none → exec (.setPixel idx r g b) s = .next s)

/-- R112: `FB_OPEN` takes a free guard and answers `Ok`; it stalls while anyone holds it; a word with unused bits set is no
`FB_OPEN`. While the guard is held, `SET_PIXEL` and `SEQ_SNAPSHOT` are stalled too. -/
def Obligations.OpenCommand : Prop :=
  (∀ s : State, (s.port s.me).nowed = false →
    (s.guard = none → ∃ t, exec .fbOpen s = .next t ∧
      MyPortIs s t { (s.port s.me) with cmd := none, rsp := some 0x00000000 } ∧
      t = { s with guard := some (.requester s.me), ports := t.ports }) ∧
    (s.guard ≠ none → exec .fbOpen s = .next s ∧ exec .seqSnapshot s = .next s ∧
      ∀ idx r g b, idx < 16 → exec (.setPixel idx r g b) s = .next s)) ∧
  (∀ w : Word, w.extractLsb' 29 3 = 0b010#3 → w.extractLsb' 0 29 ≠ 0 → ∃ why, decodeCmd w = .rejected why)

/-- R113: `FB_WRITE` in its own window writes one pixel and answers `Ok`; without the guard `IllegalCommand`; past the last
pixel `IndexOutOfRange`; it never stalls and never notifies. -/
def Obligations.WindowWriteCommand : Prop :=
  ∀ (s : State) (idx : Nat) (r g b : Byte), (s.port s.me).nowed = false →
    (s.guard ≠ some (.requester s.me) →
      ∃ t, exec (.fbWrite idx r g b) s = .next t ∧ AnsweredOnly s t 0x80000000) ∧
    (s.guard = some (.requester s.me) → 16 ≤ idx →
      ∃ t, exec (.fbWrite idx r g b) s = .next t ∧ AnsweredOnly s t 0x40000000) ∧
    (s.guard = some (.requester s.me) → idx < 16 →
      ∃ t, exec (.fbWrite idx r g b) s = .next t ∧ PixelWritten s t idx r g b ∧
        MyPortIs s t { (s.port s.me) with cmd := none, rsp := some 0x00000000 } ∧
        t = { s with frame := t.frame, ports := t.ports })

/-- R114: `FB_READ` in its own window answers the stored pixel as `0x00RRGGBB` and changes nothing else; without the guard
`IllegalCommand`, past the last pixel `IndexOutOfRange`; a word with any of bits 23:0 set is no `FB_READ`. -/
def Obligations.WindowReadCommand : Prop :=
  (∀ (s : State) (idx : Nat), (s.port s.me).nowed = false →
    (s.guard ≠ some (.requester s.me) → ∃ t, exec (.fbRead idx) s = .next t ∧ AnsweredOnly s t 0x80000000) ∧
    (s.guard = some (.requester s.me) → 16 ≤ idx →
      ∃ t, exec (.fbRead idx) s = .next t ∧ AnsweredOnly s t 0x40000000) ∧
    (s.guard = some (.requester s.me) → idx < 16 →
      ∃ t, exec (.fbRead idx) s = .next t ∧
        AnsweredOnly s t (BitVec.ofNat 32 ((s.x (3 * idx + 1)).toNat * 65536 + (s.x (3 * idx)).toNat * 256 +
          (s.x (3 * idx + 2)).toNat)))) ∧
  (∀ w : Word, w.extractLsb' 29 3 = 0b100#3 → w.extractLsb' 0 24 ≠ 0 → ∃ why, decodeCmd w = .rejected why)

/-- R115: `FB_CLOSE` step 1 frees the guard and owes the notification, step 2 notifies and answers `Ok`; without the guard
`IllegalCommand`; a word with unused bits set is no `FB_CLOSE`. -/
def Obligations.CloseCommand : Prop :=
  (∀ s : State,
    ((s.port s.me).nowed = true → ∃ t, exec .fbClose s = .next t ∧ NotifiedOnly s t) ∧
    ((s.port s.me).nowed = false → s.guard ≠ some (.requester s.me) →
      ∃ t, exec .fbClose s = .next t ∧ AnsweredOnly s t 0x80000000) ∧
    ((s.port s.me).nowed = false → s.guard = some (.requester s.me) →
      ∃ t, exec .fbClose s = .next t ∧ MyPortIs s t { (s.port s.me) with nowed := true } ∧
        t = { s with guard := none, ports := t.ports })) ∧
  (∀ w : Word, w.extractLsb' 29 3 = 0b101#3 → w.extractLsb' 0 29 ≠ 0 → ∃ why, decodeCmd w = .rejected why)

/-- R34: while `NOWED[me] = 1` a requester can do nothing but step 2 of its mutating command. -/
def Obligations.OwingRequesterOnlyNotifies : Prop :=
  ∀ (s : State) (i : Instr), isCommand i = true → (s.port s.me).nowed = true →
    exec i s = .next s ∨ ∃ t, exec i s = .next t ∧ NotifiedOnly s t

/-- R227 at the port: a word that decodes to nothing is answered `IllegalCommand` and changes nothing; the port is as R110
leaves it. -/
def Obligations.IllegalWordIsAnswered : Prop :=
  ∀ (s : State) (r : Nat) (w : Word) (rest : List Move) (why : Reject),
    s.held = false → s.sched = .requester r w :: rest → r < s.nReq → (s.port r).cmd = none →
    decodeCmd w = .rejected why →
    ∃ t, step s = .next t ∧ t.port r = { (s.port r) with cmd := none, rsp := some 0x80000000 } ∧
      (∀ q, q ≠ r → t.port q = s.port q) ∧ t = { s with sched := rest, me := r, ports := t.ports }

/-- R60, U4: a holder that issues `SET_PIXEL` or `FB_OPEN` inside its own window stalls: its move changes nothing but the port's
record of the outstanding command. That presenting the word clears the port's last response is log entry 4, the model's choice,
as is that `me` names the port (log entry 3). -/
def Obligations.HolderStallsItself : Prop :=
  ∀ (s : State) (r : Nat) (w : Word) (rest : List Move) (idx : Nat) (cr cg cb : Byte),
    s.held = false → s.sched = .requester r w :: rest → r < s.nReq → s.guard = some (.requester r) →
    (s.port r).nowed = false → idx < 16 →
    (decodeCmd (s.cmdOf r w) = .instr (.setPixel idx cr cg cb) ∨ decodeCmd (s.cmdOf r w) = .instr .fbOpen) →
    ∃ t, step s = .next t ∧ t.port r = { (s.port r) with cmd := some (s.cmdOf r w), rsp := none } ∧
      (∀ q, q ≠ r → t.port q = s.port q) ∧ t = { s with sched := rest, me := r, ports := t.ports }

/-- R118 on the store: writes of different pixels commute, and of two writes of one pixel the later one stands. -/
def Obligations.PixelWritesDoNotMix : Prop :=
  ∀ (s : State) (p q : Nat) (a b : List Byte), Memory.wf frameDefault 48 s.frame → p < 16 → q < 16 →
    a.length = 3 → b.length = 3 →
    (p ≠ q → writePixel p a (writePixel q b s) = writePixel q b (writePixel p a s)) ∧
    writePixel p a (writePixel p b s) = writePixel p a s

/-! ### The sequencer -/

/-- R161: `SEQ_WAKE` consumes `PENDING` and goes to `Snapshotting`, keeping `K`; otherwise it waits. -/
def Obligations.WakeStep : Prop :=
  ∀ s : State,
    (s.seqState = .waitingForChange → s.pending = true →
      exec .seqWake s = .next { s with pending := false, seqState := .snapshotting }) ∧
    (¬(s.seqState = .waitingForChange ∧ s.pending = true) → exec .seqWake s = .next s)

/-- R162: `SEQ_SNAPSHOT` copies all 48 bytes of the frame; the guard is free before and after; otherwise it waits. -/
def Obligations.SnapshotStep : Prop :=
  ∀ s : State,
    (s.seqState = .snapshotting → s.guard = none →
      ∃ t, exec .seqSnapshot s = .next t ∧
        (∀ i, i < 48 → cellsRead unwritten t.snap i = some (s.x i)) ∧
        t.snapBytes = some ((List.range 48).map s.x) ∧ t = { s with snap := t.snap, seqState := .encoding }) ∧
    (¬(s.seqState = .snapshotting ∧ s.guard = none) → exec .seqSnapshot s = .next s)

/-- R163: `SEQ_ENCODE` rewrites all 16 chunks from the snapshot and goes to `(Transmitting, 0)`. -/
def Obligations.EncodeStep : Prop :=
  ∀ s : State,
    (∀ bytes, s.seqState = .encoding → s.snapBytes = some bytes →
      ∃ t, exec .seqEncode s = .next t ∧ (∀ p, p < 16 → t.chunk p = (encodeFrame s.cfg bytes)[p]?) ∧
        (∀ a, 400 ≤ a → cellsRead unwritten t.staging a = cellsRead unwritten s.staging a) ∧
        t = { s with staging := t.staging, seqState := .transmitting, k := 0 }) ∧
    (s.seqState ≠ .encoding → exec .seqEncode s = .next s)

/-- R164 and R193: `SEQ_SUBMIT` performs `TX_ACCEPT(ST[K])`: `TXBUF[0..24]` holds the 25 descriptors of `ST[K]`, the rest of the
buffer stays, and `TXS` is `Busy`. `TX_ACCEPT`, its transmitter's half, does this for the chunk presented to it, and nothing
where none is. That the presented chunk stands in a field of its own, which the submission leaves empty, is log entry 16, and
that the play position of the new chunk is 0 log entry 13, the model's choices. -/
def Obligations.SubmitStep : Prop :=
  ∀ s : State,
    (∀ c, s.seqState = .transmitting → s.txs = .idle → s.chunk s.k.toNat = some c →
      ∃ t, exec .seqSubmit s = .next t ∧ exec .txAccept { s with offer := some c } = .next t ∧ t.txChunk = some c ∧
        (∀ a, 25 ≤ a → cellsRead unwritten t.txbuf a = cellsRead unwritten s.txbuf a) ∧
        t = { s with txbuf := t.txbuf, txs := .busy, play := 0, offer := none }) ∧
    (¬(s.seqState = .transmitting ∧ s.txs = .idle) → exec .seqSubmit s = .next s) ∧
    (∀ c, s.txs = .idle → s.offer = some c → c.length = 25 →
      ∃ t, exec .txAccept s = .next t ∧ t.txChunk = some c ∧
        (∀ a, 25 ≤ a → cellsRead unwritten t.txbuf a = cellsRead unwritten s.txbuf a) ∧
        t = { s with txbuf := t.txbuf, txs := .busy, play := 0, offer := none }) ∧
    (s.txs ≠ .idle ∨ s.offer = none → exec .txAccept s = .next s)

/-- R166: `SEQ_NEXT` logs chunk `K` as `Ok`, frees the transmitter port and goes on to chunk `K + 1`. -/
def Obligations.NextChunkStep : Prop :=
  ∀ s : State,
    (∀ c, s.seqState = .transmitting → s.txs = .doneOk → s.k.toNat < 15 → s.chunk s.k.toNat = some c →
      ∃ t, exec .seqNext s = .next t ∧ t.k.toNat = s.k.toNat + 1 ∧
        t = { s with txlog := s.txlog ++ [⟨s.k, c, .ok⟩], txs := .idle, k := t.k }) ∧
    (¬(s.seqState = .transmitting ∧ s.txs = .doneOk ∧ s.k.toNat < 15) → exec .seqNext s = .next s)

/-- R167: `SEQ_LAST` logs chunk 15 as `Ok`, frees the transmitter port, starts the gap timer and enters `ResetDelay`. -/
def Obligations.LastChunkStep : Prop :=
  ∀ s : State,
    (∀ c, s.seqState = .transmitting → s.txs = .doneOk → s.k.toNat = 15 → s.chunk 15 = some c →
      exec .seqLast s = .next { s with txlog := s.txlog ++ [⟨15, c, .ok⟩], txs := .idle, gapt := some 0,
                                       seqState := .resetDelay }) ∧
    (¬(s.seqState = .transmitting ∧ s.txs = .doneOk ∧ s.k.toNat = 15) → exec .seqLast s = .next s)

/-- R168 with R228 and R235: `SEQ_FAULT` logs chunk `K` as `Err`, sets `FAULT`, `FAULT_CHUNK` and `FAULTLOG`, frees the
transmitter port, starts the gap timer and enters `ResetDelay`; `F`, `GUARD`, `PENDING`, `NOWED`, `cfg`, `S` and `ST` stay. -/
def Obligations.FaultStep : Prop :=
  ∀ s : State,
    (∀ c, s.seqState = .transmitting → s.txs = .doneErr → s.chunk s.k.toNat = some c →
      exec .seqFault s = .next { s with txlog := s.txlog ++ [⟨s.k, c, .err⟩], fault := true, faultChunk := s.k,
                                        faultlog := s.faultlog ++ [s.k], txs := .idle, gapt := some 0,
                                        seqState := .resetDelay }) ∧
    (¬(s.seqState = .transmitting ∧ s.txs = .doneErr) → exec .seqFault s = .next s)

/-- R169: `SEQ_GAP_DONE` waits until `GAPT >= RESET_DELAY_US`, then marks the gap on the line and returns to
`WaitingForChange`. That the timer stops there is R232's "leaving the state" (log entry 12). -/
def Obligations.GapDoneStep : Prop :=
  ∀ s : State,
    (∀ us, s.seqState = .resetDelay → s.gapt = some us → s.cfg.resetDelayUs.toNat ≤ us →
      exec .seqGapDone s = .next { s with linelog := s.linelog ++ [.gap s.cfg.resetDelayUs.toNat], gapt := none,
                                          seqState := .waitingForChange }) ∧
    (∀ us, s.gapt = some us → us < s.cfg.resetDelayUs.toNat → exec .seqGapDone s = .next s) ∧
    (s.seqState ≠ .resetDelay → exec .seqGapDone s = .next s)

/-! ### The transmitter -/

/-- R195: `TX_OK` puts the whole waveform on the line's log, leaves the line low and reports `DoneOk`, however far the line has
been driven before it. That the play position, a field of the model's, then is 0 is log entry 13, the model's choice. -/
def Obligations.CompletionOkStep : Prop :=
  ∀ s : State,
    (∀ ds, s.txs = .busy → s.txChunk = some ds →
      exec .txOk s = .next { s with linelog := s.linelog ++ wave ds, line := 0, play := 0, txs := .doneOk }) ∧
    (s.txs ≠ .busy → exec .txOk s = .next s)

/-- R196: `TX_ERR` puts some prefix of the waveform on the line's log, its last segment possibly shortened, leaves the line low
and reports `DoneErr`. R196 leaves the prefix and its shortening to the model: that two draws choose them, `drawSegs` the number
of segments and `drawCut` the shortening, 0 for none, and that no segment the line has been driven to is missing from the prefix,
is log entry 14, the model's choice, and that the play position then is 0 is log entry 13; the statement holds for every value of
the draws, and every prefix is drawn by some value before the line has been driven. -/
def Obligations.CompletionErrStep : Prop :=
  ∀ s : State,
    (∀ ds, s.txs = .busy → s.txChunk = some ds →
      ∃ t, exec .txErr s = .next t ∧ t = { s with linelog := t.linelog, line := 0, play := 0, txs := .doneErr } ∧
        ∃ out, t.linelog = s.linelog ++ out ∧ out.length = min (max s.play s.drawSegs) (wave ds).length ∧
          (∀ j, j + 1 < out.length → out[j]? = (wave ds)[j]?) ∧
          (∀ j l ticks, j + 1 = out.length → (wave ds)[j]? = some (.seg l ticks) →
            ∃ short, out[j]? = some (.seg l short) ∧ short ≤ ticks ∧ (s.drawCut = 0 → short = ticks))) ∧
    (s.txs ≠ .busy → exec .txErr s = .next s)

/-- R38: before its first write, a read of `S`, `ST` or `TXBUF` is a fault of the model; after reset nothing of them has been
written (log entry 8). `SEQ_NEXT`, `SEQ_LAST` and `SEQ_FAULT` read `ST[K]` to log it (log entry 22); a play that drives the line
reads `TXBUF` (log entry 13). -/
def Obligations.UnwrittenReadsAreFaults : Prop :=
  (∀ (s : State) (words : CfgWords) (rest : List Move), s.sched = .reset words :: rest →
    ∃ t, step s = .next t ∧ ∀ a, cellsRead unwritten t.snap a = none ∧ cellsRead unwritten t.staging a = none ∧
      cellsRead unwritten t.txbuf a = none) ∧
  ∀ s : State,
    (s.seqState = .encoding → s.snapBytes = none → exec .seqEncode s = .fault .unwrittenSnapshot) ∧
    (s.seqState = .transmitting → s.txs = .idle → s.chunk s.k.toNat = none →
      exec .seqSubmit s = .fault .unwrittenStaging) ∧
    (s.seqState = .transmitting → s.txs = .doneOk → s.chunk s.k.toNat = none →
      (s.k.toNat < 15 → exec .seqNext s = .fault .unwrittenStaging) ∧
      (s.k.toNat = 15 → exec .seqLast s = .fault .unwrittenStaging)) ∧
    (s.seqState = .transmitting → s.txs = .doneErr → s.chunk s.k.toNat = none →
      exec .seqFault s = .fault .unwrittenStaging) ∧
    (s.txs = .busy → s.txChunk = none →
      exec .txOk s = .fault .unwrittenTxBuf ∧ exec .txErr s = .fault .unwrittenTxBuf ∧
      ∀ rest, s.held = false → s.sched = .drive :: rest → step s = .fault .unwrittenTxBuf)

/-! ### A step -/

/-- A step runs the decoded instruction: of the command at a port (R110), of the sequencer (R97), of the transmitter (R98), of a
data bit (R143). Around it stand the taking of the move, and for a command the port's record. The moves themselves are log entry
1; that presenting a word clears the port's last response is log entry 4, that the transmitter's half of a submission is a move
enabled by a presented chunk log entry 16, and the draws of a completion log entry 14: the model's choices. -/
def Obligations.StepRunsDecodedInstruction : Prop :=
  ∀ (s : State) (rest : List Move) (i : Instr), s.held = false →
    (∀ r w, s.sched = .requester r w :: rest → r < s.nReq → decodeCmd (s.cmdOf r w) = .instr i →
      ∃ u, step s = exec i u ∧ u.port r = { (s.port r) with cmd := some (s.cmdOf r w), rsp := none } ∧
        (∀ q, q ≠ r → u.port q = s.port q) ∧ u = { s with sched := rest, me := r, ports := u.ports }) ∧
    (s.sched = .sequencer :: rest → decode (.seq s.seqView) = .instr i → step s = exec i { s with sched := rest }) ∧
    (s.sched = .txAccept :: rest → decode (.accept s.seqView s.offer.isSome) = .instr i →
      step s = exec i { s with sched := rest }) ∧
    (∀ txr segs cut, s.sched = .transmitter txr segs cut :: rest → decode (.completion s.txs txr) = .instr i →
      step s = exec i { s with sched := rest, drawSegs := segs, drawCut := cut }) ∧
    (∀ b, s.sched = .encoder b :: rest → decode (.bit b) = .instr i → step s = exec i { s with sched := rest })

/-- With no scheduled move the environment's own comes next (log entry 1). -/
def Obligations.FreeEnvironmentMoves : Prop :=
  ∀ s : State, s.sched = [] →
    step s = step { s with sched := [Config.environment s.turn], turn := s.turn + 1 }

/-- An agent without an enabled step is stalled: scheduling it changes nothing (R97, log entry 2). -/
def Obligations.StalledAgentsChangeNothing : Prop :=
  ∀ (s : State) (rest : List Move) (why : Reject), s.held = false →
    (s.sched = .sequencer :: rest → decode (.seq s.seqView) = .rejected why → step s = .next { s with sched := rest }) ∧
    (s.sched = .txAccept :: rest → decode (.accept s.seqView s.offer.isSome) = .rejected why →
      step s = .next { s with sched := rest }) ∧
    (∀ r w, s.sched = .requester r w :: rest → s.nReq ≤ r → step s = .next { s with sched := rest })

/-- R260, R261, R38: reset with a valid configuration, from any state, gives every element its reset value and latches the
configuration. That a port has no response after reset is log entry 4, and that the number of requesters and the scheduled moves
go on is log entries 6 and 26: the model's choices. -/
def Obligations.ResetGivesResetValues : Prop :=
  ∀ (s : State) (words : CfgWords) (rest : List Move), s.sched = .reset words :: rest → cfgWordsValid words = true →
    ∃ t, step s = .next t ∧ (∀ a, t.x a = 0x00) ∧ t.pending = false ∧ t.guard = none ∧
      t.seqState = .waitingForChange ∧ t.k = 0 ∧ t.fault = false ∧ t.faultChunk = 0 ∧ t.line = 0 ∧ t.txs = .idle ∧
      (∀ r, t.port r = ⟨none, none, false⟩) ∧ t.gapt = none ∧ t.txlog = [] ∧ t.linelog = [] ∧ t.faultlog = [] ∧
      t.cfg = unpackCfg words ∧ t.held = false ∧ t.nReq = s.nReq ∧ t.sched = rest

/-- R213, R229: an invalid configuration keeps the block in reset: the line is low, the control registers are not written, and
every later move but a reset is refused. -/
def Obligations.InvalidConfigurationHoldsReset : Prop :=
  (∀ (s : State) (words : CfgWords) (rest : List Move), s.sched = .reset words :: rest →
    cfgWordsValid words = false →
    ∃ t, step s = .next t ∧ t.held = true ∧ t.line = 0 ∧ t.txs = .idle ∧ t.pending = false ∧
      t.seqState = .waitingForChange ∧ t.cfg = s.cfg) ∧
  (∀ (s : State) (m : Move) (rest : List Move), s.held = true → s.sched = m :: rest → isReset m = false →
    step s = .refused .configInvalid)

/-- Time passing is counted by a running timer and by nothing else. R35 and R169 compare `GAPT` with microseconds and give it no
width and no resolution: that it counts the whole microseconds an elapse move adds is log entry 12, the model's choice. -/
def Obligations.TimerCountsElapsedTime : Prop :=
  ∀ (s : State) (us : Nat) (rest : List Move), s.held = false → s.sched = .elapse us :: rest →
    (∀ t0, s.gapt = some t0 → step s = .next { s with sched := rest, gapt := some (t0 + us) }) ∧
    (s.gapt = none → step s = .next { s with sched := rest })

/-! ### Rules of the whole machine -/

/-- R170: `(STATE, K)` changes only as the transition table says, by the sequencer's own steps, and reset gives
`(WaitingForChange, 0)`. -/
def Obligations.ControlTransferTable : Prop :=
  (∀ (i : Instr) (s t : State), exec i s = .next t →
    (t.seqState = s.seqState ∧ t.k = s.k) ∨
    (i = .seqWake ∧ s.seqState = .waitingForChange ∧ t.seqState = .snapshotting ∧ t.k = s.k) ∨
    (i = .seqSnapshot ∧ s.seqState = .snapshotting ∧ t.seqState = .encoding ∧ t.k = s.k) ∨
    (i = .seqEncode ∧ s.seqState = .encoding ∧ t.seqState = .transmitting ∧ t.k = 0) ∨
    (i = .seqNext ∧ s.seqState = .transmitting ∧ s.k.toNat < 15 ∧ t.seqState = .transmitting ∧
      t.k.toNat = s.k.toNat + 1) ∨
    (i = .seqLast ∧ s.seqState = .transmitting ∧ s.k = 15 ∧ t.seqState = .resetDelay ∧ t.k = 15) ∨
    (i = .seqFault ∧ s.seqState = .transmitting ∧ t.seqState = .resetDelay ∧ t.k = s.k) ∨
    (i = .seqGapDone ∧ s.seqState = .resetDelay ∧ t.seqState = .waitingForChange ∧ t.k = s.k)) ∧
  (∀ (s t : State), step s = .next t → isReset (nextMove s) = true → t.seqState = .waitingForChange ∧ t.k = 0) ∧
  (∀ (s t : State), step s = .next t → isReset (nextMove s) = false → nextMove s ≠ .sequencer →
    t.seqState = s.seqState ∧ t.k = s.k)

/-- R135: nothing but the sequencer's wake in `WaitingForChange`, and reset, takes a pending notification away. -/
def Obligations.NotificationIsNeverDropped : Prop :=
  ∀ s t : State, step s = .next t → s.pending = true → isReset (nextMove s) = false →
    t.pending = true ∨
      (nextMove s = .sequencer ∧ s.seqState = .waitingForChange ∧ t.seqState = .snapshotting)

/-- R23, R117, R240: `PENDING` rises only by step 2 of `SET_PIXEL` or `FB_CLOSE`, of a requester that owes the notification. -/
def Obligations.OnlyOwedCommandsNotify : Prop :=
  ∀ (i : Instr) (s t : State), exec i s = .next t → s.pending = false → t.pending = true →
    (s.port s.me).nowed = true ∧ ((∃ idx r g b, i = .setPixel idx r g b) ∨ i = .fbClose)

/-- R22, R60: the frame store changes only by `SET_PIXEL` with the guard free, which takes it, or by `FB_WRITE` of the guard's
holder; and then only inside one pixel. -/
def Obligations.FrameWrittenOnlyUnderGuard : Prop :=
  ∀ (i : Instr) (s t : State), exec i s = .next t → t.frame ≠ s.frame →
    ∃ idx r g b, idx < 16 ∧ PixelWritten s t idx r g b ∧
      ((i = .setPixel idx r g b ∧ s.guard = none) ∨ (i = .fbWrite idx r g b ∧ s.guard = some (.requester s.me)))

/-- R116 (a): while requester `r` holds the guard, no move of another agent changes the guard, the frame store or the
snapshot. -/
def Obligations.WindowExcludesOtherAgents : Prop :=
  ∀ (s t : State) (r : Nat), step s = .next t → s.guard = some (.requester r) → isReset (nextMove s) = false →
    (∀ w, nextMove s ≠ .requester r w) →
    t.guard = s.guard ∧ t.frame = s.frame ∧ t.snap = s.snap

/-- R240: what each kind of agent may not touch. Requesters: everything of the sequencer's and the transmitter's, the
configuration and the fault port. The sequencer: the frame store, the ports, the line and the guard as others see it. The
transmitter and the encoder: everything but the handshake, the buffer and the line. R176: between steps no chunk is presented
(log entry 16), so a step changes `TXS` only by the sequencer's submission, by the transmitter's completion and by the
sequencer's consuming it. -/
def Obligations.RolesOfAgents : Prop :=
  (∀ s t : State, step s = .next t → isReset (nextMove s) = false → s.offer = none →
    t.offer = none ∧
    (t.txs = s.txs ∨
      (nextMove s = .sequencer ∧ s.seqState = .transmitting ∧ s.txs = .idle ∧ t.txs = .busy ∧
        t.txChunk = s.chunk s.k.toNat) ∨
      (s.txs = .busy ∧ ∃ txr segs cut, nextMove s = .transmitter txr segs cut ∧
        (txr = 0 ∧ t.txs = .doneOk ∨ txr = 1 ∧ t.txs = .doneErr)) ∨
      (nextMove s = .sequencer ∧ s.seqState = .transmitting ∧ (s.txs = .doneOk ∨ s.txs = .doneErr) ∧ t.txs = .idle))) ∧
  ∀ (i : Instr) (s t : State), exec i s = .next t →
    (isCommand i = true → t.seqState = s.seqState ∧ t.k = s.k ∧ t.snap = s.snap ∧ t.staging = s.staging ∧
      t.gapt = s.gapt ∧ t.txs = s.txs ∧ t.txbuf = s.txbuf ∧ t.line = s.line ∧ t.fault = s.fault ∧
      t.faultChunk = s.faultChunk ∧ t.cfg = s.cfg ∧ t.txlog = s.txlog ∧ t.linelog = s.linelog ∧
      t.faultlog = s.faultlog ∧ t.offer = s.offer ∧ t.play = s.play ∧ ∀ r, r ≠ s.me → t.port r = s.port r) ∧
    (isSequencerStep i = true → t.frame = s.frame ∧ t.ports = s.ports ∧ t.guard = s.guard ∧ t.line = s.line ∧
      t.cfg = s.cfg ∧ (t.pending = true → s.pending = true)) ∧
    (isCommand i = false → isSequencerStep i = false → t.frame = s.frame ∧ t.guard = s.guard ∧
      t.pending = s.pending ∧ t.ports = s.ports ∧ t.seqState = s.seqState ∧ t.k = s.k ∧ t.snap = s.snap ∧
      t.staging = s.staging ∧ t.gapt = s.gapt ∧ t.fault = s.fault ∧ t.faultChunk = s.faultChunk ∧ t.cfg = s.cfg ∧
      t.txlog = s.txlog ∧ t.faultlog = s.faultlog)

/-- R238: `FAULT` is sticky: no step but reset clears it, and it rises only with a `FAULTLOG` entry that `FAULT_CHUNK` repeats. -/
def Obligations.FaultIsSticky : Prop :=
  ∀ s t : State, step s = .next t → isReset (nextMove s) = false →
    (s.fault = true → t.fault = true) ∧
    (t.faultlog = s.faultlog ∧ t.fault = s.fault ∧ t.faultChunk = s.faultChunk ∨
      t.faultlog = s.faultlog ++ [t.faultChunk] ∧ t.fault = true ∧ t.faultChunk = s.k ∧ nextMove s = .sequencer)

/-- R214: after `CFG_LATCH` no step but reset writes a control register. -/
def Obligations.ConfigurationIsReadOnly : Prop :=
  ∀ s t : State, step s = .next t → isReset (nextMove s) = false → t.cfg = s.cfg ∧ t.nReq = s.nReq

/-- R197: whenever `TXS` is not `Busy` the line is low, kept by every step from every state. -/
def Obligations.LineIsLowUnlessBusy : Prop :=
  ∀ s t : State, (s.txs ≠ .busy → s.line = 0) → step s = .next t → (t.txs ≠ .busy → t.line = 0)

/-- The histories only grow, except at reset (R36: "append-only"). -/
def Obligations.HistoriesOnlyGrow : Prop :=
  ∀ s t : State, step s = .next t → isReset (nextMove s) = false →
    s.txlog <+: t.txlog ∧ s.linelog <+: t.linelog ∧ s.faultlog <+: t.faultlog

/-! ### The invariant, and headline results -/

/-- The invariant holds right after reset. -/
def Obligations.ResetMeetsInvariant : Prop := StateInv State.reset

/-- Every step keeps the invariant, whatever the environment does. -/
def Obligations.StepKeepsInvariant : Prop :=
  ∀ s t : State, StateInv s → step s = .next t → StateInv t

/-- From a state that meets the invariant no step stops with a fault: every read finds what a rule has written (R30, R31, R33,
R38), and the only refusal is that of a block held in reset by an invalid configuration. -/
def Obligations.InvariantStatesNeverFault : Prop :=
  ∀ s : State, StateInv s → SafeOutcome s (step s)

/-- The transmitter's log always splits into passes, each of one consistent snapshot. R172 derives it itself, from R162, R163 and
R164: "within one pass the entries have `k = 0, 1, 2, ...` consecutive, and there is one 48-byte value `s` (the `S` of that pass)
such that every entry's chunk equals `ENCODE_FRAME(s)[k]`"; here `s` is some 48 bytes. -/
def Obligations.TransmissionsComeFromOneSnapshot : Prop :=
  ∀ s t : State, StateInv s → step s = .next t → SingleSnapshot t.cfg t.txlog

/-- R174 with R200, of every render pass, whatever moves of other agents come between: when the sequencer leaves `ResetDelay`
after a pass whose completions were all `Ok` (`TXLOG` ends with an `Ok`), the last pass of `TXLOG` is exactly the 16 chunks of
the encoding of `S`, in order, and `LINELOG` has their 16 waveforms and one gap since the gap before. And of the uninterrupted
pass, move by move: 53 steps from a state about to wake append exactly this for the frame, and end in `WaitingForChange`. -/
def Obligations.FullPassLaw : Prop :=
  (∀ s t : State, StateInv s → step s = .next t → isReset (nextMove s) = false →
    s.seqState = .resetDelay → t.seqState = .waitingForChange → (∀ e, t.txlog.getLast? = some e → e.result = .ok) →
    t.k = 15 ∧ ∃ bytes, t.snapBytes = some bytes ∧ bytes.length = 48 ∧
      EndsFullPass t.cfg bytes t.txlog t.linelog [.gap t.cfg.resetDelayUs.toNat]) ∧
  ∀ (s : State) (rest : List Move), AboutToWake s →
    s.sched = passMoves 16 [] s.cfg.resetDelayUs.toNat ++ rest →
    ∃ t, runSteps 53 s = .next t ∧
      t.txlog = s.txlog ++ okEntries s.cfg s.frameBytes 16 ∧
      t.linelog = s.linelog ++ okWaves s.cfg s.frameBytes 16 ++ [.gap s.cfg.resetDelayUs.toNat] ∧
      t.seqState = .waitingForChange ∧ t.k = 15 ∧ t.pending = false ∧ t.txs = .idle ∧ t.guard = none ∧
      t.fault = s.fault ∧ t.faultlog = s.faultlog ∧ t.frame = s.frame ∧ t.ports = s.ports ∧ t.sched = rest

/-- R175 with R168, of every render pass, whatever moves of other agents come between: when the sequencer leaves `ResetDelay`
after a pass that failed (`TXLOG` ends with an `Err`), that pass is `f` chunks `Ok` and chunk `f`, `Err`, of the encoding of `S`,
chunks after `f` were never submitted, `FAULT` is 1, `FAULT_CHUNK` and the last `FAULTLOG` entry are `f`, and `LINELOG` has the
`f` waveforms, some prefix of the next and one gap since the gap before. And of the uninterrupted pass, move by move: `3f + 8`
steps from a state about to wake append exactly this for the frame. The prefix by the draws `segs` and `cut` is log entry 14, the
model's choice. -/
def Obligations.FaultedPassLaw : Prop :=
  (∀ (s t : State) (e : TxEntry), StateInv s → step s = .next t → isReset (nextMove s) = false →
    s.seqState = .resetDelay → t.seqState = .waitingForChange → t.txlog.getLast? = some e → e.result = .err →
    t.fault = true ∧ t.faultChunk = t.k ∧ t.faultlog.getLast? = some t.k ∧
    ∃ bytes, t.snapBytes = some bytes ∧ bytes.length = 48 ∧
      EndsFaultedPass t.cfg bytes t.k.toNat t.txlog t.linelog [.gap t.cfg.resetDelayUs.toNat]) ∧
  ∀ (s : State) (rest : List Move) (f segs cut : Nat), AboutToWake s → f < 16 →
    s.sched = passMoves f (submissionMoves 1 segs cut) s.cfg.resetDelayUs.toNat ++ rest →
    ∃ t, runSteps (3 * f + 8) s = .next t ∧
      t.txlog = s.txlog ++ okEntries s.cfg s.frameBytes f ++
        [⟨BitVec.ofNat 4 f, encodeChunk s.cfg s.frameBytes f, .err⟩] ∧
      t.linelog = s.linelog ++ okWaves s.cfg s.frameBytes f ++
        failedWave segs cut (wave (encodeChunk s.cfg s.frameBytes f)) ++ [.gap s.cfg.resetDelayUs.toNat] ∧
      t.seqState = .waitingForChange ∧ t.k = BitVec.ofNat 4 f ∧ t.pending = false ∧ t.txs = .idle ∧
      t.fault = true ∧ t.faultChunk = BitVec.ofNat 4 f ∧ t.faultlog = s.faultlog ++ [BitVec.ofNat 4 f] ∧
      t.frame = s.frame ∧ t.sched = rest

/-! ### The line while a chunk plays -/

/-- R192, R194, R197: the transmitter drives the line high only while playing a chunk, and plays its descriptors in index order.
A drive move with `TXS = Busy` puts the segment at the play position of the chunk's waveform on `LINE` and moves the position on
by one; past the last segment the line is low and the position stays; nothing else changes. With `TXS` not `Busy` it changes
nothing; an unwritten buffer is R38's fault. While `TXS` stays `Busy` no other step changes the line, the position or the chunk, so
each segment is driven once, in order. In states of the invariant the line goes high at every even position below 48, low at
every odd one, and stays low after the 24th pulse. That a move takes a play on by one segment, so that a play's levels show
between steps, is log entry 13, the model's choice. -/
def Obligations.DriveStep : Prop :=
  (∀ (s : State) (rest : List Move), s.held = false → s.sched = .drive :: rest →
    (∀ ds l ticks, s.txs = .busy → s.txChunk = some ds → (wave ds)[s.play]? = some (.seg l ticks) →
      step s = .next { s with sched := rest, line := l, play := s.play + 1 }) ∧
    (∀ ds, s.txs = .busy → s.txChunk = some ds → s.play = (wave ds).length →
      step s = .next { s with sched := rest, line := 0 }) ∧
    (s.txs ≠ .busy → step s = .next { s with sched := rest }) ∧
    (s.txs = .busy → s.txChunk = none → step s = .fault .unwrittenTxBuf)) ∧
  (∀ s t : State, step s = .next t → isReset (nextMove s) = false → s.txs = .busy → t.txs = .busy → nextMove s ≠ .drive →
    t.line = s.line ∧ t.play = s.play ∧ t.txChunk = s.txChunk) ∧
  ∀ (s : State) (rest : List Move), StateInv s → s.txs = .busy → s.sched = .drive :: rest →
    (s.play < 48 → step s = .next { s with sched := rest, line := if s.play % 2 = 0 then 1 else 0, play := s.play + 1 }) ∧
    (48 ≤ s.play → s.play = 48 ∧ s.line = 0 ∧ step s = .next { s with sched := rest })
end

