-- ==== Sys2Proof/Laws/Decode.lean ====
section
/-! SUPPORT. The fields of a command word, and the command decoder said by its fields instead of its masks. -/

namespace Sys2Proof

/-! ### The fields of an encoded word -/

theorem cmdOp_cmdWord (op : BitVec 3) (idx : BitVec 5) (r g b : Byte) : cmdOp (cmdWord op idx r g b) = op := by
  unfold cmdOp cmdWord
  ext j hj
  simp
  grind

theorem cmdIdx_cmdWord (op : BitVec 3) (idx : BitVec 5) (r g b : Byte) : cmdIdx (cmdWord op idx r g b) = idx.toNat := by
  unfold cmdIdx cmdWord
  congr 1
  ext j hj
  simp
  grind

theorem cmdRed_cmdWord (op : BitVec 3) (idx : BitVec 5) (r g b : Byte) : cmdRed (cmdWord op idx r g b) = r := by
  unfold cmdRed cmdWord
  ext j hj
  simp
  grind

theorem cmdGreen_cmdWord (op : BitVec 3) (idx : BitVec 5) (r g b : Byte) : cmdGreen (cmdWord op idx r g b) = g := by
  unfold cmdGreen cmdWord
  ext j hj
  simp
  grind

theorem cmdBlue_cmdWord (op : BitVec 3) (idx : BitVec 5) (r g b : Byte) : cmdBlue (cmdWord op idx r g b) = b := by
  unfold cmdBlue cmdWord
  ext j hj
  simp
  grind

/-- A word is put together from its own fields. -/
theorem cmdWord_fields (w : Word) :
    cmdWord (cmdOp w) (w.extractLsb' 24 5) (cmdRed w) (cmdGreen w) (cmdBlue w) = w := by
  unfold cmdWord cmdOp cmdRed cmdGreen cmdBlue
  ext j hj
  simp
  grind

/-- A word is put together from `op` and the 29 bits below it. -/
theorem op_append_rest (w : Word) : cmdOp w ++ w.extractLsb' 0 29 = w := by
  unfold cmdOp
  ext j hj
  simp
  grind

/-! ### Masks -/

theorem and_ones (w : Word) : w &&& 0xFFFFFFFF#32 = w := by
  rw [show 0xFFFFFFFF#32 = BitVec.allOnes 32 by decide, BitVec.and_allOnes]

/-- The mask of `op` alone. -/
theorem opMask_iff (w v : Word) (hv : ∀ j (_ : j < 32), j < 29 → v[j] = false) :
    w &&& 0xE0000000#32 = v ↔ cmdOp w = cmdOp v := by
  have hm : ∀ j (_ : j < 32), (0xE0000000#32)[j] = decide (29 ≤ j) := by decide
  unfold cmdOp
  constructor
  · intro h
    subst h
    ext j hj
    simp [hm, BitVec.getLsbD_eq_getElem (show 29 + j < 32 by omega)]
  · intro h
    ext j hj
    by_cases hnj : 29 ≤ j
    · have := congrArg (fun u : BitVec 3 => u.getLsbD (j - 29)) h
      simp only [BitVec.getLsbD_extractLsb', show 29 + (j - 29) = j by omega, BitVec.getLsbD_eq_getElem hj,
        show decide (j - 29 < 3) = true by simp; omega, Bool.true_and] at this
      simp [hm, hnj, this]
    · simp [hm, hnj, hv j hj (by omega)]

/-- The mask of `FB_READ`: `op` and the 24 low bits. -/
theorem readMask_iff (w : Word) :
    w &&& 0xE0FFFFFF#32 = 0x80000000#32 ↔ cmdOp w = 4#3 ∧ w.extractLsb' 0 24 = 0 := by
  have hm : ∀ j (_ : j < 32), (0xE0FFFFFF#32)[j] = decide (29 ≤ j ∨ j < 24) := by decide
  have hv : ∀ j (_ : j < 32), (0x80000000#32)[j] = decide (j = 31) := by decide
  have h4 : ∀ j (_ : j < 3), (4#3)[j] = decide (j = 2) := by decide
  unfold cmdOp
  constructor
  · intro h
    have hb : ∀ j (hj : j < 32), (w[j] && (0xE0FFFFFF#32)[j]) = (0x80000000#32)[j] := by
      intro j hj
      rw [← h]
      simp
    constructor
    · ext j hj
      have := hb (29 + j) (by omega)
      rw [hm, hv] at this
      simp [BitVec.getLsbD_eq_getElem (show 29 + j < 32 by omega), h4]
      grind
    · ext j hj
      have := hb j (by omega)
      rw [hm, hv] at this
      simp
      grind
  · rintro ⟨h1, h2⟩
    ext j hj
    simp only [BitVec.getElem_and, hm, hv]
    by_cases hlow : j < 24
    · have := congrArg (fun u : BitVec 24 => u[j]) h2
      simp at this
      grind
    · by_cases hhigh : 29 ≤ j
      · have := congrArg (fun u : BitVec 3 => u[j - 29]) h1
        simp [show 29 + (j - 29) = j by omega] at this
        grind
      · grind

/-! ### The decoder by fields -/

theorem openWord_iff (w : Word) : w = 0x40000000#32 ↔ cmdOp w = 2#3 ∧ w.extractLsb' 0 29 = 0 := by
  constructor
  · rintro rfl
    decide
  · rintro ⟨h1, h2⟩
    rw [← op_append_rest w, h1, h2]
    decide

theorem closeWord_iff (w : Word) : w = 0xA0000000#32 ↔ cmdOp w = 5#3 ∧ w.extractLsb' 0 29 = 0 := by
  constructor
  · rintro rfl
    decide
  · rintro ⟨h1, h2⟩
    rw [← op_append_rest w, h1, h2]
    decide

/-- What the command decoder does, by the word's fields. -/
theorem decodeCmd_eq (w : Word) : decodeCmd w =
    if cmdOp w = 1#3 then .instr (.setPixel (cmdIdx w) (cmdRed w) (cmdGreen w) (cmdBlue w))
    else if cmdOp w = 2#3 ∧ w.extractLsb' 0 29 = 0 then .instr .fbOpen
    else if cmdOp w = 3#3 then .instr (.fbWrite (cmdIdx w) (cmdRed w) (cmdGreen w) (cmdBlue w))
    else if cmdOp w = 4#3 ∧ w.extractLsb' 0 24 = 0 then .instr (.fbRead (cmdIdx w))
    else if cmdOp w = 5#3 ∧ w.extractLsb' 0 29 = 0 then .instr .fbClose
    else if cmdOp w = 2#3 ∨ cmdOp w = 4#3 ∨ cmdOp w = 5#3 then .rejected .unusedBitsSet
    else .rejected .reservedOp := by
  have h1 : w &&& 0xE0000000#32 = 0x20000000#32 ↔ cmdOp w = 1#3 := opMask_iff w _ (by decide)
  have h3 : w &&& 0xE0000000#32 = 0x60000000#32 ↔ cmdOp w = 3#3 := opMask_iff w _ (by decide)
  unfold decodeCmd
  simp only [h1, h3, readMask_iff, and_ones, openWord_iff, closeWord_iff]

/-- A command word decodes to a host-port command and to nothing else. -/
theorem decodeCmd_command {w : Word} {i : Instr} (h : decodeCmd w = .instr i) :
    (∃ idx r g b, i = .setPixel idx r g b) ∨ i = .fbOpen ∨ (∃ idx r g b, i = .fbWrite idx r g b) ∨
      (∃ idx, i = .fbRead idx) ∨ i = .fbClose := by
  rw [decodeCmd_eq] at h
  repeat' split at h
  all_goals first | (cases h; done) | (cases h; simp)

/-- A `STATE` code decodes to a sequencer step whose `STATE` it is (R92, R97). -/
theorem decodeSeq_state {v : SeqView} {i : Instr} (h : decodeSeq v = .instr i) :
    (i = .seqWake ∧ stateOfCode v.code = some .waitingForChange ∧ v.pending = true) ∨
    (i = .seqSnapshot ∧ stateOfCode v.code = some .snapshotting ∧ v.guardFree = true) ∨
    (i = .seqEncode ∧ stateOfCode v.code = some .encoding) ∨
    (i = .seqSubmit ∧ stateOfCode v.code = some .transmitting ∧ v.txs = .idle) ∨
    (i = .seqNext ∧ stateOfCode v.code = some .transmitting ∧ v.txs = .doneOk ∧ v.k.toNat < 15) ∨
    (i = .seqLast ∧ stateOfCode v.code = some .transmitting ∧ v.txs = .doneOk ∧ ¬v.k.toNat < 15) ∨
    (i = .seqFault ∧ stateOfCode v.code = some .transmitting ∧ v.txs = .doneErr) ∨
    (i = .seqGapDone ∧ stateOfCode v.code = some .resetDelay ∧ v.gapDone = true) := by
  unfold decodeSeq at h
  repeat' split at h
  all_goals first | (cases h; done) | (cases h; simp_all)

@[simp] theorem stateOfCode_stateCode (q : SeqState) : stateOfCode (stateCode q) = some q := by
  cases q <;> rfl

end Sys2Proof
end

