-- ==== Sys2Proof/Laws/Memory.lean ====
section
/-! SUPPORT. The laws of memories: reading after writing, reading ranges, and the canonical form kept by every write. -/

namespace Sys2Proof.Machine

variable {α : Type}

@[simp] theorem cellsAt_nil (base : Nat) : cellsAt base ([] : List α) = [] := rfl

@[simp] theorem cellsAt_cons (base : Nat) (v : α) (vs : List α) :
    cellsAt base (v :: vs) = (base, v) :: cellsAt (base + 1) vs := rfl

@[simp] theorem cellsRead_nil (dflt : Option α) (a : Nat) : cellsRead dflt ([] : List (Nat × α)) a = dflt := rfl

theorem cellsRead_cons (dflt : Option α) (e : Nat × α) (m : List (Nat × α)) (a : Nat) :
    cellsRead dflt (e :: m) a = if e.1 = a then some e.2 else cellsRead dflt m a := rfl

/-- Reading a joined list reads its first part, with the second part behind it. -/
theorem cellsRead_append (dflt : Option α) (m n : List (Nat × α)) (a : Nat) :
    cellsRead dflt (m ++ n) a = cellsRead (cellsRead dflt n a) m a := by
  induction m with
  | nil => rfl
  | cons e m ih => simp only [List.cons_append, cellsRead_cons, ih]

/-- An address that no entry has reads as the default. -/
theorem cellsRead_of_absent (dflt : Option α) (m : List (Nat × α)) (a : Nat) (h : ∀ e ∈ m, e.1 ≠ a) :
    cellsRead dflt m a = dflt := by
  induction m with
  | nil => rfl
  | cons e m ih =>
    rw [cellsRead_cons, if_neg (h e List.mem_cons_self), ih fun f hf => h f (List.mem_cons_of_mem e hf)]

/-- Dropping entries of other addresses does not change what an address reads as. -/
theorem cellsRead_filter_keep (dflt : Option α) (keep : Nat → Bool) (m : List (Nat × α)) (a : Nat) (h : keep a = true) :
    cellsRead dflt (m.filter (fun e => keep e.1)) a = cellsRead dflt m a := by
  induction m with
  | nil => rfl
  | cons e m ih =>
    by_cases he : keep e.1 = true
    · rw [List.filter_cons_of_pos (p := fun e : Nat × α => keep e.1) he, cellsRead_cons, cellsRead_cons, ih]
    · rw [List.filter_cons_of_neg (p := fun e : Nat × α => keep e.1) he, cellsRead_cons, ih, if_neg]
      rintro rfl
      exact he h

/-- Every entry laid out from `base` has an address in the range. -/
theorem cellsAt_key {base : Nat} {vs : List α} {e : Nat × α} (h : e ∈ cellsAt base vs) :
    base ≤ e.1 ∧ e.1 < base + vs.length := by
  induction vs generalizing base with
  | nil => simp at h
  | cons v vs ih =>
    rw [cellsAt_cons, List.mem_cons] at h
    rcases h with rfl | h
    · simp
    · have := ih h
      rw [List.length_cons]
      omega

/-- Entries equal to the default may be dropped: the address then reads as the default. -/
theorem cellsRead_cellsAt [DecidableEq α] (dflt : Option α) (base : Nat) (vs : List α) (a : Nat) :
    cellsRead dflt ((cellsAt base vs).filter (fun e => decide (some e.2 ≠ dflt))) a =
      if base ≤ a ∧ a < base + vs.length then vs[a - base]? else dflt := by
  induction vs generalizing base with
  | nil => simp
  | cons v vs ih =>
    have hsplit : cellsRead dflt ((cellsAt base (v :: vs)).filter (fun e => decide (some e.2 ≠ dflt))) a =
        if base = a then some v
        else cellsRead dflt ((cellsAt (base + 1) vs).filter (fun e => decide (some e.2 ≠ dflt))) a := by
      by_cases hv : some v = dflt
      · rw [cellsAt_cons, List.filter_cons_of_neg (by simpa using hv)]
        split
        · rename_i hb
          rw [cellsRead_of_absent, hv]
          intro e he
          have := cellsAt_key (List.mem_of_mem_filter he)
          omega
        · rfl
      · rw [cellsAt_cons, List.filter_cons_of_pos (by simpa using hv), cellsRead_cons]
    rw [hsplit, ih, List.length_cons]
    by_cases hb : base = a
    · subst hb
      rw [if_pos rfl, if_pos (by omega)]
      simp
    · rw [if_neg hb]
      by_cases hr : base + 1 ≤ a ∧ a < base + 1 + vs.length
      · rw [if_pos hr, if_pos (by omega), show a - base = (a - (base + 1)) + 1 by omega, List.getElem?_cons_succ]
      · rw [if_neg hr, if_neg (by omega)]

/-- READ AFTER WRITE: inside the range the written element, outside it what was read before. -/
theorem cellsRead_cellsWrite [DecidableEq α] (dflt : Option α) (m : List (Nat × α)) (base : Nat) (vs : List α)
    (a : Nat) :
    cellsRead dflt (cellsWrite dflt m base vs) a =
      if base ≤ a ∧ a < base + vs.length then vs[a - base]? else cellsRead dflt m a := by
  unfold cellsWrite
  rw [cellsRead_append, cellsRead_append]
  by_cases hlo : a < base
  · rw [if_neg (by omega), ← cellsRead_filter_keep dflt (fun k => decide (k < base)) m a (by simpa using hlo)]
    have hrest : cellsRead dflt (m.filter fun e => decide (base + vs.length ≤ e.1)) a = dflt := by
      apply cellsRead_of_absent
      intro e he
      have := (List.mem_filter.1 he).2
      simp only [decide_eq_true_eq] at this
      omega
    rw [hrest, cellsRead_cellsAt, if_neg (by omega)]
  · rw [cellsRead_of_absent]
    · by_cases hin : a < base + vs.length
      · have hrest : cellsRead dflt (m.filter fun e => decide (base + vs.length ≤ e.1)) a = dflt := by
          apply cellsRead_of_absent
          intro e he
          have := (List.mem_filter.1 he).2
          simp only [decide_eq_true_eq] at this
          omega
        rw [hrest, cellsRead_cellsAt, if_pos ⟨by omega, hin⟩, if_pos ⟨by omega, hin⟩]
      · have hrest := cellsRead_filter_keep dflt (fun k => decide (base + vs.length ≤ k)) m a (by simp; omega)
        rw [hrest, if_neg (by omega)]
        apply cellsRead_of_absent
        intro e he
        have := cellsAt_key (List.mem_of_mem_filter he)
        omega
    · intro e he
      have := (List.mem_filter.1 he).2
      simp only [decide_eq_true_eq] at this
      omega

theorem cellsAt_pairwise (base : Nat) (vs : List α) :
    (cellsAt base vs).Pairwise (fun e f => e.1 < f.1) := by
  induction vs generalizing base with
  | nil => exact List.Pairwise.nil
  | cons v vs ih =>
    rw [cellsAt_cons, List.pairwise_cons]
    refine ⟨fun e he => ?_, ih (base + 1)⟩
    have := cellsAt_key he
    simp only
    omega

/-- A write inside the memory's size keeps the canonical form. -/
theorem cellsWrite_wf [DecidableEq α] (dflt : Option α) (size : Nat) (m : List (Nat × α)) (base : Nat) (vs : List α)
    (h : Memory.wf dflt size m) (hsize : base + vs.length ≤ size) :
    Memory.wf dflt size (cellsWrite dflt m base vs) := by
  obtain ⟨hord, hval⟩ := h
  have hfilter : ∀ (p : Nat × α → Bool), (m.filter p).Pairwise (fun e f => e.1 < f.1) := fun p => hord.filter p
  refine ⟨?_, ?_⟩
  · unfold cellsWrite
    rw [List.pairwise_append, List.pairwise_append]
    refine ⟨hfilter _, ⟨(cellsAt_pairwise base vs).filter _, hfilter _, ?_⟩, ?_⟩
    · intro e he f hf
      have h1 := cellsAt_key (List.mem_of_mem_filter he)
      have h2 := (List.mem_filter.1 hf).2
      simp only [decide_eq_true_eq] at h2
      omega
    · intro e he f hf
      have h1 := (List.mem_filter.1 he).2
      simp only [decide_eq_true_eq] at h1
      rcases List.mem_append.1 hf with hf | hf
      · have h2 := cellsAt_key (List.mem_of_mem_filter hf)
        omega
      · have h2 := (List.mem_filter.1 hf).2
        simp only [decide_eq_true_eq] at h2
        omega
  · intro e he
    unfold cellsWrite at he
    rcases List.mem_append.1 he with he | he
    · exact hval e (List.mem_of_mem_filter he)
    · rcases List.mem_append.1 he with he | he
      · have h1 := cellsAt_key (List.mem_of_mem_filter he)
        have h2 := (List.mem_filter.1 he).2
        simp only [decide_eq_true_eq] at h2
        exact ⟨by omega, h2⟩
      · exact hval e (List.mem_of_mem_filter he)

/-- In canonical form, equal readings are equal data. -/
theorem cells_ext (dflt : Option α) [DecidableEq α] (size : Nat) (m n : List (Nat × α)) (hm : Memory.wf dflt size m)
    (hn : Memory.wf dflt size n) (h : ∀ a, cellsRead dflt m a = cellsRead dflt n a) : m = n := by
  induction m generalizing n with
  | nil =>
    cases n with
    | nil => rfl
    | cons e n =>
      have := h e.1
      rw [cellsRead_nil, cellsRead_cons, if_pos rfl] at this
      exact absurd this.symm (hn.2 e List.mem_cons_self).2
  | cons d m ih =>
    cases n with
    | nil =>
      have := h d.1
      rw [cellsRead_nil, cellsRead_cons, if_pos rfl] at this
      exact absurd this (hm.2 d List.mem_cons_self).2
    | cons e n =>
      obtain ⟨hmo, hmv⟩ := hm
      obtain ⟨hno, hnv⟩ := hn
      rw [List.pairwise_cons] at hmo hno
      have absent : ∀ (l : List (Nat × α)) (c : Nat × α) (a : Nat), (∀ f ∈ l, c.1 < f.1) → a ≤ c.1 →
          cellsRead dflt l a = dflt := by
        intro l c a hl ha
        apply cellsRead_of_absent
        intro f hf
        have := hl f hf
        omega
      have hde : d.1 = e.1 := by
        rcases Nat.lt_trichotomy d.1 e.1 with hlt | heq | hgt
        · have := h d.1
          rw [cellsRead_cons, if_pos rfl, cellsRead_cons, if_neg (by omega), absent n e d.1 hno.1 (by omega)] at this
          exact absurd this (hmv d List.mem_cons_self).2
        · exact heq
        · have := h e.1
          rw [cellsRead_cons, if_neg (by omega), absent m d e.1 hmo.1 (by omega), cellsRead_cons, if_pos rfl] at this
          exact absurd this.symm (hnv e List.mem_cons_self).2
      have hval : d.2 = e.2 := by
        have := h d.1
        rw [cellsRead_cons, if_pos rfl, cellsRead_cons, if_pos hde.symm] at this
        exact Option.some.inj this
      have htail : m = n := by
        apply ih n ⟨hmo.2, fun f hf => hmv f (List.mem_cons_of_mem d hf)⟩
          ⟨hno.2, fun f hf => hnv f (List.mem_cons_of_mem e hf)⟩
        intro a
        have := h a
        rw [cellsRead_cons, cellsRead_cons] at this
        by_cases ha : d.1 = a
        · rw [absent m d a hmo.1 (by omega), absent n e a hno.1 (by omega)]
        · rwa [if_neg ha, if_neg (by omega)] at this
      rw [htail, Prod.ext hde hval]

/-! ### Ranges -/

@[simp] theorem cellsReadRange_zero (dflt : Option α) (m : List (Nat × α)) (base : Nat) :
    cellsReadRange dflt m base 0 = some [] := rfl

theorem cellsReadRange_succ (dflt : Option α) (m : List (Nat × α)) (base n : Nat) (v : α) (vs : List α)
    (hv : cellsRead dflt m base = some v) (hvs : cellsReadRange dflt m (base + 1) n = some vs) :
    cellsReadRange dflt m base (n + 1) = some (v :: vs) := by
  rw [cellsReadRange, hv, hvs]

/-- A range reads as `vs` exactly when `vs` has its length and each of its addresses reads as the element of `vs`. -/
theorem cellsReadRange_eq_some (dflt : Option α) (m : List (Nat × α)) (base n : Nat) (vs : List α) :
    cellsReadRange dflt m base n = some vs ↔
      vs.length = n ∧ ∀ j, j < n → cellsRead dflt m (base + j) = vs[j]? := by
  induction n generalizing base vs with
  | zero =>
    rw [cellsReadRange_zero, Option.some.injEq, List.length_eq_zero_iff]
    exact ⟨fun h => ⟨h.symm, fun j hj => absurd hj (by omega)⟩, fun h => h.1.symm⟩
  | succ n ih =>
    rw [cellsReadRange]
    constructor
    · intro h
      split at h
      · rename_i v ws hv hws
        obtain rfl := Option.some.inj h
        obtain ⟨hlen, hget⟩ := (ih (base + 1) ws).1 hws
        refine ⟨by rw [List.length_cons, hlen], fun j hj => ?_⟩
        cases j with
        | zero => simpa using hv
        | succ j =>
          rw [List.getElem?_cons_succ, ← hget j (by omega)]
          congr 1
          omega
      · exact absurd h (by simp)
    · rintro ⟨hlen, hget⟩
      cases vs with
      | nil => exact absurd hlen (by simp)
      | cons v ws =>
        have hv : cellsRead dflt m base = some v := by simpa using hget 0 (by omega)
        have hws : cellsReadRange dflt m (base + 1) n = some ws := by
          rw [ih]
          refine ⟨by simpa using hlen, fun j hj => ?_⟩
          have := hget (j + 1) (by omega)
          rw [List.getElem?_cons_succ] at this
          rw [← this]
          congr 1
          omega
        rw [hv, hws]

theorem cellsReadRange_length {dflt : Option α} {m : List (Nat × α)} {base n : Nat} {vs : List α}
    (h : cellsReadRange dflt m base n = some vs) : vs.length = n :=
  ((cellsReadRange_eq_some dflt m base n vs).1 h).1

/-- Two memories that agree on a range read it alike. -/
theorem cellsReadRange_congr (dflt : Option α) (m n : List (Nat × α)) (base len : Nat)
    (h : ∀ j, j < len → cellsRead dflt m (base + j) = cellsRead dflt n (base + j)) :
    cellsReadRange dflt m base len = cellsReadRange dflt n base len := by
  induction len generalizing base with
  | zero => rfl
  | succ len ih =>
    have h0 : cellsRead dflt m base = cellsRead dflt n base := by simpa using h 0 (by omega)
    have hs : cellsReadRange dflt m (base + 1) len = cellsReadRange dflt n (base + 1) len := by
      apply ih
      intro j hj
      have := h (j + 1) (by omega)
      rwa [show base + (j + 1) = base + 1 + j by omega] at this
    rw [cellsReadRange, cellsReadRange, h0, hs]

/-- Reading back part of what has been written. -/
theorem cellsReadRange_cellsWrite [DecidableEq α] (dflt : Option α) (m : List (Nat × α)) (base : Nat) (vs : List α)
    (off len : Nat) (h : off + len ≤ vs.length) :
    cellsReadRange dflt (cellsWrite dflt m base vs) (base + off) len = some ((vs.drop off).take len) := by
  rw [cellsReadRange_eq_some]
  refine ⟨by rw [List.length_take, List.length_drop]; omega, fun j hj => ?_⟩
  rw [cellsRead_cellsWrite, if_pos (by omega), List.getElem?_take_of_lt hj, List.getElem?_drop]
  congr 1
  omega

/-- A memory with nothing listed is in canonical form: every memory of the reset state is one. -/
theorem memory_wf_nil [DecidableEq α] (dflt : Option α) (size : Nat) : Memory.wf dflt size ([] : List (Nat × α)) :=
  ⟨List.Pairwise.nil, fun _ h => by cases h⟩

end Sys2Proof.Machine
end

