-- ==== Sys2Proof/Laws/State.lean ====
section
/-! SUPPORT. One lemma per field per named update of State: what the update leaves in the field. The last section says once
what each composed update is. -/

namespace Sys2Proof.Machine

/-! ### acquireGuard -/

@[simp] theorem acquireGuard_frame (a : Agent) (s : State) : (acquireGuard a s).frame = s.frame := rfl
@[simp] theorem acquireGuard_guard (a : Agent) (s : State) : (acquireGuard a s).guard = some a := rfl
@[simp] theorem acquireGuard_pending (a : Agent) (s : State) : (acquireGuard a s).pending = s.pending := rfl
@[simp] theorem acquireGuard_seqState (a : Agent) (s : State) : (acquireGuard a s).seqState = s.seqState := rfl
@[simp] theorem acquireGuard_k (a : Agent) (s : State) : (acquireGuard a s).k = s.k := rfl
@[simp] theorem acquireGuard_snap (a : Agent) (s : State) : (acquireGuard a s).snap = s.snap := rfl
@[simp] theorem acquireGuard_staging (a : Agent) (s : State) : (acquireGuard a s).staging = s.staging := rfl
@[simp] theorem acquireGuard_gapt (a : Agent) (s : State) : (acquireGuard a s).gapt = s.gapt := rfl
@[simp] theorem acquireGuard_txs (a : Agent) (s : State) : (acquireGuard a s).txs = s.txs := rfl
@[simp] theorem acquireGuard_txbuf (a : Agent) (s : State) : (acquireGuard a s).txbuf = s.txbuf := rfl
@[simp] theorem acquireGuard_play (a : Agent) (s : State) : (acquireGuard a s).play = s.play := rfl
@[simp] theorem acquireGuard_line (a : Agent) (s : State) : (acquireGuard a s).line = s.line := rfl
@[simp] theorem acquireGuard_fault (a : Agent) (s : State) : (acquireGuard a s).fault = s.fault := rfl
@[simp] theorem acquireGuard_faultChunk (a : Agent) (s : State) : (acquireGuard a s).faultChunk = s.faultChunk := rfl
@[simp] theorem acquireGuard_cfg (a : Agent) (s : State) : (acquireGuard a s).cfg = s.cfg := rfl
@[simp] theorem acquireGuard_held (a : Agent) (s : State) : (acquireGuard a s).held = s.held := rfl
@[simp] theorem acquireGuard_nReq (a : Agent) (s : State) : (acquireGuard a s).nReq = s.nReq := rfl
@[simp] theorem acquireGuard_ports (a : Agent) (s : State) : (acquireGuard a s).ports = s.ports := rfl
@[simp] theorem acquireGuard_txlog (a : Agent) (s : State) : (acquireGuard a s).txlog = s.txlog := rfl
@[simp] theorem acquireGuard_linelog (a : Agent) (s : State) : (acquireGuard a s).linelog = s.linelog := rfl
@[simp] theorem acquireGuard_faultlog (a : Agent) (s : State) : (acquireGuard a s).faultlog = s.faultlog := rfl
@[simp] theorem acquireGuard_me (a : Agent) (s : State) : (acquireGuard a s).me = s.me := rfl
@[simp] theorem acquireGuard_sched (a : Agent) (s : State) : (acquireGuard a s).sched = s.sched := rfl
@[simp] theorem acquireGuard_offer (a : Agent) (s : State) : (acquireGuard a s).offer = s.offer := rfl
@[simp] theorem acquireGuard_turn (a : Agent) (s : State) : (acquireGuard a s).turn = s.turn := rfl
@[simp] theorem acquireGuard_drawSegs (a : Agent) (s : State) : (acquireGuard a s).drawSegs = s.drawSegs := rfl
@[simp] theorem acquireGuard_drawCut (a : Agent) (s : State) : (acquireGuard a s).drawCut = s.drawCut := rfl
@[simp] theorem acquireGuard_encOut (a : Agent) (s : State) : (acquireGuard a s).encOut = s.encOut := rfl

/-! ### releaseGuard -/

@[simp] theorem releaseGuard_frame (s : State) : (releaseGuard s).frame = s.frame := rfl
@[simp] theorem releaseGuard_guard (s : State) : (releaseGuard s).guard = none := rfl
@[simp] theorem releaseGuard_pending (s : State) : (releaseGuard s).pending = s.pending := rfl
@[simp] theorem releaseGuard_seqState (s : State) : (releaseGuard s).seqState = s.seqState := rfl
@[simp] theorem releaseGuard_k (s : State) : (releaseGuard s).k = s.k := rfl
@[simp] theorem releaseGuard_snap (s : State) : (releaseGuard s).snap = s.snap := rfl
@[simp] theorem releaseGuard_staging (s : State) : (releaseGuard s).staging = s.staging := rfl
@[simp] theorem releaseGuard_gapt (s : State) : (releaseGuard s).gapt = s.gapt := rfl
@[simp] theorem releaseGuard_txs (s : State) : (releaseGuard s).txs = s.txs := rfl
@[simp] theorem releaseGuard_txbuf (s : State) : (releaseGuard s).txbuf = s.txbuf := rfl
@[simp] theorem releaseGuard_play (s : State) : (releaseGuard s).play = s.play := rfl
@[simp] theorem releaseGuard_line (s : State) : (releaseGuard s).line = s.line := rfl
@[simp] theorem releaseGuard_fault (s : State) : (releaseGuard s).fault = s.fault := rfl
@[simp] theorem releaseGuard_faultChunk (s : State) : (releaseGuard s).faultChunk = s.faultChunk := rfl
@[simp] theorem releaseGuard_cfg (s : State) : (releaseGuard s).cfg = s.cfg := rfl
@[simp] theorem releaseGuard_held (s : State) : (releaseGuard s).held = s.held := rfl
@[simp] theorem releaseGuard_nReq (s : State) : (releaseGuard s).nReq = s.nReq := rfl
@[simp] theorem releaseGuard_ports (s : State) : (releaseGuard s).ports = s.ports := rfl
@[simp] theorem releaseGuard_txlog (s : State) : (releaseGuard s).txlog = s.txlog := rfl
@[simp] theorem releaseGuard_linelog (s : State) : (releaseGuard s).linelog = s.linelog := rfl
@[simp] theorem releaseGuard_faultlog (s : State) : (releaseGuard s).faultlog = s.faultlog := rfl
@[simp] theorem releaseGuard_me (s : State) : (releaseGuard s).me = s.me := rfl
@[simp] theorem releaseGuard_sched (s : State) : (releaseGuard s).sched = s.sched := rfl
@[simp] theorem releaseGuard_offer (s : State) : (releaseGuard s).offer = s.offer := rfl
@[simp] theorem releaseGuard_turn (s : State) : (releaseGuard s).turn = s.turn := rfl
@[simp] theorem releaseGuard_drawSegs (s : State) : (releaseGuard s).drawSegs = s.drawSegs := rfl
@[simp] theorem releaseGuard_drawCut (s : State) : (releaseGuard s).drawCut = s.drawCut := rfl
@[simp] theorem releaseGuard_encOut (s : State) : (releaseGuard s).encOut = s.encOut := rfl

/-! ### notify -/

@[simp] theorem notify_frame (s : State) : (notify s).frame = s.frame := rfl
@[simp] theorem notify_guard (s : State) : (notify s).guard = s.guard := rfl
@[simp] theorem notify_pending (s : State) : (notify s).pending = true := rfl
@[simp] theorem notify_seqState (s : State) : (notify s).seqState = s.seqState := rfl
@[simp] theorem notify_k (s : State) : (notify s).k = s.k := rfl
@[simp] theorem notify_snap (s : State) : (notify s).snap = s.snap := rfl
@[simp] theorem notify_staging (s : State) : (notify s).staging = s.staging := rfl
@[simp] theorem notify_gapt (s : State) : (notify s).gapt = s.gapt := rfl
@[simp] theorem notify_txs (s : State) : (notify s).txs = s.txs := rfl
@[simp] theorem notify_txbuf (s : State) : (notify s).txbuf = s.txbuf := rfl
@[simp] theorem notify_play (s : State) : (notify s).play = s.play := rfl
@[simp] theorem notify_line (s : State) : (notify s).line = s.line := rfl
@[simp] theorem notify_fault (s : State) : (notify s).fault = s.fault := rfl
@[simp] theorem notify_faultChunk (s : State) : (notify s).faultChunk = s.faultChunk := rfl
@[simp] theorem notify_cfg (s : State) : (notify s).cfg = s.cfg := rfl
@[simp] theorem notify_held (s : State) : (notify s).held = s.held := rfl
@[simp] theorem notify_nReq (s : State) : (notify s).nReq = s.nReq := rfl
@[simp] theorem notify_ports (s : State) : (notify s).ports = s.ports := rfl
@[simp] theorem notify_txlog (s : State) : (notify s).txlog = s.txlog := rfl
@[simp] theorem notify_linelog (s : State) : (notify s).linelog = s.linelog := rfl
@[simp] theorem notify_faultlog (s : State) : (notify s).faultlog = s.faultlog := rfl
@[simp] theorem notify_me (s : State) : (notify s).me = s.me := rfl
@[simp] theorem notify_sched (s : State) : (notify s).sched = s.sched := rfl
@[simp] theorem notify_offer (s : State) : (notify s).offer = s.offer := rfl
@[simp] theorem notify_turn (s : State) : (notify s).turn = s.turn := rfl
@[simp] theorem notify_drawSegs (s : State) : (notify s).drawSegs = s.drawSegs := rfl
@[simp] theorem notify_drawCut (s : State) : (notify s).drawCut = s.drawCut := rfl
@[simp] theorem notify_encOut (s : State) : (notify s).encOut = s.encOut := rfl

/-! ### consumePending -/

@[simp] theorem consumePending_frame (s : State) : (consumePending s).frame = s.frame := rfl
@[simp] theorem consumePending_guard (s : State) : (consumePending s).guard = s.guard := rfl
@[simp] theorem consumePending_pending (s : State) : (consumePending s).pending = false := rfl
@[simp] theorem consumePending_seqState (s : State) : (consumePending s).seqState = s.seqState := rfl
@[simp] theorem consumePending_k (s : State) : (consumePending s).k = s.k := rfl
@[simp] theorem consumePending_snap (s : State) : (consumePending s).snap = s.snap := rfl
@[simp] theorem consumePending_staging (s : State) : (consumePending s).staging = s.staging := rfl
@[simp] theorem consumePending_gapt (s : State) : (consumePending s).gapt = s.gapt := rfl
@[simp] theorem consumePending_txs (s : State) : (consumePending s).txs = s.txs := rfl
@[simp] theorem consumePending_txbuf (s : State) : (consumePending s).txbuf = s.txbuf := rfl
@[simp] theorem consumePending_play (s : State) : (consumePending s).play = s.play := rfl
@[simp] theorem consumePending_line (s : State) : (consumePending s).line = s.line := rfl
@[simp] theorem consumePending_fault (s : State) : (consumePending s).fault = s.fault := rfl
@[simp] theorem consumePending_faultChunk (s : State) : (consumePending s).faultChunk = s.faultChunk := rfl
@[simp] theorem consumePending_cfg (s : State) : (consumePending s).cfg = s.cfg := rfl
@[simp] theorem consumePending_held (s : State) : (consumePending s).held = s.held := rfl
@[simp] theorem consumePending_nReq (s : State) : (consumePending s).nReq = s.nReq := rfl
@[simp] theorem consumePending_ports (s : State) : (consumePending s).ports = s.ports := rfl
@[simp] theorem consumePending_txlog (s : State) : (consumePending s).txlog = s.txlog := rfl
@[simp] theorem consumePending_linelog (s : State) : (consumePending s).linelog = s.linelog := rfl
@[simp] theorem consumePending_faultlog (s : State) : (consumePending s).faultlog = s.faultlog := rfl
@[simp] theorem consumePending_me (s : State) : (consumePending s).me = s.me := rfl
@[simp] theorem consumePending_sched (s : State) : (consumePending s).sched = s.sched := rfl
@[simp] theorem consumePending_offer (s : State) : (consumePending s).offer = s.offer := rfl
@[simp] theorem consumePending_turn (s : State) : (consumePending s).turn = s.turn := rfl
@[simp] theorem consumePending_drawSegs (s : State) : (consumePending s).drawSegs = s.drawSegs := rfl
@[simp] theorem consumePending_drawCut (s : State) : (consumePending s).drawCut = s.drawCut := rfl
@[simp] theorem consumePending_encOut (s : State) : (consumePending s).encOut = s.encOut := rfl

/-! ### setTxs -/

@[simp] theorem setTxs_frame (v : Txs) (s : State) : (setTxs v s).frame = s.frame := rfl
@[simp] theorem setTxs_guard (v : Txs) (s : State) : (setTxs v s).guard = s.guard := rfl
@[simp] theorem setTxs_pending (v : Txs) (s : State) : (setTxs v s).pending = s.pending := rfl
@[simp] theorem setTxs_seqState (v : Txs) (s : State) : (setTxs v s).seqState = s.seqState := rfl
@[simp] theorem setTxs_k (v : Txs) (s : State) : (setTxs v s).k = s.k := rfl
@[simp] theorem setTxs_snap (v : Txs) (s : State) : (setTxs v s).snap = s.snap := rfl
@[simp] theorem setTxs_staging (v : Txs) (s : State) : (setTxs v s).staging = s.staging := rfl
@[simp] theorem setTxs_gapt (v : Txs) (s : State) : (setTxs v s).gapt = s.gapt := rfl
@[simp] theorem setTxs_txs (v : Txs) (s : State) : (setTxs v s).txs = v := rfl
@[simp] theorem setTxs_txbuf (v : Txs) (s : State) : (setTxs v s).txbuf = s.txbuf := rfl
@[simp] theorem setTxs_play (v : Txs) (s : State) : (setTxs v s).play = s.play := rfl
@[simp] theorem setTxs_line (v : Txs) (s : State) : (setTxs v s).line = s.line := rfl
@[simp] theorem setTxs_fault (v : Txs) (s : State) : (setTxs v s).fault = s.fault := rfl
@[simp] theorem setTxs_faultChunk (v : Txs) (s : State) : (setTxs v s).faultChunk = s.faultChunk := rfl
@[simp] theorem setTxs_cfg (v : Txs) (s : State) : (setTxs v s).cfg = s.cfg := rfl
@[simp] theorem setTxs_held (v : Txs) (s : State) : (setTxs v s).held = s.held := rfl
@[simp] theorem setTxs_nReq (v : Txs) (s : State) : (setTxs v s).nReq = s.nReq := rfl
@[simp] theorem setTxs_ports (v : Txs) (s : State) : (setTxs v s).ports = s.ports := rfl
@[simp] theorem setTxs_txlog (v : Txs) (s : State) : (setTxs v s).txlog = s.txlog := rfl
@[simp] theorem setTxs_linelog (v : Txs) (s : State) : (setTxs v s).linelog = s.linelog := rfl
@[simp] theorem setTxs_faultlog (v : Txs) (s : State) : (setTxs v s).faultlog = s.faultlog := rfl
@[simp] theorem setTxs_me (v : Txs) (s : State) : (setTxs v s).me = s.me := rfl
@[simp] theorem setTxs_sched (v : Txs) (s : State) : (setTxs v s).sched = s.sched := rfl
@[simp] theorem setTxs_offer (v : Txs) (s : State) : (setTxs v s).offer = s.offer := rfl
@[simp] theorem setTxs_turn (v : Txs) (s : State) : (setTxs v s).turn = s.turn := rfl
@[simp] theorem setTxs_drawSegs (v : Txs) (s : State) : (setTxs v s).drawSegs = s.drawSegs := rfl
@[simp] theorem setTxs_drawCut (v : Txs) (s : State) : (setTxs v s).drawCut = s.drawCut := rfl
@[simp] theorem setTxs_encOut (v : Txs) (s : State) : (setTxs v s).encOut = s.encOut := rfl

/-! ### setLine -/

@[simp] theorem setLine_frame (v : BitVec 1) (s : State) : (setLine v s).frame = s.frame := rfl
@[simp] theorem setLine_guard (v : BitVec 1) (s : State) : (setLine v s).guard = s.guard := rfl
@[simp] theorem setLine_pending (v : BitVec 1) (s : State) : (setLine v s).pending = s.pending := rfl
@[simp] theorem setLine_seqState (v : BitVec 1) (s : State) : (setLine v s).seqState = s.seqState := rfl
@[simp] theorem setLine_k (v : BitVec 1) (s : State) : (setLine v s).k = s.k := rfl
@[simp] theorem setLine_snap (v : BitVec 1) (s : State) : (setLine v s).snap = s.snap := rfl
@[simp] theorem setLine_staging (v : BitVec 1) (s : State) : (setLine v s).staging = s.staging := rfl
@[simp] theorem setLine_gapt (v : BitVec 1) (s : State) : (setLine v s).gapt = s.gapt := rfl
@[simp] theorem setLine_txs (v : BitVec 1) (s : State) : (setLine v s).txs = s.txs := rfl
@[simp] theorem setLine_txbuf (v : BitVec 1) (s : State) : (setLine v s).txbuf = s.txbuf := rfl
@[simp] theorem setLine_play (v : BitVec 1) (s : State) : (setLine v s).play = s.play := rfl
@[simp] theorem setLine_line (v : BitVec 1) (s : State) : (setLine v s).line = v := rfl
@[simp] theorem setLine_fault (v : BitVec 1) (s : State) : (setLine v s).fault = s.fault := rfl
@[simp] theorem setLine_faultChunk (v : BitVec 1) (s : State) : (setLine v s).faultChunk = s.faultChunk := rfl
@[simp] theorem setLine_cfg (v : BitVec 1) (s : State) : (setLine v s).cfg = s.cfg := rfl
@[simp] theorem setLine_held (v : BitVec 1) (s : State) : (setLine v s).held = s.held := rfl
@[simp] theorem setLine_nReq (v : BitVec 1) (s : State) : (setLine v s).nReq = s.nReq := rfl
@[simp] theorem setLine_ports (v : BitVec 1) (s : State) : (setLine v s).ports = s.ports := rfl
@[simp] theorem setLine_txlog (v : BitVec 1) (s : State) : (setLine v s).txlog = s.txlog := rfl
@[simp] theorem setLine_linelog (v : BitVec 1) (s : State) : (setLine v s).linelog = s.linelog := rfl
@[simp] theorem setLine_faultlog (v : BitVec 1) (s : State) : (setLine v s).faultlog = s.faultlog := rfl
@[simp] theorem setLine_me (v : BitVec 1) (s : State) : (setLine v s).me = s.me := rfl
@[simp] theorem setLine_sched (v : BitVec 1) (s : State) : (setLine v s).sched = s.sched := rfl
@[simp] theorem setLine_offer (v : BitVec 1) (s : State) : (setLine v s).offer = s.offer := rfl
@[simp] theorem setLine_turn (v : BitVec 1) (s : State) : (setLine v s).turn = s.turn := rfl
@[simp] theorem setLine_drawSegs (v : BitVec 1) (s : State) : (setLine v s).drawSegs = s.drawSegs := rfl
@[simp] theorem setLine_drawCut (v : BitVec 1) (s : State) : (setLine v s).drawCut = s.drawCut := rfl
@[simp] theorem setLine_encOut (v : BitVec 1) (s : State) : (setLine v s).encOut = s.encOut := rfl

/-! ### writePixel -/

@[simp] theorem writePixel_frame (i : Nat) (bs : List Byte) (s : State) : (writePixel i bs s).frame = cellsWrite frameDefault s.frame (pixelAddr i 0) bs := rfl
@[simp] theorem writePixel_guard (i : Nat) (bs : List Byte) (s : State) : (writePixel i bs s).guard = s.guard := rfl
@[simp] theorem writePixel_pending (i : Nat) (bs : List Byte) (s : State) : (writePixel i bs s).pending = s.pending := rfl
@[simp] theorem writePixel_seqState (i : Nat) (bs : List Byte) (s : State) : (writePixel i bs s).seqState = s.seqState := rfl
@[simp] theorem writePixel_k (i : Nat) (bs : List Byte) (s : State) : (writePixel i bs s).k = s.k := rfl
@[simp] theorem writePixel_snap (i : Nat) (bs : List Byte) (s : State) : (writePixel i bs s).snap = s.snap := rfl
@[simp] theorem writePixel_staging (i : Nat) (bs : List Byte) (s : State) : (writePixel i bs s).staging = s.staging := rfl
@[simp] theorem writePixel_gapt (i : Nat) (bs : List Byte) (s : State) : (writePixel i bs s).gapt = s.gapt := rfl
@[simp] theorem writePixel_txs (i : Nat) (bs : List Byte) (s : State) : (writePixel i bs s).txs = s.txs := rfl
@[simp] theorem writePixel_txbuf (i : Nat) (bs : List Byte) (s : State) : (writePixel i bs s).txbuf = s.txbuf := rfl
@[simp] theorem writePixel_play (i : Nat) (bs : List Byte) (s : State) : (writePixel i bs s).play = s.play := rfl
@[simp] theorem writePixel_line (i : Nat) (bs : List Byte) (s : State) : (writePixel i bs s).line = s.line := rfl
@[simp] theorem writePixel_fault (i : Nat) (bs : List Byte) (s : State) : (writePixel i bs s).fault = s.fault := rfl
@[simp] theorem writePixel_faultChunk (i : Nat) (bs : List Byte) (s : State) : (writePixel i bs s).faultChunk = s.faultChunk := rfl
@[simp] theorem writePixel_cfg (i : Nat) (bs : List Byte) (s : State) : (writePixel i bs s).cfg = s.cfg := rfl
@[simp] theorem writePixel_held (i : Nat) (bs : List Byte) (s : State) : (writePixel i bs s).held = s.held := rfl
@[simp] theorem writePixel_nReq (i : Nat) (bs : List Byte) (s : State) : (writePixel i bs s).nReq = s.nReq := rfl
@[simp] theorem writePixel_ports (i : Nat) (bs : List Byte) (s : State) : (writePixel i bs s).ports = s.ports := rfl
@[simp] theorem writePixel_txlog (i : Nat) (bs : List Byte) (s : State) : (writePixel i bs s).txlog = s.txlog := rfl
@[simp] theorem writePixel_linelog (i : Nat) (bs : List Byte) (s : State) : (writePixel i bs s).linelog = s.linelog := rfl
@[simp] theorem writePixel_faultlog (i : Nat) (bs : List Byte) (s : State) : (writePixel i bs s).faultlog = s.faultlog := rfl
@[simp] theorem writePixel_me (i : Nat) (bs : List Byte) (s : State) : (writePixel i bs s).me = s.me := rfl
@[simp] theorem writePixel_sched (i : Nat) (bs : List Byte) (s : State) : (writePixel i bs s).sched = s.sched := rfl
@[simp] theorem writePixel_offer (i : Nat) (bs : List Byte) (s : State) : (writePixel i bs s).offer = s.offer := rfl
@[simp] theorem writePixel_turn (i : Nat) (bs : List Byte) (s : State) : (writePixel i bs s).turn = s.turn := rfl
@[simp] theorem writePixel_drawSegs (i : Nat) (bs : List Byte) (s : State) : (writePixel i bs s).drawSegs = s.drawSegs := rfl
@[simp] theorem writePixel_drawCut (i : Nat) (bs : List Byte) (s : State) : (writePixel i bs s).drawCut = s.drawCut := rfl
@[simp] theorem writePixel_encOut (i : Nat) (bs : List Byte) (s : State) : (writePixel i bs s).encOut = s.encOut := rfl

/-! ### setPort -/

@[simp] theorem setPort_frame (r : Nat) (p : Port) (s : State) : (setPort r p s).frame = s.frame := rfl
@[simp] theorem setPort_guard (r : Nat) (p : Port) (s : State) : (setPort r p s).guard = s.guard := rfl
@[simp] theorem setPort_pending (r : Nat) (p : Port) (s : State) : (setPort r p s).pending = s.pending := rfl
@[simp] theorem setPort_seqState (r : Nat) (p : Port) (s : State) : (setPort r p s).seqState = s.seqState := rfl
@[simp] theorem setPort_k (r : Nat) (p : Port) (s : State) : (setPort r p s).k = s.k := rfl
@[simp] theorem setPort_snap (r : Nat) (p : Port) (s : State) : (setPort r p s).snap = s.snap := rfl
@[simp] theorem setPort_staging (r : Nat) (p : Port) (s : State) : (setPort r p s).staging = s.staging := rfl
@[simp] theorem setPort_gapt (r : Nat) (p : Port) (s : State) : (setPort r p s).gapt = s.gapt := rfl
@[simp] theorem setPort_txs (r : Nat) (p : Port) (s : State) : (setPort r p s).txs = s.txs := rfl
@[simp] theorem setPort_txbuf (r : Nat) (p : Port) (s : State) : (setPort r p s).txbuf = s.txbuf := rfl
@[simp] theorem setPort_play (r : Nat) (p : Port) (s : State) : (setPort r p s).play = s.play := rfl
@[simp] theorem setPort_line (r : Nat) (p : Port) (s : State) : (setPort r p s).line = s.line := rfl
@[simp] theorem setPort_fault (r : Nat) (p : Port) (s : State) : (setPort r p s).fault = s.fault := rfl
@[simp] theorem setPort_faultChunk (r : Nat) (p : Port) (s : State) : (setPort r p s).faultChunk = s.faultChunk := rfl
@[simp] theorem setPort_cfg (r : Nat) (p : Port) (s : State) : (setPort r p s).cfg = s.cfg := rfl
@[simp] theorem setPort_held (r : Nat) (p : Port) (s : State) : (setPort r p s).held = s.held := rfl
@[simp] theorem setPort_nReq (r : Nat) (p : Port) (s : State) : (setPort r p s).nReq = s.nReq := rfl
@[simp] theorem setPort_ports (r : Nat) (p : Port) (s : State) : (setPort r p s).ports = cellsWrite (some Port.idle) s.ports r [p] := rfl
@[simp] theorem setPort_txlog (r : Nat) (p : Port) (s : State) : (setPort r p s).txlog = s.txlog := rfl
@[simp] theorem setPort_linelog (r : Nat) (p : Port) (s : State) : (setPort r p s).linelog = s.linelog := rfl
@[simp] theorem setPort_faultlog (r : Nat) (p : Port) (s : State) : (setPort r p s).faultlog = s.faultlog := rfl
@[simp] theorem setPort_me (r : Nat) (p : Port) (s : State) : (setPort r p s).me = s.me := rfl
@[simp] theorem setPort_sched (r : Nat) (p : Port) (s : State) : (setPort r p s).sched = s.sched := rfl
@[simp] theorem setPort_offer (r : Nat) (p : Port) (s : State) : (setPort r p s).offer = s.offer := rfl
@[simp] theorem setPort_turn (r : Nat) (p : Port) (s : State) : (setPort r p s).turn = s.turn := rfl
@[simp] theorem setPort_drawSegs (r : Nat) (p : Port) (s : State) : (setPort r p s).drawSegs = s.drawSegs := rfl
@[simp] theorem setPort_drawCut (r : Nat) (p : Port) (s : State) : (setPort r p s).drawCut = s.drawCut := rfl
@[simp] theorem setPort_encOut (r : Nat) (p : Port) (s : State) : (setPort r p s).encOut = s.encOut := rfl

/-! ### setOwed -/

@[simp] theorem setOwed_frame (b : Bool) (s : State) : (setOwed b s).frame = s.frame := rfl
@[simp] theorem setOwed_guard (b : Bool) (s : State) : (setOwed b s).guard = s.guard := rfl
@[simp] theorem setOwed_pending (b : Bool) (s : State) : (setOwed b s).pending = s.pending := rfl
@[simp] theorem setOwed_seqState (b : Bool) (s : State) : (setOwed b s).seqState = s.seqState := rfl
@[simp] theorem setOwed_k (b : Bool) (s : State) : (setOwed b s).k = s.k := rfl
@[simp] theorem setOwed_snap (b : Bool) (s : State) : (setOwed b s).snap = s.snap := rfl
@[simp] theorem setOwed_staging (b : Bool) (s : State) : (setOwed b s).staging = s.staging := rfl
@[simp] theorem setOwed_gapt (b : Bool) (s : State) : (setOwed b s).gapt = s.gapt := rfl
@[simp] theorem setOwed_txs (b : Bool) (s : State) : (setOwed b s).txs = s.txs := rfl
@[simp] theorem setOwed_txbuf (b : Bool) (s : State) : (setOwed b s).txbuf = s.txbuf := rfl
@[simp] theorem setOwed_play (b : Bool) (s : State) : (setOwed b s).play = s.play := rfl
@[simp] theorem setOwed_line (b : Bool) (s : State) : (setOwed b s).line = s.line := rfl
@[simp] theorem setOwed_fault (b : Bool) (s : State) : (setOwed b s).fault = s.fault := rfl
@[simp] theorem setOwed_faultChunk (b : Bool) (s : State) : (setOwed b s).faultChunk = s.faultChunk := rfl
@[simp] theorem setOwed_cfg (b : Bool) (s : State) : (setOwed b s).cfg = s.cfg := rfl
@[simp] theorem setOwed_held (b : Bool) (s : State) : (setOwed b s).held = s.held := rfl
@[simp] theorem setOwed_nReq (b : Bool) (s : State) : (setOwed b s).nReq = s.nReq := rfl
@[simp] theorem setOwed_ports (b : Bool) (s : State) : (setOwed b s).ports = cellsWrite (some Port.idle) s.ports s.me [{ (s.port s.me) with nowed := b }] := rfl
@[simp] theorem setOwed_txlog (b : Bool) (s : State) : (setOwed b s).txlog = s.txlog := rfl
@[simp] theorem setOwed_linelog (b : Bool) (s : State) : (setOwed b s).linelog = s.linelog := rfl
@[simp] theorem setOwed_faultlog (b : Bool) (s : State) : (setOwed b s).faultlog = s.faultlog := rfl
@[simp] theorem setOwed_me (b : Bool) (s : State) : (setOwed b s).me = s.me := rfl
@[simp] theorem setOwed_sched (b : Bool) (s : State) : (setOwed b s).sched = s.sched := rfl
@[simp] theorem setOwed_offer (b : Bool) (s : State) : (setOwed b s).offer = s.offer := rfl
@[simp] theorem setOwed_turn (b : Bool) (s : State) : (setOwed b s).turn = s.turn := rfl
@[simp] theorem setOwed_drawSegs (b : Bool) (s : State) : (setOwed b s).drawSegs = s.drawSegs := rfl
@[simp] theorem setOwed_drawCut (b : Bool) (s : State) : (setOwed b s).drawCut = s.drawCut := rfl
@[simp] theorem setOwed_encOut (b : Bool) (s : State) : (setOwed b s).encOut = s.encOut := rfl

/-! ### respond -/

@[simp] theorem respond_frame (st : Status) (data : BitVec 24) (s : State) : (respond st data s).frame = s.frame := rfl
@[simp] theorem respond_guard (st : Status) (data : BitVec 24) (s : State) : (respond st data s).guard = s.guard := rfl
@[simp] theorem respond_pending (st : Status) (data : BitVec 24) (s : State) : (respond st data s).pending = s.pending := rfl
@[simp] theorem respond_seqState (st : Status) (data : BitVec 24) (s : State) : (respond st data s).seqState = s.seqState := rfl
@[simp] theorem respond_k (st : Status) (data : BitVec 24) (s : State) : (respond st data s).k = s.k := rfl
@[simp] theorem respond_snap (st : Status) (data : BitVec 24) (s : State) : (respond st data s).snap = s.snap := rfl
@[simp] theorem respond_staging (st : Status) (data : BitVec 24) (s : State) : (respond st data s).staging = s.staging := rfl
@[simp] theorem respond_gapt (st : Status) (data : BitVec 24) (s : State) : (respond st data s).gapt = s.gapt := rfl
@[simp] theorem respond_txs (st : Status) (data : BitVec 24) (s : State) : (respond st data s).txs = s.txs := rfl
@[simp] theorem respond_txbuf (st : Status) (data : BitVec 24) (s : State) : (respond st data s).txbuf = s.txbuf := rfl
@[simp] theorem respond_play (st : Status) (data : BitVec 24) (s : State) : (respond st data s).play = s.play := rfl
@[simp] theorem respond_line (st : Status) (data : BitVec 24) (s : State) : (respond st data s).line = s.line := rfl
@[simp] theorem respond_fault (st : Status) (data : BitVec 24) (s : State) : (respond st data s).fault = s.fault := rfl
@[simp] theorem respond_faultChunk (st : Status) (data : BitVec 24) (s : State) : (respond st data s).faultChunk = s.faultChunk := rfl
@[simp] theorem respond_cfg (st : Status) (data : BitVec 24) (s : State) : (respond st data s).cfg = s.cfg := rfl
@[simp] theorem respond_held (st : Status) (data : BitVec 24) (s : State) : (respond st data s).held = s.held := rfl
@[simp] theorem respond_nReq (st : Status) (data : BitVec 24) (s : State) : (respond st data s).nReq = s.nReq := rfl
@[simp] theorem respond_ports (st : Status) (data : BitVec 24) (s : State) : (respond st data s).ports = cellsWrite (some Port.idle) s.ports s.me [{ (s.port s.me) with cmd := none, rsp := some (rspWord st data) }] := rfl
@[simp] theorem respond_txlog (st : Status) (data : BitVec 24) (s : State) : (respond st data s).txlog = s.txlog := rfl
@[simp] theorem respond_linelog (st : Status) (data : BitVec 24) (s : State) : (respond st data s).linelog = s.linelog := rfl
@[simp] theorem respond_faultlog (st : Status) (data : BitVec 24) (s : State) : (respond st data s).faultlog = s.faultlog := rfl
@[simp] theorem respond_me (st : Status) (data : BitVec 24) (s : State) : (respond st data s).me = s.me := rfl
@[simp] theorem respond_sched (st : Status) (data : BitVec 24) (s : State) : (respond st data s).sched = s.sched := rfl
@[simp] theorem respond_offer (st : Status) (data : BitVec 24) (s : State) : (respond st data s).offer = s.offer := rfl
@[simp] theorem respond_turn (st : Status) (data : BitVec 24) (s : State) : (respond st data s).turn = s.turn := rfl
@[simp] theorem respond_drawSegs (st : Status) (data : BitVec 24) (s : State) : (respond st data s).drawSegs = s.drawSegs := rfl
@[simp] theorem respond_drawCut (st : Status) (data : BitVec 24) (s : State) : (respond st data s).drawCut = s.drawCut := rfl
@[simp] theorem respond_encOut (st : Status) (data : BitVec 24) (s : State) : (respond st data s).encOut = s.encOut := rfl

/-! ### presentCmd -/

@[simp] theorem presentCmd_frame (r : Nat) (w : Word) (s : State) : (presentCmd r w s).frame = s.frame := rfl
@[simp] theorem presentCmd_guard (r : Nat) (w : Word) (s : State) : (presentCmd r w s).guard = s.guard := rfl
@[simp] theorem presentCmd_pending (r : Nat) (w : Word) (s : State) : (presentCmd r w s).pending = s.pending := rfl
@[simp] theorem presentCmd_seqState (r : Nat) (w : Word) (s : State) : (presentCmd r w s).seqState = s.seqState := rfl
@[simp] theorem presentCmd_k (r : Nat) (w : Word) (s : State) : (presentCmd r w s).k = s.k := rfl
@[simp] theorem presentCmd_snap (r : Nat) (w : Word) (s : State) : (presentCmd r w s).snap = s.snap := rfl
@[simp] theorem presentCmd_staging (r : Nat) (w : Word) (s : State) : (presentCmd r w s).staging = s.staging := rfl
@[simp] theorem presentCmd_gapt (r : Nat) (w : Word) (s : State) : (presentCmd r w s).gapt = s.gapt := rfl
@[simp] theorem presentCmd_txs (r : Nat) (w : Word) (s : State) : (presentCmd r w s).txs = s.txs := rfl
@[simp] theorem presentCmd_txbuf (r : Nat) (w : Word) (s : State) : (presentCmd r w s).txbuf = s.txbuf := rfl
@[simp] theorem presentCmd_play (r : Nat) (w : Word) (s : State) : (presentCmd r w s).play = s.play := rfl
@[simp] theorem presentCmd_line (r : Nat) (w : Word) (s : State) : (presentCmd r w s).line = s.line := rfl
@[simp] theorem presentCmd_fault (r : Nat) (w : Word) (s : State) : (presentCmd r w s).fault = s.fault := rfl
@[simp] theorem presentCmd_faultChunk (r : Nat) (w : Word) (s : State) : (presentCmd r w s).faultChunk = s.faultChunk := rfl
@[simp] theorem presentCmd_cfg (r : Nat) (w : Word) (s : State) : (presentCmd r w s).cfg = s.cfg := rfl
@[simp] theorem presentCmd_held (r : Nat) (w : Word) (s : State) : (presentCmd r w s).held = s.held := rfl
@[simp] theorem presentCmd_nReq (r : Nat) (w : Word) (s : State) : (presentCmd r w s).nReq = s.nReq := rfl
@[simp] theorem presentCmd_ports (r : Nat) (w : Word) (s : State) : (presentCmd r w s).ports = cellsWrite (some Port.idle) s.ports r [{ (s.port r) with cmd := some (s.cmdOf r w), rsp := none }] := rfl
@[simp] theorem presentCmd_txlog (r : Nat) (w : Word) (s : State) : (presentCmd r w s).txlog = s.txlog := rfl
@[simp] theorem presentCmd_linelog (r : Nat) (w : Word) (s : State) : (presentCmd r w s).linelog = s.linelog := rfl
@[simp] theorem presentCmd_faultlog (r : Nat) (w : Word) (s : State) : (presentCmd r w s).faultlog = s.faultlog := rfl
@[simp] theorem presentCmd_me (r : Nat) (w : Word) (s : State) : (presentCmd r w s).me = r := rfl
@[simp] theorem presentCmd_sched (r : Nat) (w : Word) (s : State) : (presentCmd r w s).sched = s.sched := rfl
@[simp] theorem presentCmd_offer (r : Nat) (w : Word) (s : State) : (presentCmd r w s).offer = s.offer := rfl
@[simp] theorem presentCmd_turn (r : Nat) (w : Word) (s : State) : (presentCmd r w s).turn = s.turn := rfl
@[simp] theorem presentCmd_drawSegs (r : Nat) (w : Word) (s : State) : (presentCmd r w s).drawSegs = s.drawSegs := rfl
@[simp] theorem presentCmd_drawCut (r : Nat) (w : Word) (s : State) : (presentCmd r w s).drawCut = s.drawCut := rfl
@[simp] theorem presentCmd_encOut (r : Nat) (w : Word) (s : State) : (presentCmd r w s).encOut = s.encOut := rfl

/-! ### raiseTransmitFault -/

@[simp] theorem raiseTransmitFault_frame (k : BitVec 4) (s : State) : (raiseTransmitFault k s).frame = s.frame := rfl
@[simp] theorem raiseTransmitFault_guard (k : BitVec 4) (s : State) : (raiseTransmitFault k s).guard = s.guard := rfl
@[simp] theorem raiseTransmitFault_pending (k : BitVec 4) (s : State) : (raiseTransmitFault k s).pending = s.pending := rfl
@[simp] theorem raiseTransmitFault_seqState (k : BitVec 4) (s : State) : (raiseTransmitFault k s).seqState = s.seqState := rfl
@[simp] theorem raiseTransmitFault_k (k : BitVec 4) (s : State) : (raiseTransmitFault k s).k = s.k := rfl
@[simp] theorem raiseTransmitFault_snap (k : BitVec 4) (s : State) : (raiseTransmitFault k s).snap = s.snap := rfl
@[simp] theorem raiseTransmitFault_staging (k : BitVec 4) (s : State) : (raiseTransmitFault k s).staging = s.staging := rfl
@[simp] theorem raiseTransmitFault_gapt (k : BitVec 4) (s : State) : (raiseTransmitFault k s).gapt = s.gapt := rfl
@[simp] theorem raiseTransmitFault_txs (k : BitVec 4) (s : State) : (raiseTransmitFault k s).txs = s.txs := rfl
@[simp] theorem raiseTransmitFault_txbuf (k : BitVec 4) (s : State) : (raiseTransmitFault k s).txbuf = s.txbuf := rfl
@[simp] theorem raiseTransmitFault_play (k : BitVec 4) (s : State) : (raiseTransmitFault k s).play = s.play := rfl
@[simp] theorem raiseTransmitFault_line (k : BitVec 4) (s : State) : (raiseTransmitFault k s).line = s.line := rfl
@[simp] theorem raiseTransmitFault_fault (k : BitVec 4) (s : State) : (raiseTransmitFault k s).fault = true := rfl
@[simp] theorem raiseTransmitFault_faultChunk (k : BitVec 4) (s : State) : (raiseTransmitFault k s).faultChunk = k := rfl
@[simp] theorem raiseTransmitFault_cfg (k : BitVec 4) (s : State) : (raiseTransmitFault k s).cfg = s.cfg := rfl
@[simp] theorem raiseTransmitFault_held (k : BitVec 4) (s : State) : (raiseTransmitFault k s).held = s.held := rfl
@[simp] theorem raiseTransmitFault_nReq (k : BitVec 4) (s : State) : (raiseTransmitFault k s).nReq = s.nReq := rfl
@[simp] theorem raiseTransmitFault_ports (k : BitVec 4) (s : State) : (raiseTransmitFault k s).ports = s.ports := rfl
@[simp] theorem raiseTransmitFault_txlog (k : BitVec 4) (s : State) : (raiseTransmitFault k s).txlog = s.txlog := rfl
@[simp] theorem raiseTransmitFault_linelog (k : BitVec 4) (s : State) : (raiseTransmitFault k s).linelog = s.linelog := rfl
@[simp] theorem raiseTransmitFault_faultlog (k : BitVec 4) (s : State) : (raiseTransmitFault k s).faultlog = s.faultlog ++ [k] := rfl
@[simp] theorem raiseTransmitFault_me (k : BitVec 4) (s : State) : (raiseTransmitFault k s).me = s.me := rfl
@[simp] theorem raiseTransmitFault_sched (k : BitVec 4) (s : State) : (raiseTransmitFault k s).sched = s.sched := rfl
@[simp] theorem raiseTransmitFault_offer (k : BitVec 4) (s : State) : (raiseTransmitFault k s).offer = s.offer := rfl
@[simp] theorem raiseTransmitFault_turn (k : BitVec 4) (s : State) : (raiseTransmitFault k s).turn = s.turn := rfl
@[simp] theorem raiseTransmitFault_drawSegs (k : BitVec 4) (s : State) : (raiseTransmitFault k s).drawSegs = s.drawSegs := rfl
@[simp] theorem raiseTransmitFault_drawCut (k : BitVec 4) (s : State) : (raiseTransmitFault k s).drawCut = s.drawCut := rfl
@[simp] theorem raiseTransmitFault_encOut (k : BitVec 4) (s : State) : (raiseTransmitFault k s).encOut = s.encOut := rfl

/-! ### enterResetDelay -/

@[simp] theorem enterResetDelay_frame (s : State) : (enterResetDelay s).frame = s.frame := rfl
@[simp] theorem enterResetDelay_guard (s : State) : (enterResetDelay s).guard = s.guard := rfl
@[simp] theorem enterResetDelay_pending (s : State) : (enterResetDelay s).pending = s.pending := rfl
@[simp] theorem enterResetDelay_seqState (s : State) : (enterResetDelay s).seqState = .resetDelay := rfl
@[simp] theorem enterResetDelay_k (s : State) : (enterResetDelay s).k = s.k := rfl
@[simp] theorem enterResetDelay_snap (s : State) : (enterResetDelay s).snap = s.snap := rfl
@[simp] theorem enterResetDelay_staging (s : State) : (enterResetDelay s).staging = s.staging := rfl
@[simp] theorem enterResetDelay_gapt (s : State) : (enterResetDelay s).gapt = some 0 := rfl
@[simp] theorem enterResetDelay_txs (s : State) : (enterResetDelay s).txs = s.txs := rfl
@[simp] theorem enterResetDelay_txbuf (s : State) : (enterResetDelay s).txbuf = s.txbuf := rfl
@[simp] theorem enterResetDelay_play (s : State) : (enterResetDelay s).play = s.play := rfl
@[simp] theorem enterResetDelay_line (s : State) : (enterResetDelay s).line = s.line := rfl
@[simp] theorem enterResetDelay_fault (s : State) : (enterResetDelay s).fault = s.fault := rfl
@[simp] theorem enterResetDelay_faultChunk (s : State) : (enterResetDelay s).faultChunk = s.faultChunk := rfl
@[simp] theorem enterResetDelay_cfg (s : State) : (enterResetDelay s).cfg = s.cfg := rfl
@[simp] theorem enterResetDelay_held (s : State) : (enterResetDelay s).held = s.held := rfl
@[simp] theorem enterResetDelay_nReq (s : State) : (enterResetDelay s).nReq = s.nReq := rfl
@[simp] theorem enterResetDelay_ports (s : State) : (enterResetDelay s).ports = s.ports := rfl
@[simp] theorem enterResetDelay_txlog (s : State) : (enterResetDelay s).txlog = s.txlog := rfl
@[simp] theorem enterResetDelay_linelog (s : State) : (enterResetDelay s).linelog = s.linelog := rfl
@[simp] theorem enterResetDelay_faultlog (s : State) : (enterResetDelay s).faultlog = s.faultlog := rfl
@[simp] theorem enterResetDelay_me (s : State) : (enterResetDelay s).me = s.me := rfl
@[simp] theorem enterResetDelay_sched (s : State) : (enterResetDelay s).sched = s.sched := rfl
@[simp] theorem enterResetDelay_offer (s : State) : (enterResetDelay s).offer = s.offer := rfl
@[simp] theorem enterResetDelay_turn (s : State) : (enterResetDelay s).turn = s.turn := rfl
@[simp] theorem enterResetDelay_drawSegs (s : State) : (enterResetDelay s).drawSegs = s.drawSegs := rfl
@[simp] theorem enterResetDelay_drawCut (s : State) : (enterResetDelay s).drawCut = s.drawCut := rfl
@[simp] theorem enterResetDelay_encOut (s : State) : (enterResetDelay s).encOut = s.encOut := rfl

/-! ### leaveResetDelay -/

@[simp] theorem leaveResetDelay_frame (s : State) : (leaveResetDelay s).frame = s.frame := rfl
@[simp] theorem leaveResetDelay_guard (s : State) : (leaveResetDelay s).guard = s.guard := rfl
@[simp] theorem leaveResetDelay_pending (s : State) : (leaveResetDelay s).pending = s.pending := rfl
@[simp] theorem leaveResetDelay_seqState (s : State) : (leaveResetDelay s).seqState = .waitingForChange := rfl
@[simp] theorem leaveResetDelay_k (s : State) : (leaveResetDelay s).k = s.k := rfl
@[simp] theorem leaveResetDelay_snap (s : State) : (leaveResetDelay s).snap = s.snap := rfl
@[simp] theorem leaveResetDelay_staging (s : State) : (leaveResetDelay s).staging = s.staging := rfl
@[simp] theorem leaveResetDelay_gapt (s : State) : (leaveResetDelay s).gapt = none := rfl
@[simp] theorem leaveResetDelay_txs (s : State) : (leaveResetDelay s).txs = s.txs := rfl
@[simp] theorem leaveResetDelay_txbuf (s : State) : (leaveResetDelay s).txbuf = s.txbuf := rfl
@[simp] theorem leaveResetDelay_play (s : State) : (leaveResetDelay s).play = s.play := rfl
@[simp] theorem leaveResetDelay_line (s : State) : (leaveResetDelay s).line = s.line := rfl
@[simp] theorem leaveResetDelay_fault (s : State) : (leaveResetDelay s).fault = s.fault := rfl
@[simp] theorem leaveResetDelay_faultChunk (s : State) : (leaveResetDelay s).faultChunk = s.faultChunk := rfl
@[simp] theorem leaveResetDelay_cfg (s : State) : (leaveResetDelay s).cfg = s.cfg := rfl
@[simp] theorem leaveResetDelay_held (s : State) : (leaveResetDelay s).held = s.held := rfl
@[simp] theorem leaveResetDelay_nReq (s : State) : (leaveResetDelay s).nReq = s.nReq := rfl
@[simp] theorem leaveResetDelay_ports (s : State) : (leaveResetDelay s).ports = s.ports := rfl
@[simp] theorem leaveResetDelay_txlog (s : State) : (leaveResetDelay s).txlog = s.txlog := rfl
@[simp] theorem leaveResetDelay_linelog (s : State) : (leaveResetDelay s).linelog = s.linelog := rfl
@[simp] theorem leaveResetDelay_faultlog (s : State) : (leaveResetDelay s).faultlog = s.faultlog := rfl
@[simp] theorem leaveResetDelay_me (s : State) : (leaveResetDelay s).me = s.me := rfl
@[simp] theorem leaveResetDelay_sched (s : State) : (leaveResetDelay s).sched = s.sched := rfl
@[simp] theorem leaveResetDelay_offer (s : State) : (leaveResetDelay s).offer = s.offer := rfl
@[simp] theorem leaveResetDelay_turn (s : State) : (leaveResetDelay s).turn = s.turn := rfl
@[simp] theorem leaveResetDelay_drawSegs (s : State) : (leaveResetDelay s).drawSegs = s.drawSegs := rfl
@[simp] theorem leaveResetDelay_drawCut (s : State) : (leaveResetDelay s).drawCut = s.drawCut := rfl
@[simp] theorem leaveResetDelay_encOut (s : State) : (leaveResetDelay s).encOut = s.encOut := rfl

/-! ### logSubmission -/

@[simp] theorem logSubmission_frame (c : List Word) (res : TxResult) (s : State) : (logSubmission c res s).frame = s.frame := rfl
@[simp] theorem logSubmission_guard (c : List Word) (res : TxResult) (s : State) : (logSubmission c res s).guard = s.guard := rfl
@[simp] theorem logSubmission_pending (c : List Word) (res : TxResult) (s : State) : (logSubmission c res s).pending = s.pending := rfl
@[simp] theorem logSubmission_seqState (c : List Word) (res : TxResult) (s : State) : (logSubmission c res s).seqState = s.seqState := rfl
@[simp] theorem logSubmission_k (c : List Word) (res : TxResult) (s : State) : (logSubmission c res s).k = s.k := rfl
@[simp] theorem logSubmission_snap (c : List Word) (res : TxResult) (s : State) : (logSubmission c res s).snap = s.snap := rfl
@[simp] theorem logSubmission_staging (c : List Word) (res : TxResult) (s : State) : (logSubmission c res s).staging = s.staging := rfl
@[simp] theorem logSubmission_gapt (c : List Word) (res : TxResult) (s : State) : (logSubmission c res s).gapt = s.gapt := rfl
@[simp] theorem logSubmission_txs (c : List Word) (res : TxResult) (s : State) : (logSubmission c res s).txs = s.txs := rfl
@[simp] theorem logSubmission_txbuf (c : List Word) (res : TxResult) (s : State) : (logSubmission c res s).txbuf = s.txbuf := rfl
@[simp] theorem logSubmission_play (c : List Word) (res : TxResult) (s : State) : (logSubmission c res s).play = s.play := rfl
@[simp] theorem logSubmission_line (c : List Word) (res : TxResult) (s : State) : (logSubmission c res s).line = s.line := rfl
@[simp] theorem logSubmission_fault (c : List Word) (res : TxResult) (s : State) : (logSubmission c res s).fault = s.fault := rfl
@[simp] theorem logSubmission_faultChunk (c : List Word) (res : TxResult) (s : State) : (logSubmission c res s).faultChunk = s.faultChunk := rfl
@[simp] theorem logSubmission_cfg (c : List Word) (res : TxResult) (s : State) : (logSubmission c res s).cfg = s.cfg := rfl
@[simp] theorem logSubmission_held (c : List Word) (res : TxResult) (s : State) : (logSubmission c res s).held = s.held := rfl
@[simp] theorem logSubmission_nReq (c : List Word) (res : TxResult) (s : State) : (logSubmission c res s).nReq = s.nReq := rfl
@[simp] theorem logSubmission_ports (c : List Word) (res : TxResult) (s : State) : (logSubmission c res s).ports = s.ports := rfl
@[simp] theorem logSubmission_txlog (c : List Word) (res : TxResult) (s : State) : (logSubmission c res s).txlog = s.txlog ++ [⟨s.k, c, res⟩] := rfl
@[simp] theorem logSubmission_linelog (c : List Word) (res : TxResult) (s : State) : (logSubmission c res s).linelog = s.linelog := rfl
@[simp] theorem logSubmission_faultlog (c : List Word) (res : TxResult) (s : State) : (logSubmission c res s).faultlog = s.faultlog := rfl
@[simp] theorem logSubmission_me (c : List Word) (res : TxResult) (s : State) : (logSubmission c res s).me = s.me := rfl
@[simp] theorem logSubmission_sched (c : List Word) (res : TxResult) (s : State) : (logSubmission c res s).sched = s.sched := rfl
@[simp] theorem logSubmission_offer (c : List Word) (res : TxResult) (s : State) : (logSubmission c res s).offer = s.offer := rfl
@[simp] theorem logSubmission_turn (c : List Word) (res : TxResult) (s : State) : (logSubmission c res s).turn = s.turn := rfl
@[simp] theorem logSubmission_drawSegs (c : List Word) (res : TxResult) (s : State) : (logSubmission c res s).drawSegs = s.drawSegs := rfl
@[simp] theorem logSubmission_drawCut (c : List Word) (res : TxResult) (s : State) : (logSubmission c res s).drawCut = s.drawCut := rfl
@[simp] theorem logSubmission_encOut (c : List Word) (res : TxResult) (s : State) : (logSubmission c res s).encOut = s.encOut := rfl

/-! ### logLine -/

@[simp] theorem logLine_frame (items : List LineItem) (s : State) : (logLine items s).frame = s.frame := rfl
@[simp] theorem logLine_guard (items : List LineItem) (s : State) : (logLine items s).guard = s.guard := rfl
@[simp] theorem logLine_pending (items : List LineItem) (s : State) : (logLine items s).pending = s.pending := rfl
@[simp] theorem logLine_seqState (items : List LineItem) (s : State) : (logLine items s).seqState = s.seqState := rfl
@[simp] theorem logLine_k (items : List LineItem) (s : State) : (logLine items s).k = s.k := rfl
@[simp] theorem logLine_snap (items : List LineItem) (s : State) : (logLine items s).snap = s.snap := rfl
@[simp] theorem logLine_staging (items : List LineItem) (s : State) : (logLine items s).staging = s.staging := rfl
@[simp] theorem logLine_gapt (items : List LineItem) (s : State) : (logLine items s).gapt = s.gapt := rfl
@[simp] theorem logLine_txs (items : List LineItem) (s : State) : (logLine items s).txs = s.txs := rfl
@[simp] theorem logLine_txbuf (items : List LineItem) (s : State) : (logLine items s).txbuf = s.txbuf := rfl
@[simp] theorem logLine_play (items : List LineItem) (s : State) : (logLine items s).play = s.play := rfl
@[simp] theorem logLine_line (items : List LineItem) (s : State) : (logLine items s).line = s.line := rfl
@[simp] theorem logLine_fault (items : List LineItem) (s : State) : (logLine items s).fault = s.fault := rfl
@[simp] theorem logLine_faultChunk (items : List LineItem) (s : State) : (logLine items s).faultChunk = s.faultChunk := rfl
@[simp] theorem logLine_cfg (items : List LineItem) (s : State) : (logLine items s).cfg = s.cfg := rfl
@[simp] theorem logLine_held (items : List LineItem) (s : State) : (logLine items s).held = s.held := rfl
@[simp] theorem logLine_nReq (items : List LineItem) (s : State) : (logLine items s).nReq = s.nReq := rfl
@[simp] theorem logLine_ports (items : List LineItem) (s : State) : (logLine items s).ports = s.ports := rfl
@[simp] theorem logLine_txlog (items : List LineItem) (s : State) : (logLine items s).txlog = s.txlog := rfl
@[simp] theorem logLine_linelog (items : List LineItem) (s : State) : (logLine items s).linelog = s.linelog ++ items := rfl
@[simp] theorem logLine_faultlog (items : List LineItem) (s : State) : (logLine items s).faultlog = s.faultlog := rfl
@[simp] theorem logLine_me (items : List LineItem) (s : State) : (logLine items s).me = s.me := rfl
@[simp] theorem logLine_sched (items : List LineItem) (s : State) : (logLine items s).sched = s.sched := rfl
@[simp] theorem logLine_offer (items : List LineItem) (s : State) : (logLine items s).offer = s.offer := rfl
@[simp] theorem logLine_turn (items : List LineItem) (s : State) : (logLine items s).turn = s.turn := rfl
@[simp] theorem logLine_drawSegs (items : List LineItem) (s : State) : (logLine items s).drawSegs = s.drawSegs := rfl
@[simp] theorem logLine_drawCut (items : List LineItem) (s : State) : (logLine items s).drawCut = s.drawCut := rfl
@[simp] theorem logLine_encOut (items : List LineItem) (s : State) : (logLine items s).encOut = s.encOut := rfl

/-! ### elapseTime -/

@[simp] theorem elapseTime_frame (us : Nat) (s : State) : (elapseTime us s).frame = s.frame := rfl
@[simp] theorem elapseTime_guard (us : Nat) (s : State) : (elapseTime us s).guard = s.guard := rfl
@[simp] theorem elapseTime_pending (us : Nat) (s : State) : (elapseTime us s).pending = s.pending := rfl
@[simp] theorem elapseTime_seqState (us : Nat) (s : State) : (elapseTime us s).seqState = s.seqState := rfl
@[simp] theorem elapseTime_k (us : Nat) (s : State) : (elapseTime us s).k = s.k := rfl
@[simp] theorem elapseTime_snap (us : Nat) (s : State) : (elapseTime us s).snap = s.snap := rfl
@[simp] theorem elapseTime_staging (us : Nat) (s : State) : (elapseTime us s).staging = s.staging := rfl
@[simp] theorem elapseTime_gapt (us : Nat) (s : State) : (elapseTime us s).gapt = s.gapt.map (fun t => t + us) := rfl
@[simp] theorem elapseTime_txs (us : Nat) (s : State) : (elapseTime us s).txs = s.txs := rfl
@[simp] theorem elapseTime_txbuf (us : Nat) (s : State) : (elapseTime us s).txbuf = s.txbuf := rfl
@[simp] theorem elapseTime_play (us : Nat) (s : State) : (elapseTime us s).play = s.play := rfl
@[simp] theorem elapseTime_line (us : Nat) (s : State) : (elapseTime us s).line = s.line := rfl
@[simp] theorem elapseTime_fault (us : Nat) (s : State) : (elapseTime us s).fault = s.fault := rfl
@[simp] theorem elapseTime_faultChunk (us : Nat) (s : State) : (elapseTime us s).faultChunk = s.faultChunk := rfl
@[simp] theorem elapseTime_cfg (us : Nat) (s : State) : (elapseTime us s).cfg = s.cfg := rfl
@[simp] theorem elapseTime_held (us : Nat) (s : State) : (elapseTime us s).held = s.held := rfl
@[simp] theorem elapseTime_nReq (us : Nat) (s : State) : (elapseTime us s).nReq = s.nReq := rfl
@[simp] theorem elapseTime_ports (us : Nat) (s : State) : (elapseTime us s).ports = s.ports := rfl
@[simp] theorem elapseTime_txlog (us : Nat) (s : State) : (elapseTime us s).txlog = s.txlog := rfl
@[simp] theorem elapseTime_linelog (us : Nat) (s : State) : (elapseTime us s).linelog = s.linelog := rfl
@[simp] theorem elapseTime_faultlog (us : Nat) (s : State) : (elapseTime us s).faultlog = s.faultlog := rfl
@[simp] theorem elapseTime_me (us : Nat) (s : State) : (elapseTime us s).me = s.me := rfl
@[simp] theorem elapseTime_sched (us : Nat) (s : State) : (elapseTime us s).sched = s.sched := rfl
@[simp] theorem elapseTime_offer (us : Nat) (s : State) : (elapseTime us s).offer = s.offer := rfl
@[simp] theorem elapseTime_turn (us : Nat) (s : State) : (elapseTime us s).turn = s.turn := rfl
@[simp] theorem elapseTime_drawSegs (us : Nat) (s : State) : (elapseTime us s).drawSegs = s.drawSegs := rfl
@[simp] theorem elapseTime_drawCut (us : Nat) (s : State) : (elapseTime us s).drawCut = s.drawCut := rfl
@[simp] theorem elapseTime_encOut (us : Nat) (s : State) : (elapseTime us s).encOut = s.encOut := rfl

/-! ### copySnapshot -/

@[simp] theorem copySnapshot_frame (s : State) : (copySnapshot s).frame = s.frame := rfl
@[simp] theorem copySnapshot_guard (s : State) : (copySnapshot s).guard = s.guard := rfl
@[simp] theorem copySnapshot_pending (s : State) : (copySnapshot s).pending = s.pending := rfl
@[simp] theorem copySnapshot_seqState (s : State) : (copySnapshot s).seqState = s.seqState := rfl
@[simp] theorem copySnapshot_k (s : State) : (copySnapshot s).k = s.k := rfl
@[simp] theorem copySnapshot_snap (s : State) : (copySnapshot s).snap = cellsWrite unwritten s.snap 0 s.frameBytes := rfl
@[simp] theorem copySnapshot_staging (s : State) : (copySnapshot s).staging = s.staging := rfl
@[simp] theorem copySnapshot_gapt (s : State) : (copySnapshot s).gapt = s.gapt := rfl
@[simp] theorem copySnapshot_txs (s : State) : (copySnapshot s).txs = s.txs := rfl
@[simp] theorem copySnapshot_txbuf (s : State) : (copySnapshot s).txbuf = s.txbuf := rfl
@[simp] theorem copySnapshot_play (s : State) : (copySnapshot s).play = s.play := rfl
@[simp] theorem copySnapshot_line (s : State) : (copySnapshot s).line = s.line := rfl
@[simp] theorem copySnapshot_fault (s : State) : (copySnapshot s).fault = s.fault := rfl
@[simp] theorem copySnapshot_faultChunk (s : State) : (copySnapshot s).faultChunk = s.faultChunk := rfl
@[simp] theorem copySnapshot_cfg (s : State) : (copySnapshot s).cfg = s.cfg := rfl
@[simp] theorem copySnapshot_held (s : State) : (copySnapshot s).held = s.held := rfl
@[simp] theorem copySnapshot_nReq (s : State) : (copySnapshot s).nReq = s.nReq := rfl
@[simp] theorem copySnapshot_ports (s : State) : (copySnapshot s).ports = s.ports := rfl
@[simp] theorem copySnapshot_txlog (s : State) : (copySnapshot s).txlog = s.txlog := rfl
@[simp] theorem copySnapshot_linelog (s : State) : (copySnapshot s).linelog = s.linelog := rfl
@[simp] theorem copySnapshot_faultlog (s : State) : (copySnapshot s).faultlog = s.faultlog := rfl
@[simp] theorem copySnapshot_me (s : State) : (copySnapshot s).me = s.me := rfl
@[simp] theorem copySnapshot_sched (s : State) : (copySnapshot s).sched = s.sched := rfl
@[simp] theorem copySnapshot_offer (s : State) : (copySnapshot s).offer = s.offer := rfl
@[simp] theorem copySnapshot_turn (s : State) : (copySnapshot s).turn = s.turn := rfl
@[simp] theorem copySnapshot_drawSegs (s : State) : (copySnapshot s).drawSegs = s.drawSegs := rfl
@[simp] theorem copySnapshot_drawCut (s : State) : (copySnapshot s).drawCut = s.drawCut := rfl
@[simp] theorem copySnapshot_encOut (s : State) : (copySnapshot s).encOut = s.encOut := rfl

/-! ### stageFrame -/

@[simp] theorem stageFrame_frame (bytes : List Byte) (s : State) : (stageFrame bytes s).frame = s.frame := rfl
@[simp] theorem stageFrame_guard (bytes : List Byte) (s : State) : (stageFrame bytes s).guard = s.guard := rfl
@[simp] theorem stageFrame_pending (bytes : List Byte) (s : State) : (stageFrame bytes s).pending = s.pending := rfl
@[simp] theorem stageFrame_seqState (bytes : List Byte) (s : State) : (stageFrame bytes s).seqState = s.seqState := rfl
@[simp] theorem stageFrame_k (bytes : List Byte) (s : State) : (stageFrame bytes s).k = s.k := rfl
@[simp] theorem stageFrame_snap (bytes : List Byte) (s : State) : (stageFrame bytes s).snap = s.snap := rfl
@[simp] theorem stageFrame_staging (bytes : List Byte) (s : State) : (stageFrame bytes s).staging = cellsWrite unwritten s.staging 0 (encodeFrame s.cfg bytes).flatten := rfl
@[simp] theorem stageFrame_gapt (bytes : List Byte) (s : State) : (stageFrame bytes s).gapt = s.gapt := rfl
@[simp] theorem stageFrame_txs (bytes : List Byte) (s : State) : (stageFrame bytes s).txs = s.txs := rfl
@[simp] theorem stageFrame_txbuf (bytes : List Byte) (s : State) : (stageFrame bytes s).txbuf = s.txbuf := rfl
@[simp] theorem stageFrame_play (bytes : List Byte) (s : State) : (stageFrame bytes s).play = s.play := rfl
@[simp] theorem stageFrame_line (bytes : List Byte) (s : State) : (stageFrame bytes s).line = s.line := rfl
@[simp] theorem stageFrame_fault (bytes : List Byte) (s : State) : (stageFrame bytes s).fault = s.fault := rfl
@[simp] theorem stageFrame_faultChunk (bytes : List Byte) (s : State) : (stageFrame bytes s).faultChunk = s.faultChunk := rfl
@[simp] theorem stageFrame_cfg (bytes : List Byte) (s : State) : (stageFrame bytes s).cfg = s.cfg := rfl
@[simp] theorem stageFrame_held (bytes : List Byte) (s : State) : (stageFrame bytes s).held = s.held := rfl
@[simp] theorem stageFrame_nReq (bytes : List Byte) (s : State) : (stageFrame bytes s).nReq = s.nReq := rfl
@[simp] theorem stageFrame_ports (bytes : List Byte) (s : State) : (stageFrame bytes s).ports = s.ports := rfl
@[simp] theorem stageFrame_txlog (bytes : List Byte) (s : State) : (stageFrame bytes s).txlog = s.txlog := rfl
@[simp] theorem stageFrame_linelog (bytes : List Byte) (s : State) : (stageFrame bytes s).linelog = s.linelog := rfl
@[simp] theorem stageFrame_faultlog (bytes : List Byte) (s : State) : (stageFrame bytes s).faultlog = s.faultlog := rfl
@[simp] theorem stageFrame_me (bytes : List Byte) (s : State) : (stageFrame bytes s).me = s.me := rfl
@[simp] theorem stageFrame_sched (bytes : List Byte) (s : State) : (stageFrame bytes s).sched = s.sched := rfl
@[simp] theorem stageFrame_offer (bytes : List Byte) (s : State) : (stageFrame bytes s).offer = s.offer := rfl
@[simp] theorem stageFrame_turn (bytes : List Byte) (s : State) : (stageFrame bytes s).turn = s.turn := rfl
@[simp] theorem stageFrame_drawSegs (bytes : List Byte) (s : State) : (stageFrame bytes s).drawSegs = s.drawSegs := rfl
@[simp] theorem stageFrame_drawCut (bytes : List Byte) (s : State) : (stageFrame bytes s).drawCut = s.drawCut := rfl
@[simp] theorem stageFrame_encOut (bytes : List Byte) (s : State) : (stageFrame bytes s).encOut = s.encOut := rfl

/-! ### offerChunk -/

@[simp] theorem offerChunk_frame (c : List Word) (s : State) : (offerChunk c s).frame = s.frame := rfl
@[simp] theorem offerChunk_guard (c : List Word) (s : State) : (offerChunk c s).guard = s.guard := rfl
@[simp] theorem offerChunk_pending (c : List Word) (s : State) : (offerChunk c s).pending = s.pending := rfl
@[simp] theorem offerChunk_seqState (c : List Word) (s : State) : (offerChunk c s).seqState = s.seqState := rfl
@[simp] theorem offerChunk_k (c : List Word) (s : State) : (offerChunk c s).k = s.k := rfl
@[simp] theorem offerChunk_snap (c : List Word) (s : State) : (offerChunk c s).snap = s.snap := rfl
@[simp] theorem offerChunk_staging (c : List Word) (s : State) : (offerChunk c s).staging = s.staging := rfl
@[simp] theorem offerChunk_gapt (c : List Word) (s : State) : (offerChunk c s).gapt = s.gapt := rfl
@[simp] theorem offerChunk_txs (c : List Word) (s : State) : (offerChunk c s).txs = s.txs := rfl
@[simp] theorem offerChunk_txbuf (c : List Word) (s : State) : (offerChunk c s).txbuf = s.txbuf := rfl
@[simp] theorem offerChunk_play (c : List Word) (s : State) : (offerChunk c s).play = s.play := rfl
@[simp] theorem offerChunk_line (c : List Word) (s : State) : (offerChunk c s).line = s.line := rfl
@[simp] theorem offerChunk_fault (c : List Word) (s : State) : (offerChunk c s).fault = s.fault := rfl
@[simp] theorem offerChunk_faultChunk (c : List Word) (s : State) : (offerChunk c s).faultChunk = s.faultChunk := rfl
@[simp] theorem offerChunk_cfg (c : List Word) (s : State) : (offerChunk c s).cfg = s.cfg := rfl
@[simp] theorem offerChunk_held (c : List Word) (s : State) : (offerChunk c s).held = s.held := rfl
@[simp] theorem offerChunk_nReq (c : List Word) (s : State) : (offerChunk c s).nReq = s.nReq := rfl
@[simp] theorem offerChunk_ports (c : List Word) (s : State) : (offerChunk c s).ports = s.ports := rfl
@[simp] theorem offerChunk_txlog (c : List Word) (s : State) : (offerChunk c s).txlog = s.txlog := rfl
@[simp] theorem offerChunk_linelog (c : List Word) (s : State) : (offerChunk c s).linelog = s.linelog := rfl
@[simp] theorem offerChunk_faultlog (c : List Word) (s : State) : (offerChunk c s).faultlog = s.faultlog := rfl
@[simp] theorem offerChunk_me (c : List Word) (s : State) : (offerChunk c s).me = s.me := rfl
@[simp] theorem offerChunk_sched (c : List Word) (s : State) : (offerChunk c s).sched = s.sched := rfl
@[simp] theorem offerChunk_offer (c : List Word) (s : State) : (offerChunk c s).offer = some c := rfl
@[simp] theorem offerChunk_turn (c : List Word) (s : State) : (offerChunk c s).turn = s.turn := rfl
@[simp] theorem offerChunk_drawSegs (c : List Word) (s : State) : (offerChunk c s).drawSegs = s.drawSegs := rfl
@[simp] theorem offerChunk_drawCut (c : List Word) (s : State) : (offerChunk c s).drawCut = s.drawCut := rfl
@[simp] theorem offerChunk_encOut (c : List Word) (s : State) : (offerChunk c s).encOut = s.encOut := rfl

/-! ### playSegment -/

@[simp] theorem playSegment_frame (items : List LineItem) (s : State) : (playSegment items s).frame = s.frame := rfl
@[simp] theorem playSegment_guard (items : List LineItem) (s : State) : (playSegment items s).guard = s.guard := rfl
@[simp] theorem playSegment_pending (items : List LineItem) (s : State) : (playSegment items s).pending = s.pending := rfl
@[simp] theorem playSegment_seqState (items : List LineItem) (s : State) : (playSegment items s).seqState = s.seqState := rfl
@[simp] theorem playSegment_k (items : List LineItem) (s : State) : (playSegment items s).k = s.k := rfl
@[simp] theorem playSegment_snap (items : List LineItem) (s : State) : (playSegment items s).snap = s.snap := rfl
@[simp] theorem playSegment_staging (items : List LineItem) (s : State) : (playSegment items s).staging = s.staging := rfl
@[simp] theorem playSegment_gapt (items : List LineItem) (s : State) : (playSegment items s).gapt = s.gapt := rfl
@[simp] theorem playSegment_txs (items : List LineItem) (s : State) : (playSegment items s).txs = s.txs := rfl
@[simp] theorem playSegment_txbuf (items : List LineItem) (s : State) : (playSegment items s).txbuf = s.txbuf := rfl
@[simp] theorem playSegment_play (items : List LineItem) (s : State) : (playSegment items s).play = min (s.play + 1) items.length := rfl
@[simp] theorem playSegment_line (items : List LineItem) (s : State) : (playSegment items s).line = levelAt items s.play := rfl
@[simp] theorem playSegment_fault (items : List LineItem) (s : State) : (playSegment items s).fault = s.fault := rfl
@[simp] theorem playSegment_faultChunk (items : List LineItem) (s : State) : (playSegment items s).faultChunk = s.faultChunk := rfl
@[simp] theorem playSegment_cfg (items : List LineItem) (s : State) : (playSegment items s).cfg = s.cfg := rfl
@[simp] theorem playSegment_held (items : List LineItem) (s : State) : (playSegment items s).held = s.held := rfl
@[simp] theorem playSegment_nReq (items : List LineItem) (s : State) : (playSegment items s).nReq = s.nReq := rfl
@[simp] theorem playSegment_ports (items : List LineItem) (s : State) : (playSegment items s).ports = s.ports := rfl
@[simp] theorem playSegment_txlog (items : List LineItem) (s : State) : (playSegment items s).txlog = s.txlog := rfl
@[simp] theorem playSegment_linelog (items : List LineItem) (s : State) : (playSegment items s).linelog = s.linelog := rfl
@[simp] theorem playSegment_faultlog (items : List LineItem) (s : State) : (playSegment items s).faultlog = s.faultlog := rfl
@[simp] theorem playSegment_me (items : List LineItem) (s : State) : (playSegment items s).me = s.me := rfl
@[simp] theorem playSegment_sched (items : List LineItem) (s : State) : (playSegment items s).sched = s.sched := rfl
@[simp] theorem playSegment_offer (items : List LineItem) (s : State) : (playSegment items s).offer = s.offer := rfl
@[simp] theorem playSegment_turn (items : List LineItem) (s : State) : (playSegment items s).turn = s.turn := rfl
@[simp] theorem playSegment_drawSegs (items : List LineItem) (s : State) : (playSegment items s).drawSegs = s.drawSegs := rfl
@[simp] theorem playSegment_drawCut (items : List LineItem) (s : State) : (playSegment items s).drawCut = s.drawCut := rfl
@[simp] theorem playSegment_encOut (items : List LineItem) (s : State) : (playSegment items s).encOut = s.encOut := rfl

/-! ### endPlay -/

@[simp] theorem endPlay_frame (s : State) : (endPlay s).frame = s.frame := rfl
@[simp] theorem endPlay_guard (s : State) : (endPlay s).guard = s.guard := rfl
@[simp] theorem endPlay_pending (s : State) : (endPlay s).pending = s.pending := rfl
@[simp] theorem endPlay_seqState (s : State) : (endPlay s).seqState = s.seqState := rfl
@[simp] theorem endPlay_k (s : State) : (endPlay s).k = s.k := rfl
@[simp] theorem endPlay_snap (s : State) : (endPlay s).snap = s.snap := rfl
@[simp] theorem endPlay_staging (s : State) : (endPlay s).staging = s.staging := rfl
@[simp] theorem endPlay_gapt (s : State) : (endPlay s).gapt = s.gapt := rfl
@[simp] theorem endPlay_txs (s : State) : (endPlay s).txs = s.txs := rfl
@[simp] theorem endPlay_txbuf (s : State) : (endPlay s).txbuf = s.txbuf := rfl
@[simp] theorem endPlay_play (s : State) : (endPlay s).play = 0 := rfl
@[simp] theorem endPlay_line (s : State) : (endPlay s).line = 0 := rfl
@[simp] theorem endPlay_fault (s : State) : (endPlay s).fault = s.fault := rfl
@[simp] theorem endPlay_faultChunk (s : State) : (endPlay s).faultChunk = s.faultChunk := rfl
@[simp] theorem endPlay_cfg (s : State) : (endPlay s).cfg = s.cfg := rfl
@[simp] theorem endPlay_held (s : State) : (endPlay s).held = s.held := rfl
@[simp] theorem endPlay_nReq (s : State) : (endPlay s).nReq = s.nReq := rfl
@[simp] theorem endPlay_ports (s : State) : (endPlay s).ports = s.ports := rfl
@[simp] theorem endPlay_txlog (s : State) : (endPlay s).txlog = s.txlog := rfl
@[simp] theorem endPlay_linelog (s : State) : (endPlay s).linelog = s.linelog := rfl
@[simp] theorem endPlay_faultlog (s : State) : (endPlay s).faultlog = s.faultlog := rfl
@[simp] theorem endPlay_me (s : State) : (endPlay s).me = s.me := rfl
@[simp] theorem endPlay_sched (s : State) : (endPlay s).sched = s.sched := rfl
@[simp] theorem endPlay_offer (s : State) : (endPlay s).offer = s.offer := rfl
@[simp] theorem endPlay_turn (s : State) : (endPlay s).turn = s.turn := rfl
@[simp] theorem endPlay_drawSegs (s : State) : (endPlay s).drawSegs = s.drawSegs := rfl
@[simp] theorem endPlay_drawCut (s : State) : (endPlay s).drawCut = s.drawCut := rfl
@[simp] theorem endPlay_encOut (s : State) : (endPlay s).encOut = s.encOut := rfl

/-! ### acceptChunk -/

@[simp] theorem acceptChunk_frame (c : List Word) (s : State) : (acceptChunk c s).frame = s.frame := rfl
@[simp] theorem acceptChunk_guard (c : List Word) (s : State) : (acceptChunk c s).guard = s.guard := rfl
@[simp] theorem acceptChunk_pending (c : List Word) (s : State) : (acceptChunk c s).pending = s.pending := rfl
@[simp] theorem acceptChunk_seqState (c : List Word) (s : State) : (acceptChunk c s).seqState = s.seqState := rfl
@[simp] theorem acceptChunk_k (c : List Word) (s : State) : (acceptChunk c s).k = s.k := rfl
@[simp] theorem acceptChunk_snap (c : List Word) (s : State) : (acceptChunk c s).snap = s.snap := rfl
@[simp] theorem acceptChunk_staging (c : List Word) (s : State) : (acceptChunk c s).staging = s.staging := rfl
@[simp] theorem acceptChunk_gapt (c : List Word) (s : State) : (acceptChunk c s).gapt = s.gapt := rfl
@[simp] theorem acceptChunk_txs (c : List Word) (s : State) : (acceptChunk c s).txs = .busy := rfl
@[simp] theorem acceptChunk_txbuf (c : List Word) (s : State) : (acceptChunk c s).txbuf = cellsWrite unwritten s.txbuf 0 c := rfl
@[simp] theorem acceptChunk_play (c : List Word) (s : State) : (acceptChunk c s).play = 0 := rfl
@[simp] theorem acceptChunk_line (c : List Word) (s : State) : (acceptChunk c s).line = s.line := rfl
@[simp] theorem acceptChunk_fault (c : List Word) (s : State) : (acceptChunk c s).fault = s.fault := rfl
@[simp] theorem acceptChunk_faultChunk (c : List Word) (s : State) : (acceptChunk c s).faultChunk = s.faultChunk := rfl
@[simp] theorem acceptChunk_cfg (c : List Word) (s : State) : (acceptChunk c s).cfg = s.cfg := rfl
@[simp] theorem acceptChunk_held (c : List Word) (s : State) : (acceptChunk c s).held = s.held := rfl
@[simp] theorem acceptChunk_nReq (c : List Word) (s : State) : (acceptChunk c s).nReq = s.nReq := rfl
@[simp] theorem acceptChunk_ports (c : List Word) (s : State) : (acceptChunk c s).ports = s.ports := rfl
@[simp] theorem acceptChunk_txlog (c : List Word) (s : State) : (acceptChunk c s).txlog = s.txlog := rfl
@[simp] theorem acceptChunk_linelog (c : List Word) (s : State) : (acceptChunk c s).linelog = s.linelog := rfl
@[simp] theorem acceptChunk_faultlog (c : List Word) (s : State) : (acceptChunk c s).faultlog = s.faultlog := rfl
@[simp] theorem acceptChunk_me (c : List Word) (s : State) : (acceptChunk c s).me = s.me := rfl
@[simp] theorem acceptChunk_sched (c : List Word) (s : State) : (acceptChunk c s).sched = s.sched := rfl
@[simp] theorem acceptChunk_offer (c : List Word) (s : State) : (acceptChunk c s).offer = none := rfl
@[simp] theorem acceptChunk_turn (c : List Word) (s : State) : (acceptChunk c s).turn = s.turn := rfl
@[simp] theorem acceptChunk_drawSegs (c : List Word) (s : State) : (acceptChunk c s).drawSegs = s.drawSegs := rfl
@[simp] theorem acceptChunk_drawCut (c : List Word) (s : State) : (acceptChunk c s).drawCut = s.drawCut := rfl
@[simp] theorem acceptChunk_encOut (c : List Word) (s : State) : (acceptChunk c s).encOut = s.encOut := rfl

/-! ### Composed updates -/

@[simp] theorem raiseIllegalCommand_eq (s : State) : raiseIllegalCommand s = respond .illegalCommand 0 s := rfl

@[simp] theorem raiseIndexOutOfRange_eq (s : State) : raiseIndexOutOfRange s = respond .indexOutOfRange 0 s := rfl

@[simp] theorem finishNotify_eq (s : State) : finishNotify s = respond .ok 0 (setOwed false (notify s)) := rfl

end Sys2Proof.Machine
end

