-- ==== Sys2Proof/Laws/Ops.lean ====
section
/-! SUPPORT. What the shared operations do, each said once: ports, the frame store, the snapshot, the staging buffer and the
transmitter's buffer. -/

namespace Sys2Proof.Machine

/-! ### Ports -/

theorem port_eq_of_ports {s t : State} (h : t.ports = s.ports) (r : Nat) : t.port r = s.port r := by
  unfold State.port
  rw [h]

/-- A port that was written holds what was written; the others are as before. -/
theorem port_of_write {s t : State} {r : Nat} {p : Port}
    (h : t.ports = cellsWrite (some Port.idle) s.ports r [p]) (q : Nat) :
    t.port q = if q = r then p else s.port q := by
  unfold State.port
  rw [h, cellsRead_cellsWrite]
  by_cases hq : q = r
  · subst hq
    rw [if_pos (by simp), if_pos rfl]
    simp
  · rw [if_neg (by simp only [List.length_singleton]; omega), if_neg hq]

@[simp] theorem port_setPort (r : Nat) (p : Port) (s : State) (q : Nat) :
    (setPort r p s).port q = if q = r then p else s.port q := port_of_write rfl q

@[simp] theorem port_setOwed (b : Bool) (s : State) (q : Nat) :
    (setOwed b s).port q = if q = s.me then { (s.port s.me) with nowed := b } else s.port q := port_of_write rfl q

@[simp] theorem port_respond (st : Status) (data : BitVec 24) (s : State) (q : Nat) :
    (respond st data s).port q =
      if q = s.me then { (s.port s.me) with cmd := none, rsp := some (rspWord st data) } else s.port q :=
  port_of_write rfl q

@[simp] theorem port_presentCmd (r : Nat) (w : Word) (s : State) (q : Nat) :
    (presentCmd r w s).port q =
      if q = r then { (s.port r) with cmd := some (s.cmdOf r w), rsp := none } else s.port q :=
  port_of_write rfl q

@[simp] theorem port_acquireGuard (a : Agent) (s : State) (q : Nat) : (acquireGuard a s).port q = s.port q := rfl

@[simp] theorem port_releaseGuard (s : State) (q : Nat) : (releaseGuard s).port q = s.port q := rfl

@[simp] theorem port_notify (s : State) (q : Nat) : (notify s).port q = s.port q := rfl

@[simp] theorem port_writePixel (i : Nat) (bs : List Byte) (s : State) (q : Nat) : (writePixel i bs s).port q = s.port q :=
  rfl

/-- A port write keeps the ports' canonical form. -/
theorem ports_write_wf {s : State} {r : Nat} (p : Port) (h : Memory.wf (some Port.idle) s.nReq s.ports) (hr : r < s.nReq) :
    Memory.wf (some Port.idle) s.nReq (cellsWrite (some Port.idle) s.ports r [p]) :=
  cellsWrite_wf _ _ _ _ _ h (by simpa using hr)

/-! ### The frame store -/

theorem x_eq_of_frame {s t : State} (h : t.frame = s.frame) (a : Nat) : t.x a = s.x a := by
  unfold State.x
  rw [h]

/-- Every byte of the frame store has a value. -/
theorem cellsRead_frame (s : State) (a : Nat) : cellsRead frameDefault s.frame a = some (s.x a) := by
  have : ∀ m : Memory, ∃ v, cellsRead frameDefault m a = some v := by
    intro m
    induction m with
    | nil => exact ⟨_, rfl⟩
    | cons e m ih =>
      rw [cellsRead_cons]
      split
      · exact ⟨_, rfl⟩
      · exact ih
  obtain ⟨v, hv⟩ := this s.frame
  unfold State.x
  rw [hv]
  rfl

/-- Writing a pixel: the three bytes in internal order, every other byte as before. -/
theorem x_writePixel (i : Nat) (c0 c1 c2 : Byte) (s : State) (a : Nat) :
    (writePixel i [c0, c1, c2] s).x a =
      if a = 3 * i then c0 else if a = 3 * i + 1 then c1 else if a = 3 * i + 2 then c2 else s.x a := by
  have h : cellsRead frameDefault (writePixel i [c0, c1, c2] s).frame a =
      some (if a = 3 * i then c0 else if a = 3 * i + 1 then c1 else if a = 3 * i + 2 then c2 else s.x a) := by
    rw [writePixel_frame, cellsRead_cellsWrite, cellsRead_frame]
    simp only [pixelAddr, Nat.add_zero, List.length_cons, List.length_nil]
    by_cases h0 : a = 3 * i
    · subst h0; simp
    by_cases h1 : a = 3 * i + 1
    · subst h1; simp
    by_cases h2 : a = 3 * i + 2
    · subst h2; simp
    have hout : ¬(3 * i ≤ a ∧ a < 3 * i + (0 + 1 + 1 + 1)) := by omega
    simp [hout, h0, h1, h2]
  unfold State.x at *
  rw [h]
  rfl

/-- A pixel write keeps the frame store's canonical form. -/
theorem writePixel_wf {s : State} {i : Nat} {bs : List Byte} (h : Memory.wf frameDefault Config.frameBytes s.frame)
    (hi : i < 16) (hbs : bs.length = 3) :
    Memory.wf frameDefault Config.frameBytes (writePixel i bs s).frame :=
  cellsWrite_wf _ _ _ _ _ h (by rw [hbs]; simp only [pixelAddr, Config.frameBytes]; omega)

@[simp] theorem frameBytes_length (s : State) : s.frameBytes.length = 48 := by
  simp [State.frameBytes, Config.frameBytes]

/-! ### Snapshot, staging buffer, transmitter's buffer -/

theorem frameBytes_getElem? (s : State) (i : Nat) (h : i < 48) : s.frameBytes[i]? = some (s.x i) := by
  simp [State.frameBytes, Config.frameBytes, h]

/-- Reading a whole written range back. -/
theorem cellsReadRange_written {α : Type} [DecidableEq α] (dflt : Option α) (m : List (Nat × α)) (vs : List α) (n : Nat)
    (h : vs.length = n) : cellsReadRange dflt (cellsWrite dflt m 0 vs) 0 n = some vs := by
  have := cellsReadRange_cellsWrite dflt m 0 vs 0 n (by omega)
  rw [Nat.zero_add] at this
  rw [this, List.drop_zero, ← h, List.take_length]

/-- The snapshot is the whole frame. -/
theorem snapBytes_copySnapshot (s : State) : (copySnapshot s).snapBytes = some s.frameBytes :=
  cellsReadRange_written _ _ _ _ (by simp [Config.frameBytes])

@[simp] theorem pulsesOf_length (c : Cfg) (a : Byte) : (pulsesOf c a).length = 8 := by simp [pulsesOf]

@[simp] theorem encodeByte_length (c : Cfg) (b : Byte) (m : Word) : (encodeByte c b m).length = 8 := pulsesOf_length c _

@[simp] theorem encodePixel_length (c : Cfg) (q0 q1 q2 : Byte) : (encodePixel c q0 q1 q2).length = 25 := by
  simp [encodePixel]

@[simp] theorem encodeChunk_length (c : Cfg) (bytes : List Byte) (p : Nat) : (encodeChunk c bytes p).length = 25 :=
  encodePixel_length c _ _ _

/-- Chunk `p` of chunks of one length, laid end to end. -/
theorem flatten_chunk {α : Type} (f : Nat → List α) (len : Nat) (hf : ∀ p, (f p).length = len) (n p : Nat) (hp : p < n) :
    (((List.range n).map f).flatten.drop (len * p)).take len = f p := by
  induction n with
  | zero => omega
  | succ n ih =>
    have hlen : ∀ n, ((List.range n).map f).flatten.length = len * n := by
      intro n
      induction n with
      | zero => simp
      | succ n ih => simp [List.range_succ, ih, hf, Nat.mul_succ]
    rw [List.range_succ, List.map_append, List.flatten_append]
    by_cases hpn : p = n
    · subst hpn
      rw [List.drop_append_of_le_length (by rw [hlen]), List.drop_of_length_le (by rw [hlen])]
      simp [List.take_of_length_le, hf]
    · have hp' : p < n := by omega
      have hmul : len * p + len ≤ len * n := by
        have := Nat.mul_le_mul_left len (show p + 1 ≤ n by omega)
        rwa [Nat.mul_succ] at this
      rw [List.drop_append_of_le_length (by rw [hlen]; omega), List.take_append_of_le_length, ih hp']
      rw [List.length_drop, hlen]
      omega

@[simp] theorem encodeFrame_flatten_length (c : Cfg) (bytes : List Byte) : (encodeFrame c bytes).flatten.length = 400 := by
  simp [encodeFrame, Config.nPixels, List.length_flatten, Function.comp_def]

/-- Every chunk of the staging buffer is the chunk of the encoded frame. -/
theorem chunk_stageFrame (bytes : List Byte) (s : State) (p : Nat) (hp : p < 16) :
    (stageFrame bytes s).chunk p = some (encodeChunk s.cfg bytes p) := by
  have := cellsReadRange_cellsWrite unwritten s.staging 0 (encodeFrame s.cfg bytes).flatten (25 * p) 25
    (by rw [encodeFrame_flatten_length]; omega)
  rw [Nat.zero_add] at this
  unfold State.chunk
  rw [stageFrame_staging]
  simp only [slotAddr, Nat.add_zero, Config.chunkLen]
  rw [this]
  exact congrArg some (flatten_chunk (encodeChunk s.cfg bytes) 25 (by simp) 16 p hp)

/-- An accepted chunk is what stands in `TXBUF[0..24]`. -/
theorem txChunk_acceptChunk (c : List Word) (s : State) (h : c.length = 25) : (acceptChunk c s).txChunk = some c :=
  cellsReadRange_written _ _ _ _ h

/-- A drive move that answers: the next segment is on the line while a chunk plays, else nothing has changed. -/
theorem driveLine_next {s t : State} (h : driveLine s = .next t) :
    (∃ ds, s.txs = .busy ∧ s.txChunk = some ds ∧ t = playSegment (wave ds) s) ∨ (s.txs ≠ .busy ∧ t = s) := by
  unfold driveLine at h
  split at h
  · split at h
    · exact .inl ⟨_, ‹_›, ‹_›, (Host.Outcome.next.inj h).symm⟩
    · cases h
  · exact .inr ⟨‹_›, (Host.Outcome.next.inj h).symm⟩

/-- A drive move that stops: the chunk it would play has not been written (R38). -/
theorem driveLine_fault {s : State} {why : Fault} (h : driveLine s = .fault why) :
    s.txs = .busy ∧ s.txChunk = none ∧ why = .unwrittenTxBuf := by
  unfold driveLine at h
  split at h
  · split at h
    · cases h
    · cases h
      exact ⟨‹_›, ‹_›, rfl⟩
  · cases h

theorem driveLine_not_refused (s : State) (why : Refusal) : driveLine s ≠ .refused why := by
  unfold driveLine
  (repeat' split) <;> intro h <;> cases h

theorem chunk_length {s : State} {p : Nat} {c : List Word} (h : s.chunk p = some c) : c.length = 25 :=
  cellsReadRange_length h

theorem chunk_eq_of_staging {s t : State} (h : t.staging = s.staging) (p : Nat) : t.chunk p = s.chunk p := by
  unfold State.chunk
  rw [h]

theorem txChunk_eq_of_txbuf {s t : State} (h : t.txbuf = s.txbuf) : t.txChunk = s.txChunk := by
  unfold State.txChunk
  rw [h]

theorem snapBytes_eq_of_snap {s t : State} (h : t.snap = s.snap) : t.snapBytes = s.snapBytes := by
  unfold State.snapBytes
  rw [h]

end Sys2Proof.Machine
end

