-- ==== Sys2Proof/Laws/Exec.lean ====
section
/-! SUPPORT. One inversion lemma per meaning: if it answers next t, then one of these cases holds. -/

namespace Sys2Proof.Machine

theorem owes_iff (s : State) : s.owes = true ↔ (s.port s.me).nowed = true := Iff.rfl

theorem inWindow_iff (s : State) : inWindow s = true ↔ s.guard = some (.requester s.me) := by
  simp [inWindow]

theorem execSetPixel_next {idx : Nat} {r g b : Byte} {s t : State} (h : execSetPixel idx r g b s = .next t) :
    (s.owes = true ∧ t = finishNotify s) ∨
    (s.owes = false ∧ 16 ≤ idx ∧ t = raiseIndexOutOfRange s) ∨
    (s.owes = false ∧ idx < 16 ∧ s.guard = none ∧
      t = setOwed true (releaseGuard (writePixel idx (toInternal r g b) (acquireGuard (.requester s.me) s)))) ∨
    (s.owes = false ∧ idx < 16 ∧ s.guard ≠ none ∧ t = s) := by
  unfold execSetPixel at h
  split at h
  · exact .inl ⟨‹_›, by simpa using h.symm⟩
  · rename_i ho
    have ho : s.owes = false := by simpa using ho
    split at h
    · exact .inr (.inl ⟨ho, ‹_›, by simpa using h.symm⟩)
    · rename_i hi
      split at h
      · rename_i hg
        exact .inr (.inr (.inl ⟨ho, by omega, by simpa using hg, (Host.Outcome.next.inj h).symm⟩))
      · rename_i hg
        exact .inr (.inr (.inr ⟨ho, by omega, by simpa using hg, (Host.Outcome.next.inj h).symm⟩))

theorem execFbOpen_next {s t : State} (h : execFbOpen s = .next t) :
    (s.owes = false ∧ s.guard = none ∧ t = respond .ok 0 (acquireGuard (.requester s.me) s)) ∨
    ((s.owes = true ∨ s.guard ≠ none) ∧ t = s) := by
  unfold execFbOpen at h
  split at h
  · exact .inr ⟨.inl ‹_›, (Host.Outcome.next.inj h).symm⟩
  · rename_i ho
    have ho : s.owes = false := by simpa using ho
    split at h
    · rename_i hg
      exact .inl ⟨ho, by simpa using hg, (Host.Outcome.next.inj h).symm⟩
    · rename_i hg
      exact .inr ⟨.inr (by simpa using hg), (Host.Outcome.next.inj h).symm⟩

theorem execFbWrite_next {idx : Nat} {r g b : Byte} {s t : State} (h : execFbWrite idx r g b s = .next t) :
    (s.owes = true ∧ t = s) ∨
    (s.owes = false ∧ s.guard ≠ some (.requester s.me) ∧ t = raiseIllegalCommand s) ∨
    (s.owes = false ∧ s.guard = some (.requester s.me) ∧ 16 ≤ idx ∧ t = raiseIndexOutOfRange s) ∨
    (s.owes = false ∧ s.guard = some (.requester s.me) ∧ idx < 16 ∧
      t = respond .ok 0 (writePixel idx (toInternal r g b) s)) := by
  unfold execFbWrite at h
  split at h
  · exact .inl ⟨‹_›, (Host.Outcome.next.inj h).symm⟩
  · rename_i ho
    have ho : s.owes = false := by simpa using ho
    split at h
    · rename_i hw
      exact .inr (.inl ⟨ho, by simpa [inWindow] using hw, (Host.Outcome.next.inj h).symm⟩)
    · rename_i hw
      have hw : s.guard = some (.requester s.me) := by simpa [inWindow] using hw
      split at h
      · exact .inr (.inr (.inl ⟨ho, hw, ‹_›, (Host.Outcome.next.inj h).symm⟩))
      · exact .inr (.inr (.inr ⟨ho, hw, by omega, (Host.Outcome.next.inj h).symm⟩))

theorem execFbRead_next {idx : Nat} {s t : State} (h : execFbRead idx s = .next t) :
    (s.owes = true ∧ t = s) ∨
    (s.owes = false ∧ s.guard ≠ some (.requester s.me) ∧ t = raiseIllegalCommand s) ∨
    (s.owes = false ∧ s.guard = some (.requester s.me) ∧ 16 ≤ idx ∧ t = raiseIndexOutOfRange s) ∨
    (s.owes = false ∧ s.guard = some (.requester s.me) ∧ idx < 16 ∧
      t = respond .ok (toPublic (s.channel idx 0) (s.channel idx 1) (s.channel idx 2)) s) := by
  unfold execFbRead at h
  split at h
  · exact .inl ⟨‹_›, (Host.Outcome.next.inj h).symm⟩
  · rename_i ho
    have ho : s.owes = false := by simpa using ho
    split at h
    · rename_i hw
      exact .inr (.inl ⟨ho, by simpa [inWindow] using hw, (Host.Outcome.next.inj h).symm⟩)
    · rename_i hw
      have hw : s.guard = some (.requester s.me) := by simpa [inWindow] using hw
      split at h
      · exact .inr (.inr (.inl ⟨ho, hw, ‹_›, (Host.Outcome.next.inj h).symm⟩))
      · exact .inr (.inr (.inr ⟨ho, hw, by omega, (Host.Outcome.next.inj h).symm⟩))

theorem execFbClose_next {s t : State} (h : execFbClose s = .next t) :
    (s.owes = true ∧ t = finishNotify s) ∨
    (s.owes = false ∧ s.guard ≠ some (.requester s.me) ∧ t = raiseIllegalCommand s) ∨
    (s.owes = false ∧ s.guard = some (.requester s.me) ∧ t = setOwed true (releaseGuard s)) := by
  unfold execFbClose at h
  split at h
  · exact .inl ⟨‹_›, (Host.Outcome.next.inj h).symm⟩
  · rename_i ho
    have ho : s.owes = false := by simpa using ho
    split at h
    · rename_i hw
      exact .inr (.inl ⟨ho, by simpa [inWindow] using hw, (Host.Outcome.next.inj h).symm⟩)
    · rename_i hw
      exact .inr (.inr ⟨ho, by simpa [inWindow] using hw, (Host.Outcome.next.inj h).symm⟩)

theorem execSeqWake_next {s t : State} (h : execSeqWake s = .next t) :
    (s.seqState = .waitingForChange ∧ s.pending = true ∧ t = { consumePending s with seqState := .snapshotting }) ∨
    t = s := by
  unfold execSeqWake at h
  split at h
  · rename_i hc
    exact .inl ⟨hc.1, hc.2, (Host.Outcome.next.inj h).symm⟩
  · exact .inr (Host.Outcome.next.inj h).symm

theorem execSeqSnapshot_next {s t : State} (h : execSeqSnapshot s = .next t) :
    (s.seqState = .snapshotting ∧ s.guard = none ∧
      t = { releaseGuard (copySnapshot (acquireGuard .sequencer s)) with seqState := .encoding }) ∨ t = s := by
  unfold execSeqSnapshot at h
  split at h
  · rename_i hc
    exact .inl ⟨hc.1, by simpa using hc.2, (Host.Outcome.next.inj h).symm⟩
  · exact .inr (Host.Outcome.next.inj h).symm

theorem execSeqEncode_next {s t : State} (h : execSeqEncode s = .next t) :
    (∃ bytes, s.seqState = .encoding ∧ s.snapBytes = some bytes ∧
      t = { stageFrame bytes s with seqState := .transmitting, k := 0 }) ∨ t = s := by
  unfold execSeqEncode at h
  split at h
  · rename_i hc
    split at h
    · exact .inl ⟨_, hc, ‹_›, (Host.Outcome.next.inj h).symm⟩
    · cases h
  · exact .inr (Host.Outcome.next.inj h).symm

/-- Presenting a chunk and accepting it is accepting it. -/
@[simp] theorem acceptChunk_offerChunk (c d : List Word) (s : State) : acceptChunk c (offerChunk d s) = acceptChunk c s := rfl

theorem execSeqSubmit_next {s t : State} (h : execSeqSubmit s = .next t) :
    (∃ c, s.seqState = .transmitting ∧ s.txs = .idle ∧ s.chunk s.k.toNat = some c ∧ t = acceptChunk c s) ∨ t = s := by
  unfold execSeqSubmit at h
  split at h
  · rename_i hc
    split at h
    · exact .inl ⟨_, hc.1, hc.2, ‹_›, (Host.Outcome.next.inj h).symm⟩
    · cases h
  · exact .inr (Host.Outcome.next.inj h).symm

theorem execTxAccept_next {s t : State} (h : execTxAccept s = .next t) :
    (∃ c, s.txs = .idle ∧ s.offer = some c ∧ t = acceptChunk c s) ∨ t = s := by
  unfold execTxAccept at h
  split at h
  · split at h
    · exact .inl ⟨_, ‹_›, ‹_›, (Host.Outcome.next.inj h).symm⟩
    · exact .inr (Host.Outcome.next.inj h).symm
  · exact .inr (Host.Outcome.next.inj h).symm

theorem execSeqNext_next {s t : State} (h : execSeqNext s = .next t) :
    (∃ c, s.seqState = .transmitting ∧ s.txs = .doneOk ∧ s.k.toNat < 15 ∧ s.chunk s.k.toNat = some c ∧
      t = { setTxs .idle (logSubmission c .ok s) with k := s.k + 1 }) ∨ t = s := by
  unfold execSeqNext at h
  split at h
  · rename_i hc
    split at h
    · exact .inl ⟨_, hc.1, hc.2.1, hc.2.2, ‹_›, (Host.Outcome.next.inj h).symm⟩
    · cases h
  · exact .inr (Host.Outcome.next.inj h).symm

theorem execSeqLast_next {s t : State} (h : execSeqLast s = .next t) :
    (∃ c, s.seqState = .transmitting ∧ s.txs = .doneOk ∧ s.k.toNat = 15 ∧ s.chunk s.k.toNat = some c ∧
      t = enterResetDelay (setTxs .idle (logSubmission c .ok s))) ∨ t = s := by
  unfold execSeqLast at h
  split at h
  · rename_i hc
    split at h
    · exact .inl ⟨_, hc.1, hc.2.1, hc.2.2, ‹_›, (Host.Outcome.next.inj h).symm⟩
    · cases h
  · exact .inr (Host.Outcome.next.inj h).symm

theorem execSeqFault_next {s t : State} (h : execSeqFault s = .next t) :
    (∃ c, s.seqState = .transmitting ∧ s.txs = .doneErr ∧ s.chunk s.k.toNat = some c ∧
      t = enterResetDelay (setTxs .idle (raiseTransmitFault s.k (logSubmission c .err s)))) ∨ t = s := by
  unfold execSeqFault at h
  split at h
  · rename_i hc
    split at h
    · exact .inl ⟨_, hc.1, hc.2, ‹_›, (Host.Outcome.next.inj h).symm⟩
    · cases h
  · exact .inr (Host.Outcome.next.inj h).symm

theorem execSeqGapDone_next {s t : State} (h : execSeqGapDone s = .next t) :
    (s.seqState = .resetDelay ∧ s.gapElapsed = true ∧
      t = leaveResetDelay (logLine [.gap s.cfg.resetDelayUs.toNat] s)) ∨ t = s := by
  unfold execSeqGapDone at h
  split at h
  · rename_i hc
    exact .inl ⟨hc.1, hc.2, (Host.Outcome.next.inj h).symm⟩
  · exact .inr (Host.Outcome.next.inj h).symm

theorem execTxOk_next {s t : State} (h : execTxOk s = .next t) :
    (∃ ds, s.txs = .busy ∧ s.txChunk = some ds ∧ t = setTxs .doneOk (endPlay (logLine (wave ds) s))) ∨ t = s := by
  unfold execTxOk at h
  split at h
  · rename_i hc
    split at h
    · exact .inl ⟨_, hc, ‹_›, (Host.Outcome.next.inj h).symm⟩
    · cases h
  · exact .inr (Host.Outcome.next.inj h).symm

theorem execTxErr_next {s t : State} (h : execTxErr s = .next t) :
    (∃ ds, s.txs = .busy ∧ s.txChunk = some ds ∧
      t = setTxs .doneErr (endPlay (logLine (failedWave (segmentsOut s) s.drawCut (wave ds)) s))) ∨ t = s := by
  unfold execTxErr at h
  split at h
  · rename_i hc
    split at h
    · exact .inl ⟨_, hc, ‹_›, (Host.Outcome.next.inj h).symm⟩
    · cases h
  · exact .inr (Host.Outcome.next.inj h).symm

/-- A meaning that stops, stops with a fault: none of them refuses. -/
theorem exec_not_refused (i : Instr) (s : State) (why : Refusal) : exec i s ≠ .refused why := by
  cases i <;>
    simp only [exec, execSetPixel, execFbOpen, execFbWrite, execFbRead, execFbClose, execSeqWake, execSeqSnapshot,
      execSeqEncode, execSeqSubmit, execSeqNext, execSeqLast, execSeqFault, execSeqGapDone, execTxAccept, execTxOk,
      execTxErr, execBit2pulseZero, execBit2pulseOne] <;>
    (repeat' split) <;> intro h <;> cases h

end Sys2Proof.Machine
end

