-- ==== Sys2Proof/Laws/Pass.lean ====
section
/-! SUPPORT. The small lemmas of the words of Sys2Proof/Safety.lean about render passes: their entries, their waveforms, and
how the logs grow. -/

namespace Sys2Proof.Machine

@[simp] theorem okEntries_zero (c : Cfg) (bytes : List Byte) : okEntries c bytes 0 = [] := rfl

@[simp] theorem okEntries_length (c : Cfg) (bytes : List Byte) (n : Nat) : (okEntries c bytes n).length = n := by
  simp [okEntries]

theorem okEntries_succ (c : Cfg) (bytes : List Byte) (n : Nat) :
    okEntries c bytes (n + 1) = okEntries c bytes n ++ [⟨BitVec.ofNat 4 n, encodeChunk c bytes n, .ok⟩] := by
  simp [okEntries, List.range_succ]

@[simp] theorem okWaves_zero (c : Cfg) (bytes : List Byte) : okWaves c bytes 0 = [] := rfl

theorem okWaves_succ (c : Cfg) (bytes : List Byte) (n : Nat) :
    okWaves c bytes (n + 1) = okWaves c bytes n ++ wave (encodeChunk c bytes n) := by
  simp [okWaves, List.range_succ]

/-- Sixteen `Ok` entries or fewer are (the beginning of) a pass. -/
theorem passOf_okEntries (c : Cfg) (bytes : List Byte) {n : Nat} (hn : n ≤ 16) : PassOf c bytes (okEntries c bytes n) := by
  refine ⟨by simpa using hn, fun j e he => ?_⟩
  obtain ⟨h1, h2⟩ := List.getElem?_eq_some_iff.1 he
  simp [okEntries] at h1 h2
  subst h2
  exact ⟨by simp; omega, rfl⟩

/-- A pass goes on with its next chunk, whatever the result. -/
theorem passOf_snoc {c : Cfg} {bytes : List Byte} {p : List TxEntry} {k : BitVec 4} (r : TxResult) (h : PassOf c bytes p)
    (hl : p.length = k.toNat) : PassOf c bytes (p ++ [⟨k, encodeChunk c bytes k.toNat, r⟩]) := by
  have hk := k.isLt
  refine ⟨by simp [hl]; omega, fun j e he => ?_⟩
  rw [List.getElem?_append] at he
  split at he
  · exact h.2 j e he
  · obtain ⟨h1, h2⟩ := List.getElem?_eq_some_iff.1 he
    have hj : j = p.length := by simp at h1; omega
    subst hj
    simp at h2
    subst h2
    exact ⟨hl.symm, by rw [hl]⟩

theorem singleSnapshot_nil (c : Cfg) : SingleSnapshot c [] := ⟨[], rfl, by simp⟩

/-- A log of whole passes with one more pass behind it. -/
theorem singleSnapshot_append {c : Cfg} {log p : List TxEntry} {bytes : List Byte} (h : SingleSnapshot c log)
    (hb : bytes.length = 48) (hp : PassOf c bytes p) : SingleSnapshot c (log ++ p) := by
  by_cases hne : p = []
  · simpa [hne] using h
  obtain ⟨ps, h1, h2⟩ := h
  refine ⟨ps ++ [p], by simp [h1], fun q hq => ?_⟩
  rcases List.mem_append.1 hq with hq | hq
  · exact h2 q hq
  · rw [List.mem_singleton.1 hq]
    exact ⟨hne, bytes, hb, hp⟩

theorem lineRests_nil : LineRests [] := .inl rfl

theorem lineRests_gap (l : List LineItem) (us : Nat) : LineRests (l ++ [.gap us]) := .inr ⟨us, by simp⟩

theorem playedSoFar_idle {chunk : List Word} {items : List LineItem} : PlayedSoFar .idle chunk items ↔ items = [] := Iff.rfl

theorem playedSoFar_busy {chunk : List Word} {items : List LineItem} : PlayedSoFar .busy chunk items ↔ items = [] := Iff.rfl

theorem playedSoFar_doneOk {chunk : List Word} {items : List LineItem} :
    PlayedSoFar .doneOk chunk items ↔ items = wave chunk := Iff.rfl

theorem playedSoFar_doneErr {chunk : List Word} {items : List LineItem} :
    PlayedSoFar .doneErr chunk items ↔ ∃ n cut, items = failedWave n cut (wave chunk) := Iff.rfl

@[simp] theorem lineAfter_zero (items : List LineItem) : lineAfter items 0 = 0 := rfl

@[simp] theorem lineAfter_succ (items : List LineItem) (n : Nat) : lineAfter items (n + 1) = levelAt items n := rfl

/-- Past its end a waveform is low. -/
theorem levelAt_end {items : List LineItem} {n : Nat} (h : items.length ≤ n) : levelAt items n = 0 := by
  simp [levelAt, List.getElem?_eq_none h]

/-- A play goes on with its next segment: it keeps to its waveform, and the line shows the segment it has come to. -/
theorem playSegment_playing (items : List LineItem) (s : State) (h : s.play ≤ items.length) :
    (playSegment items s).play ≤ items.length ∧
      ((playSegment items s).line = lineAfter items (playSegment items s).play ∨
        ((playSegment items s).play = items.length ∧ (playSegment items s).line = 0)) := by
  simp only [playSegment_play, playSegment_line]
  refine ⟨Nat.min_le_right _ _, ?_⟩
  by_cases he : s.play < items.length
  · exact .inl (by rw [Nat.min_eq_left he, lineAfter_succ])
  · exact .inr ⟨by omega, levelAt_end (by omega)⟩

/-- The pass in progress goes on with a chunk that was played whole. -/
theorem passInProgress_succ {c : Cfg} {bytes : List Byte} {k : Nat} {txlog : List TxEntry} {linelog : List LineItem}
    (h : PassInProgress c bytes k txlog linelog (wave (encodeChunk c bytes k))) :
    PassInProgress c bytes (k + 1) (txlog ++ [⟨BitVec.ofNat 4 k, encodeChunk c bytes k, .ok⟩]) linelog [] := by
  obtain ⟨done, before, h1, h2, h3, h4⟩ := h
  exact ⟨done, before, h1, h2, by rw [h3, okEntries_succ, List.append_assoc],
    by rw [h4, okWaves_succ, List.append_nil, List.append_assoc]⟩

end Sys2Proof.Machine
end

