-- ==== Sys2Proof/Laws/PerInstr.lean ====
section
/-! SUPPORT. The per-instruction family `TableRow`: the encoding of a well-formed instruction carries its row of
spec/opcode_table.json. -/

namespace Sys2Proof.Laws.TableRow

/-- What a row of the opcode table fixes: a command's mask and match (30_encoding.md R96), a `STATE` code (R97), a completion's
`TXR` (R98) or a data bit (R143). -/
inductive Row where
  | cmd (mask value : Word)
  | seq (code : BitVec 3)
  | accept (code : BitVec 3)
  | completion (txr : BitVec 1)
  | bit (b : BitVec 1)
deriving DecidableEq, Repr

/-- The rows of the table. -/
def row : Instr → Row
  | .setPixel _ _ _ _ => .cmd 0xE0000000 0x20000000
  | .fbOpen => .cmd 0xFFFFFFFF 0x40000000
  | .fbWrite _ _ _ _ => .cmd 0xE0000000 0x60000000
  | .fbRead _ => .cmd 0xE0FFFFFF 0x80000000
  | .fbClose => .cmd 0xFFFFFFFF 0xA0000000
  | .seqWake => .seq 0b000
  | .seqSnapshot => .seq 0b001
  | .seqEncode => .seq 0b010
  | .seqSubmit | .seqNext | .seqLast | .seqFault => .seq 0b011
  | .seqGapDone => .seq 0b100
  | .txAccept => .accept 0b011
  | .txOk => .completion 0
  | .txErr => .completion 1
  | .bit2pulseZero => .bit 0
  | .bit2pulseOne => .bit 1

/-- What an agent is given carries the row. -/
def Carries (f : Fetched) (r : Row) : Prop :=
  match f, r with
  | .cmd w, .cmd mask value => w &&& mask = value
  | .seq v, .seq code => v.code = code
  | .accept v offered, .accept code => v.code = code ∧ offered = true
  | .completion _ txr, .completion x => txr = x
  | .bit b, .bit x => b = x
  | _, _ => False

/-- The family: a well-formed instruction's encoding carries its row. -/
def Statement (i : Instr) : Prop := i.wellFormed = true → Carries (encode i) (row i)

theorem setPixel (idx : Nat) (r g b : Byte) : Statement (.setPixel idx r g b) := fun _ =>
  (opMask_iff _ _ (by decide)).2 (by rw [cmdOp_cmdWord]; decide)

theorem fbOpen : Statement .fbOpen := fun _ => by
  show _ &&& _ = _
  decide

theorem fbWrite (idx : Nat) (r g b : Byte) : Statement (.fbWrite idx r g b) := fun _ =>
  (opMask_iff _ _ (by decide)).2 (by rw [cmdOp_cmdWord]; decide)

theorem fbRead (idx : Nat) : Statement (.fbRead idx) := fun _ => by
  refine (readMask_iff _).2 ⟨cmdOp_cmdWord _ _ _ _ _, ?_⟩
  unfold cmdWord
  ext j hj
  simp
  grind

theorem fbClose : Statement .fbClose := fun _ => by
  show _ &&& _ = _
  decide

theorem seqWake : Statement .seqWake := fun _ => rfl

theorem seqSnapshot : Statement .seqSnapshot := fun _ => rfl

theorem seqEncode : Statement .seqEncode := fun _ => rfl

theorem seqSubmit : Statement .seqSubmit := fun _ => rfl

theorem seqNext : Statement .seqNext := fun _ => rfl

theorem seqLast : Statement .seqLast := fun _ => rfl

theorem seqFault : Statement .seqFault := fun _ => rfl

theorem seqGapDone : Statement .seqGapDone := fun _ => rfl

theorem txAccept : Statement .txAccept := fun _ => ⟨rfl, rfl⟩

theorem txOk : Statement .txOk := fun _ => rfl

theorem txErr : Statement .txErr := fun _ => rfl

theorem bit2pulseZero : Statement .bit2pulseZero := fun _ => rfl

theorem bit2pulseOne : Statement .bit2pulseOne := fun _ => rfl

end Sys2Proof.Laws.TableRow
end

