-- ==== Sys2Proof/Laws/Step.lean ====
section
/-! SUPPORT. What a step is, by the move that comes next. -/

namespace Sys2Proof.Machine

theorem nextMove_cons {s : State} {m : Move} {rest : List Move} (h : s.sched = m :: rest) : nextMove s = m := by
  simp only [nextMove, h]

theorem takeMove_cons {s : State} {m : Move} {rest : List Move} (h : s.sched = m :: rest) :
    takeMove s = { s with sched := rest } := by
  simp only [takeMove, h]

/-- Taking a move changes nothing but the environment's own fields. -/
theorem takeMove_eq (s : State) : takeMove s = { s with sched := (takeMove s).sched, turn := (takeMove s).turn } := by
  unfold takeMove
  split <;> rfl

@[simp] theorem takeMove_frame (s : State) : (takeMove s).frame = s.frame := by rw [takeMove_eq]
@[simp] theorem takeMove_guard (s : State) : (takeMove s).guard = s.guard := by rw [takeMove_eq]
@[simp] theorem takeMove_pending (s : State) : (takeMove s).pending = s.pending := by rw [takeMove_eq]
@[simp] theorem takeMove_seqState (s : State) : (takeMove s).seqState = s.seqState := by rw [takeMove_eq]
@[simp] theorem takeMove_k (s : State) : (takeMove s).k = s.k := by rw [takeMove_eq]
@[simp] theorem takeMove_snap (s : State) : (takeMove s).snap = s.snap := by rw [takeMove_eq]
@[simp] theorem takeMove_staging (s : State) : (takeMove s).staging = s.staging := by rw [takeMove_eq]
@[simp] theorem takeMove_gapt (s : State) : (takeMove s).gapt = s.gapt := by rw [takeMove_eq]
@[simp] theorem takeMove_txs (s : State) : (takeMove s).txs = s.txs := by rw [takeMove_eq]
@[simp] theorem takeMove_txbuf (s : State) : (takeMove s).txbuf = s.txbuf := by rw [takeMove_eq]
@[simp] theorem takeMove_play (s : State) : (takeMove s).play = s.play := by rw [takeMove_eq]
@[simp] theorem takeMove_line (s : State) : (takeMove s).line = s.line := by rw [takeMove_eq]
@[simp] theorem takeMove_fault (s : State) : (takeMove s).fault = s.fault := by rw [takeMove_eq]
@[simp] theorem takeMove_faultChunk (s : State) : (takeMove s).faultChunk = s.faultChunk := by rw [takeMove_eq]
@[simp] theorem takeMove_cfg (s : State) : (takeMove s).cfg = s.cfg := by rw [takeMove_eq]
@[simp] theorem takeMove_held (s : State) : (takeMove s).held = s.held := by rw [takeMove_eq]
@[simp] theorem takeMove_nReq (s : State) : (takeMove s).nReq = s.nReq := by rw [takeMove_eq]
@[simp] theorem takeMove_ports (s : State) : (takeMove s).ports = s.ports := by rw [takeMove_eq]
@[simp] theorem takeMove_txlog (s : State) : (takeMove s).txlog = s.txlog := by rw [takeMove_eq]
@[simp] theorem takeMove_linelog (s : State) : (takeMove s).linelog = s.linelog := by rw [takeMove_eq]
@[simp] theorem takeMove_faultlog (s : State) : (takeMove s).faultlog = s.faultlog := by rw [takeMove_eq]
@[simp] theorem takeMove_me (s : State) : (takeMove s).me = s.me := by rw [takeMove_eq]
@[simp] theorem takeMove_offer (s : State) : (takeMove s).offer = s.offer := by rw [takeMove_eq]
@[simp] theorem takeMove_drawSegs (s : State) : (takeMove s).drawSegs = s.drawSegs := by rw [takeMove_eq]
@[simp] theorem takeMove_drawCut (s : State) : (takeMove s).drawCut = s.drawCut := by rw [takeMove_eq]
@[simp] theorem takeMove_encOut (s : State) : (takeMove s).encOut = s.encOut := by rw [takeMove_eq]

/-- A step with a scheduled move, out of reset. -/
theorem step_released {s : State} {m : Move} {rest : List Move} (hs : s.sched = m :: rest) (hh : s.held = false) :
    step s = runFetch (fetchReleased m { s with sched := rest }) := by
  unfold step fetchMove
  have hout : ¬(({ s with sched := rest } : State).held = true) := by simp [hh]
  rw [nextMove_cons hs, takeMove_cons hs, if_neg hout]

/-- A requester whose word decodes: its instruction runs with the port's record made. -/
theorem step_command {s : State} {r : Nat} {w : Word} {rest : List Move} {i : Instr} (hs : s.sched = .requester r w :: rest)
    (hh : s.held = false) (hr : r < s.nReq) (hd : decodeCmd (s.cmdOf r w) = .instr i) :
    step s = exec i (presentCmd r w { s with sched := rest }) := by
  rw [step_released hs hh]
  simp only [fetchReleased, fetchCommand, decode]
  rw [if_pos hr, show State.cmdOf { s with sched := rest } r w = s.cmdOf r w from rfl, hd]
  rfl

/-- A requester whose word decodes to nothing is answered. -/
theorem step_command_illegal {s : State} {r : Nat} {w : Word} {rest : List Move} {why : Reject}
    (hs : s.sched = .requester r w :: rest) (hh : s.held = false) (hr : r < s.nReq)
    (hd : decodeCmd (s.cmdOf r w) = .rejected why) :
    step s = .next (raiseIllegalCommand (presentCmd r w { s with sched := rest })) := by
  rw [step_released hs hh]
  simp only [fetchReleased, fetchCommand, decode]
  rw [if_pos hr, show State.cmdOf { s with sched := rest } r w = s.cmdOf r w from rfl, hd]
  rfl

/-- The sequencer's enabled step runs. -/
theorem step_sequencer {s : State} {rest : List Move} {i : Instr} (hs : s.sched = .sequencer :: rest)
    (hh : s.held = false) (hd : decodeSeq s.seqView = .instr i) : step s = exec i { s with sched := rest } := by
  rw [step_released hs hh]
  simp only [fetchReleased, decode]
  rw [show State.seqView { s with sched := rest } = s.seqView from rfl, hd]
  rfl

/-- A completion runs with its draws. -/
theorem step_transmitter {s : State} {rest : List Move} {txr : BitVec 1} {segs cut : Nat} {i : Instr}
    (hs : s.sched = .transmitter txr segs cut :: rest) (hh : s.held = false)
    (hd : decodeCompletion s.txs txr = .instr i) :
    step s = exec i { s with sched := rest, drawSegs := segs, drawCut := cut } := by
  rw [step_released hs hh]
  simp only [fetchReleased, decode, hd, runDecoded, runFetch]

/-- Time passes. -/
theorem step_elapse {s : State} {rest : List Move} {us : Nat} (hs : s.sched = .elapse us :: rest) (hh : s.held = false) :
    step s = .next (elapseTime us { s with sched := rest }) := by
  rw [step_released hs hh]
  rfl

/-- The line is driven, or the move stops. -/
theorem step_drive {s : State} {rest : List Move} (hs : s.sched = .drive :: rest) (hh : s.held = false) :
    step s = driveLine { s with sched := rest } := by
  rw [step_released hs hh]
  simp only [fetchReleased, fetchOutcome, runFetch]
  cases driveLine { s with sched := rest } <;> rfl

/-- What a step that answers next comes from: an instruction that ran, or a quiet effect. -/
theorem step_next {s t : State} (h : step s = .next t) :
    (∃ i u, fetchMove (nextMove s) (takeMove s) = .run i u ∧ exec i u = .next t) ∨
    fetchMove (nextMove s) (takeMove s) = .quiet t := by
  unfold step runFetch at h
  split at h
  · exact .inl ⟨_, _, ‹_›, h⟩
  · rename_i hq
    exact .inr (by rw [hq, Host.Outcome.next.inj h])
  · cases h
  · cases h

/-- A move that runs an instruction: the block is out of reset, and the agent's decoder selected it. -/
theorem fetch_run {m : Move} {s u : State} {i : Instr} (h : fetchMove m s = .run i u) :
    s.held = false ∧
    ((∃ r w, m = .requester r w ∧ r < s.nReq ∧ decodeCmd (s.cmdOf r w) = .instr i ∧ u = presentCmd r w s) ∨
      (m = .sequencer ∧ decodeSeq s.seqView = .instr i ∧ u = s) ∨
      (m = .txAccept ∧ i = .txAccept ∧ s.offer.isSome = true ∧ decodeSeq s.seqView = .instr .seqSubmit ∧ u = s) ∨
      (∃ txr segs cut, m = .transmitter txr segs cut ∧ decodeCompletion s.txs txr = .instr i ∧
        (i = .txOk ∨ i = .txErr) ∧ u = { s with drawSegs := segs, drawCut := cut }) ∨
      (∃ b, m = .encoder b ∧ (i = .bit2pulseZero ∨ i = .bit2pulseOne) ∧ u = s)) := by
  unfold fetchMove at h
  split at h
  · cases m <;> cases h
  · rename_i hh
    refine ⟨by simpa using hh, ?_⟩
    cases m with
    | requester r w =>
      simp only [fetchReleased, fetchCommand, decode] at h
      split at h
      · split at h
        · cases h
          exact .inl ⟨r, w, rfl, ‹_›, ‹_›, rfl⟩
        · cases h
      · cases h
    | sequencer =>
      simp only [fetchReleased, decode, runDecoded] at h
      split at h
      · cases h
        exact .inr (.inl ⟨rfl, ‹_›, rfl⟩)
      · cases h
    | txAccept =>
      simp only [fetchReleased, decode, runDecoded] at h
      split at h
      · rename_i j hd
        cases h
        unfold decodeAccept at hd
        split at hd
        · split at hd
          · cases hd
            exact .inr (.inr (.inl ⟨rfl, rfl, ‹_›, ‹_›, rfl⟩))
          · cases hd
        · cases hd
        · cases hd
      · cases h
    | transmitter b sg c =>
      simp only [fetchReleased, decode, runDecoded] at h
      split at h
      · rename_i j hd
        cases h
        refine .inr (.inr (.inr (.inl ⟨b, sg, c, rfl, hd, ?_, rfl⟩)))
        unfold decodeCompletion at hd
        repeat' split at hd
        all_goals simp_all
      · cases h
    | drive =>
      simp only [fetchReleased, fetchOutcome] at h
      split at h <;> cases h
    | encoder b =>
      simp only [fetchReleased, decode, runDecoded] at h
      split at h
      · rename_i j hd
        cases h
        refine .inr (.inr (.inr (.inr ⟨b, rfl, ?_, rfl⟩)))
        unfold decodeBit at hd
        split at hd <;> simp_all
      · cases h
    | elapse us => cases h
    | reset ws => cases h

/-- A move that runs no instruction: reset, an answered illegal word, a stall, a draw without effect, the line, or time. -/
theorem fetch_quiet {m : Move} {s u : State} (h : fetchMove m s = .quiet u) :
    (∃ ws, m = .reset ws ∧ u = resetBlock ws s) ∨
    s.held = false ∧ isReset m = false ∧
      ((∃ r w why, m = .requester r w ∧ r < s.nReq ∧ decodeCmd (s.cmdOf r w) = .rejected why ∧
          u = raiseIllegalCommand (presentCmd r w s)) ∨
        u = s ∨
        (∃ txr segs cut, m = .transmitter txr segs cut ∧ u = { s with drawSegs := segs, drawCut := cut }) ∨
        (m = .drive ∧ driveLine s = .next u) ∨
        (∃ us, m = .elapse us ∧ u = elapseTime us s)) := by
  unfold fetchMove at h
  split at h
  · cases m with
    | reset ws => exact .inl ⟨ws, rfl, (Fetch.quiet.inj h).symm⟩
    | requester _ _ | sequencer | txAccept | transmitter _ _ _ | drive | encoder _ | elapse _ => cases h
  · rename_i hh
    have hh : s.held = false := by simpa using hh
    cases m with
    | requester r w =>
      refine .inr ⟨hh, rfl, ?_⟩
      simp only [fetchReleased, fetchCommand, decode] at h
      split at h
      · split at h
        · cases h
        · cases h
          exact .inl ⟨r, w, _, rfl, ‹_›, ‹_›, rfl⟩
      · cases h
        exact .inr (.inl rfl)
    | sequencer | txAccept | encoder _ =>
      refine .inr ⟨hh, rfl, ?_⟩
      simp only [fetchReleased, decode, runDecoded] at h
      split at h
      · cases h
      · cases h
        exact .inr (.inl rfl)
    | transmitter b sg c =>
      refine .inr ⟨hh, rfl, ?_⟩
      simp only [fetchReleased, decode, runDecoded] at h
      split at h
      · cases h
      · cases h
        exact .inr (.inr (.inl ⟨b, sg, c, rfl, rfl⟩))
    | drive =>
      simp only [fetchReleased, fetchOutcome] at h
      split at h
      · cases h
        exact .inr ⟨hh, rfl, .inr (.inr (.inr (.inl ⟨rfl, ‹_›⟩)))⟩
      · cases h
      · cases h
    | elapse us =>
      cases h
      exact .inr ⟨hh, rfl, .inr (.inr (.inr (.inr ⟨us, rfl, rfl⟩)))⟩
    | reset ws =>
      cases h
      exact .inl ⟨ws, rfl, rfl⟩

/-- A move that is no instruction stops only where a play would read an unwritten buffer. -/
theorem fetch_stop {m : Move} {s : State} {why : Fault} (h : fetchMove m s = .stop why) :
    s.held = false ∧ s.txs = .busy ∧ s.txChunk = none ∧ why = .unwrittenTxBuf := by
  unfold fetchMove at h
  split at h
  · cases m <;> cases h
  · rename_i hh
    cases m with
    | drive =>
      simp only [fetchReleased, fetchOutcome] at h
      split at h
      · cases h
      · cases h
        exact ⟨by simpa using hh, driveLine_fault ‹_›⟩
      · cases h
    | requester _ _ | sequencer | txAccept | transmitter _ _ _ | encoder _ | elapse _ | reset _ =>
      simp only [fetchReleased, fetchCommand, runDecoded] at h
      (repeat' split at h) <;> cases h

/-- A move is refused only while the block is held in reset. -/
theorem fetch_refuse {m : Move} {s : State} {why : Refusal} (h : fetchMove m s = .refuse why) :
    s.held = true ∧ why = .configInvalid := by
  unfold fetchMove at h
  split at h
  · rename_i hh
    cases m <;> cases h <;> exact ⟨hh, rfl⟩
  · cases m <;> simp only [fetchReleased, fetchCommand, runDecoded, fetchOutcome] at h <;> (repeat' split at h) <;>
      first | (cases h; done) | exact absurd ‹_› (driveLine_not_refused _ _)

/-- Reset is taken whether the block is held or not. -/
theorem step_reset {s : State} {ws : CfgWords} {rest : List Move} (hs : s.sched = .reset ws :: rest) :
    step s = .next (resetBlock ws { s with sched := rest }) := by
  unfold step fetchMove
  rw [nextMove_cons hs, takeMove_cons hs]
  split <;> rfl

/-- A run is its first step and the rest. -/
theorem runSteps_succ {n : Nat} {s t : State} (h : step s = .next t) : runSteps (n + 1) s = runSteps n t := by
  simp only [runSteps, h]

theorem runSteps_one {s t : State} (h : step s = .next t) : runSteps 1 s = .next t := runSteps_succ h

/-- Runs are joined end to end. -/
theorem runSteps_add {m n : Nat} {s t : State} (h : runSteps m s = .next t) : runSteps (m + n) s = runSteps n t := by
  induction m generalizing s with
  | zero =>
    cases h
    rw [Nat.zero_add]
  | succ m ih =>
    rw [Nat.succ_add]
    simp only [runSteps] at h ⊢
    split at h
    · exact ih h
    · cases h
    · cases h

/-- The model's runs are the host's. -/
theorem core_run (n : Nat) (s : State) : Sys2Proof.core.run n s = runSteps n s := by
  induction n generalizing s with
  | zero => rfl
  | succ n ih =>
    simp only [runSteps, Host.Core.run]
    split <;> rename_i h <;> (have h : step s = _ := h) <;> simp only [h]
    · exact ih _
    · rfl
    · rfl

end Sys2Proof.Machine
end

