-- ==== Sys2Proof/Tests/Slice0.lean ====
section
/-! SUPPORT. The model's own tests, small and closed: expected values are those of spec/95_test_vectors.md (the vector's name
stands in each comment) or are worked out by hand from the rule named; and the witnesses that the statements' hypotheses can
be met. -/

namespace Sys2Proof.Tests

open Sys2Proof Sys2Proof.Machine

/-! ### Helpers -/

/-- The outcome is a next state with the property `p`. -/
def nextIs (o : Host.Outcome State Fault Refusal) (p : State → Bool) : Bool :=
  match o with
  | .next t => p t
  | .fault _ => false
  | .refused _ => false

/-- The outcome is this fault. -/
def faultIs (o : Host.Outcome State Fault Refusal) (f : Fault) : Bool :=
  match o with
  | .fault g => decide (g = f)
  | .next _ => false
  | .refused _ => false

/-- Reset, with these moves to come. -/
def moving (moves : List Move) : State := { State.reset with sched := moves }

/-- Reset, with requester 0 holding the guard (after PS6). -/
def inOwnWindow : State := { State.reset with guard := some (.requester 0) }

/-- Reset, with requester 1 holding the guard. -/
def inOtherWindow : State := { State.reset with guard := some (.requester 1) }

/-- Reset, with requester 0 owing the notification of the command word `w`. -/
def owing (w : Word) : State := setPort 0 ⟨some w, none, true⟩ State.reset

/-- Reset, with `F` written: pixel 0 red. -/
def redPixel : State := writePixel 0 (toInternal 255 0 0) State.reset

/-- A sequencer in state `q` at chunk `k` with the transmitter port at `txs`; chunk `k` is staged, 25 `IDLE` words. -/
def sequencerAt (q : SeqState) (k : BitVec 4) (txs : Txs) : State :=
  { State.reset with seqState := q, k := k, txs := txs, staging := cellsWrite unwritten [] (slotAddr k.toNat 0) (List.replicate 25 idleWord) }

/-- The chunk of E20 under T1. -/
def redChunk : List Word := encodePixel Cfg.t1 0 255 0

/-- A transmitter that plays `ds`. -/
def playing (ds : List Word) : State :=
  { State.reset with seqState := .transmitting, txs := .busy, txbuf := cellsWrite unwritten [] 0 ds }

/-! ### WellFormed refuses ill-formed terms (R83: `idx` is 5 bits) -/

theorem test_wellFormed_setPixel_31 : (Instr.setPixel 31 0 0 0).wellFormed = true := by decide

theorem test_illFormed_setPixel_32 : (Instr.setPixel 32 0 0 0).wellFormed = false := by decide

theorem test_illFormed_fbWrite_32 : (Instr.fbWrite 32 1 2 3).wellFormed = false := by decide

theorem test_illFormed_fbRead_32 : (Instr.fbRead 32).wellFormed = false := by decide

/-! ### Decoding, from the words of the spec (95_test_vectors.md W1 to W34; 30_encoding.md R92, R97, R98) -/

/-- W2: op 001, idx 00101, then 12 34 56. -/
theorem test_decode_setPixel : decodeCmd 0b00100101000100100011010001010110 = .instr (.setPixel 5 0x12 0x34 0x56) := by
  decide

/-- W28: index 16 decodes; it is illegal by value. -/
theorem test_decode_setPixel_16 : decodeCmd 0x30010203 = .instr (.setPixel 16 1 2 3) := by decide

/-- W5. -/
theorem test_decode_fbOpen : decodeCmd 0b01000000000000000000000000000000 = .instr .fbOpen := by decide

/-- W7. -/
theorem test_decode_fbWrite : decodeCmd 0b01100010000000010000001000000011 = .instr (.fbWrite 2 1 2 3) := by decide

/-- W10. -/
theorem test_decode_fbRead : decodeCmd 0b10000011000000000000000000000000 = .instr (.fbRead 3) := by decide

/-- W11. -/
theorem test_decode_fbClose : decodeCmd 0b10100000000000000000000000000000 = .instr .fbClose := by decide

/-- W20 to W23: reserved `op`. -/
theorem test_decode_reserved : decodeCmd 0x00000000 = .rejected .reservedOp ∧
    decodeCmd 0xFFFFFFFF = .rejected .reservedOp ∧ decodeCmd 0xC0000000 = .rejected .reservedOp ∧
    decodeCmd 0x1FFFFFFF = .rejected .reservedOp := by
  decide

/-- W24 to W27, W32: unused bits set. -/
theorem test_decode_unused : decodeCmd 0x40000001 = .rejected .unusedBitsSet ∧
    decodeCmd 0x5F000000 = .rejected .unusedBitsSet ∧ decodeCmd 0xA0000100 = .rejected .unusedBitsSet ∧
    decodeCmd 0x80FF0000 = .rejected .unusedBitsSet ∧ decodeCmd 0x90000001 = .rejected .unusedBitsSet := by
  decide

theorem test_decode_seqWake : decode (.seq ⟨0b000, true, false, .idle, 0, false⟩) = .instr .seqWake := by decide

theorem test_decode_seqSnapshot : decode (.seq ⟨0b001, false, true, .idle, 0, false⟩) = .instr .seqSnapshot := by decide

theorem test_decode_seqEncode : decode (.seq ⟨0b010, false, false, .idle, 0, false⟩) = .instr .seqEncode := by decide

theorem test_decode_seqSubmit : decode (.seq ⟨0b011, false, false, .idle, 0, false⟩) = .instr .seqSubmit := by decide

theorem test_decode_seqNext : decode (.seq ⟨0b011, false, false, .doneOk, 14, false⟩) = .instr .seqNext := by decide

theorem test_decode_seqLast : decode (.seq ⟨0b011, false, false, .doneOk, 15, false⟩) = .instr .seqLast := by decide

theorem test_decode_seqFault : decode (.seq ⟨0b011, false, false, .doneErr, 4, false⟩) = .instr .seqFault := by decide

theorem test_decode_seqGapDone : decode (.seq ⟨0b100, false, false, .idle, 0, true⟩) = .instr .seqGapDone := by decide

/-- R98, R176: only while the sequencer presents a chunk. -/
theorem test_decode_txAccept : decode (.accept ⟨0b011, false, false, .idle, 0, false⟩ true) = .instr .txAccept ∧
    decode (.accept ⟨0b011, false, false, .idle, 0, false⟩ false) = .rejected .notEnabled := by
  decide

theorem test_decode_txOk : decode (.completion .busy 0b0) = .instr .txOk := by decide

theorem test_decode_txErr : decode (.completion .busy 0b1) = .instr .txErr := by decide

theorem test_decode_bit2pulseZero : decode (.bit 0b0) = .instr .bit2pulseZero := by decide

theorem test_decode_bit2pulseOne : decode (.bit 0b1) = .instr .bit2pulseOne := by decide

/-- R97: in every other combination no step is enabled (Q1, Q3, Q7, Q13); codes 5, 6, 7 are no state (R92). -/
theorem test_decode_stalls : decode (.seq ⟨0b000, false, true, .idle, 0, true⟩) = .rejected .notEnabled ∧
    decode (.seq ⟨0b001, true, false, .idle, 0, true⟩) = .rejected .notEnabled ∧
    decode (.seq ⟨0b011, true, true, .busy, 3, true⟩) = .rejected .notEnabled ∧
    decode (.seq ⟨0b100, true, true, .idle, 15, false⟩) = .rejected .notEnabled ∧
    decode (.seq ⟨0b101, true, true, .idle, 0, true⟩) = .rejected .unreachableState ∧
    decode (.seq ⟨0b111, true, true, .idle, 0, true⟩) = .rejected .unreachableState ∧
    decode (.completion .idle 0) = .rejected .notEnabled := by
  decide

/-- The two constants the host uses: a table word is decoded, and the very next step runs it (W1). -/
theorem test_withFetchWord_command : decodeTableWord 32 0x20FF0000 = some (.setPixel 0 255 0 0) ∧
    nextIs (step (State.reset.withFetchWord 32 0x20FF0000)) (fun t => decide (t.x 1 = 0xFF)) = true := by
  decide

theorem test_withFetchWord_state : decodeTableWord 8 0b100 = some .seqGapDone ∧
    nextIs (step (State.reset.withFetchWord 8 0b100)) (fun t => decide (t.linelog = [.gap 100])) = true := by
  decide

/-! ### Descriptors and configuration words (W40 to W45, C1 to C18) -/

theorem test_pack : packDesc (dataDesc 2 5) = 0x00058002 ∧ packDesc (dataDesc 5 2) = 0x00028005 ∧
    packDesc (dataDesc 32767 32767) = 0x7FFFFFFF ∧ idleWord = 0 ∧ unpackDesc 0x00058002 = ⟨2, 1, 5, 0⟩ := by
  decide

theorem test_cfg_valid : cfgWordsValid Config.t1 = true ∧ cfgWordsValid Config.t2 = true ∧
    cfgWordsValid { Config.t1 with word0 := 0x7FFF7FFF } = true ∧
    cfgWordsValid { Config.t1 with word2 := 0x00000001 } = true ∧
    cfgWordsValid { Config.t1 with word5 := 0xFFFFFFFF } = true := by
  decide

theorem test_cfg_invalid : cfgWordsValid { Config.t1 with word0 := 0x00050000 } = false ∧
    cfgWordsValid { Config.t1 with word0 := 0x00000002 } = false ∧
    cfgWordsValid { Config.t1 with word0 := 0x00058002 } = false ∧
    cfgWordsValid { Config.t1 with word1 := 0x80020005 } = false ∧
    cfgWordsValid { Config.t1 with word2 := 0x3F800001 } = false ∧
    cfgWordsValid { Config.t1 with word2 := 0x00000000 } = false ∧
    cfgWordsValid { Config.t1 with word2 := 0x7FC00000 } = false ∧
    cfgWordsValid { Config.t1 with word2 := 0x80000000 } = false := by
  decide

/-! ### The Pulse Encoder (the CORRECT table, E3, E20 to E26) -/

/-- Ties and the multiplier `0x3F333333`. -/
theorem test_correct : correct 1 0x3F000000 = 1 ∧ correct 255 0x3F000000 = 128 ∧ correct 254 0x3F400000 = 191 ∧
    correct 6 0x3F400000 = 5 ∧ correct 2 0x3E800000 = 1 ∧ correct 5 0x3F333333 = 3 ∧ correct 255 0x3F333333 = 178 ∧
    correct 255 0x00000001 = 0 ∧ correct 254 0x3F7FFFFF = 254 := by
  decide

/-- E3. -/
theorem test_encodeByte : encodeByte Cfg.t1 0xA5 0x3F800000 =
    [0x00028005, 0x00058002, 0x00028005, 0x00058002, 0x00058002, 0x00028005, 0x00058002, 0x00028005] := by
  decide

/-- E24 under T2: each channel with its own multiplier, green first. -/
theorem test_encodePixel_channels : encodePixel (unpackCfg Config.t2) 100 200 50 =
    [0x00058002, 0x00028005, 0x00058002, 0x00058002, 0x00028005, 0x00058002, 0x00028005, 0x00028005,
      0x00058002, 0x00028005, 0x00028005, 0x00058002, 0x00058002, 0x00028005, 0x00058002, 0x00058002,
      0x00058002, 0x00058002, 0x00058002, 0x00058002, 0x00028005, 0x00028005, 0x00058002, 0x00028005,
      0x00000000] := by
  decide

/-- E13: the digits `DECODE_BYTE` reads. -/
theorem test_decodeByte_digits : pulseBits Cfg.t1 0 [0x00028005, 0x00058002, 0x00028005, 0x00058002, 0x00058002, 0x00028005,
    0x00058002, 0x00028005] = 0xA5 := by
  decide

/-- `WAVE` under T1. -/
theorem test_wave : wave [0x00028005, 0x00058002, 0] = [.seg 1 5, .seg 0 2, .seg 1 2, .seg 0 5] ∧ wave [0] = [] ∧
    wave [0x00058002, 0, 0x00028005] = [.seg 1 2, .seg 0 5] := by
  decide

theorem test_bit2pulseZero : nextIs (exec .bit2pulseZero State.reset) (fun t => decide (t.encOut = 0x00058002)) = true := by
  decide

theorem test_bit2pulseOne : nextIs (exec .bit2pulseOne State.reset) (fun t => decide (t.encOut = 0x00028005)) = true := by
  decide

/-! ### The host-port commands (PS1 to PS19, F1 to F4) -/

/-- PS2, step 1: internal order; the guard is free again; the notification is owed. -/
theorem test_setPixel_step1 : nextIs (exec (.setPixel 5 0x12 0x34 0x56) State.reset) (fun t =>
    decide (t.x 15 = 0x34 ∧ t.x 16 = 0x12 ∧ t.x 17 = 0x56 ∧ t.x 18 = 0 ∧ t.guard = none ∧ t.pending = false ∧
      (t.port 0).nowed = true)) = true := by
  decide

/-- PS2, step 2. -/
theorem test_setPixel_step2 : nextIs (exec (.setPixel 5 0x12 0x34 0x56) (owing 0x25123456)) (fun t =>
    decide (t.pending = true ∧ t.port 0 = ⟨none, some 0, false⟩ ∧ t.x 15 = 0)) = true := by
  decide

/-- PS6. -/
theorem test_fbOpen : nextIs (exec .fbOpen State.reset) (fun t =>
    decide (t.guard = some (.requester 0) ∧ t.pending = false ∧ (t.port 0).rsp = some 0)) = true := by
  decide

/-- PS18: a held guard stalls. -/
theorem test_fbOpen_stalls : nextIs (exec .fbOpen inOtherWindow) (fun t => decide (t = inOtherWindow)) = true := by decide

/-- PS7. -/
theorem test_fbWrite : nextIs (exec (.fbWrite 2 1 2 3) inOwnWindow) (fun t =>
    decide (t.x 6 = 2 ∧ t.x 7 = 1 ∧ t.x 8 = 3 ∧ t.pending = false ∧ (t.port 0).rsp = some 0)) = true := by
  decide

/-- F2: outside a window the guard is checked before the index. -/
theorem test_fbWrite_noWindow : nextIs (exec (.fbWrite 16 0 0 0) State.reset) (fun t =>
    decide ((t.port 0).rsp = some 0x80000000 ∧ t.frame = [])) = true := by
  decide

/-- PS17: the answer is in public order. -/
theorem test_fbRead : nextIs (exec (.fbRead 0) { redPixel with guard := some (.requester 0) }) (fun t =>
    decide ((t.port 0).rsp = some 0x00FF0000)) = true := by
  decide

/-- W31, in its own window: past the last pixel. -/
theorem test_fbRead_index : nextIs (exec (.fbRead 16) inOwnWindow) (fun t =>
    decide ((t.port 0).rsp = some 0x40000000 ∧ t.guard = some (.requester 0))) = true := by
  decide

/-- PS10, step 1: released, owed, not yet notified. -/
theorem test_fbClose_step1 : nextIs (exec .fbClose inOwnWindow) (fun t =>
    decide (t.guard = none ∧ t.pending = false ∧ (t.port 0).nowed = true)) = true := by
  decide

/-- F4: another's window. -/
theorem test_fbClose_foreign : nextIs (exec .fbClose inOtherWindow) (fun t =>
    decide (t.guard = some (.requester 1) ∧ (t.port 0).rsp = some 0x80000000 ∧ t.pending = false)) = true := by
  decide

/-! ### The sequencer (Q1 to Q15) -/

/-- Q2. -/
theorem test_seqWake : nextIs (exec .seqWake { State.reset with pending := true }) (fun t =>
    decide (t.seqState = .snapshotting ∧ t.pending = false)) = true := by
  decide

/-- Q4. -/
theorem test_seqSnapshot : nextIs (exec .seqSnapshot { redPixel with seqState := .snapshotting }) (fun t =>
    decide (t.snapBytes = some ([0x00, 0xFF, 0x00] ++ List.replicate 45 0) ∧ t.seqState = .encoding ∧ t.guard = none)) =
      true := by
  decide

set_option maxRecDepth 20000 in
/-- Q5. -/
theorem test_seqEncode : nextIs (exec .seqEncode
    { State.reset with seqState := .encoding, k := 7,
                       snap := cellsWrite unwritten [] 0 ([0x00, 0xFF, 0x00] ++ List.replicate 45 0) }) (fun t =>
    decide (t.chunk 0 = some redChunk ∧ t.chunk 15 = some (List.replicate 24 0x00058002 ++ [0]) ∧
      t.seqState = .transmitting ∧ t.k = 0)) = true := by
  decide

/-- R38: the snapshot buffer before its first write. -/
theorem test_seqEncode_unwritten : faultIs (exec .seqEncode { State.reset with seqState := .encoding }) .unwrittenSnapshot =
    true := by
  decide

/-- Q6. -/
theorem test_seqSubmit : nextIs (exec .seqSubmit (sequencerAt .transmitting 3 .idle)) (fun t =>
    decide (t.txChunk = some (List.replicate 25 0) ∧ t.txs = .busy ∧ t.k = 3)) = true := by
  decide

/-- Q8. -/
theorem test_seqNext : nextIs (exec .seqNext (sequencerAt .transmitting 3 .doneOk)) (fun t =>
    decide (t.txlog = [⟨3, List.replicate 25 0, .ok⟩] ∧ t.txs = .idle ∧ t.k = 4 ∧ t.seqState = .transmitting)) = true := by
  decide

/-- Q9. -/
theorem test_seqLast : nextIs (exec .seqLast (sequencerAt .transmitting 15 .doneOk)) (fun t =>
    decide (t.txlog = [⟨15, List.replicate 25 0, .ok⟩] ∧ t.gapt = some 0 ∧ t.seqState = .resetDelay ∧ t.k = 15)) = true := by
  decide

/-- Q10. -/
theorem test_seqFault : nextIs (exec .seqFault (sequencerAt .transmitting 4 .doneErr)) (fun t =>
    decide (t.txlog = [⟨4, List.replicate 25 0, .err⟩] ∧ t.fault = true ∧ t.faultChunk = 4 ∧ t.faultlog = [4] ∧
      t.txs = .idle ∧ t.gapt = some 0 ∧ t.seqState = .resetDelay ∧ t.k = 4)) = true := by
  decide

/-- Q14: the gap has lasted exactly 100 microseconds. -/
theorem test_seqGapDone : nextIs (exec .seqGapDone { State.reset with seqState := .resetDelay, k := 15, gapt := some 100 })
    (fun t => decide (t.linelog = [.gap 100] ∧ t.seqState = .waitingForChange ∧ t.k = 15)) = true := by
  decide

/-- Q13: one microsecond short. -/
theorem test_seqGapDone_early : nextIs (exec .seqGapDone { State.reset with seqState := .resetDelay, gapt := some 99 })
    (fun t => decide (t.seqState = .resetDelay ∧ t.linelog = [])) = true := by
  decide

/-! ### The transmitter (X1 to X4) -/

/-- X1: the chunk the sequencer presents. -/
theorem test_txAccept : nextIs (exec .txAccept { State.reset with offer := some redChunk })
    (fun t => decide (t.txChunk = some redChunk ∧ t.txs = .busy ∧ t.offer = none)) = true := by
  decide

/-- R176: a move of the transmitter alone submits nothing, though `SEQ_SUBMIT` is enabled. -/
theorem test_txAccept_alone : nextIs (step { sequencerAt .transmitting 3 .idle with sched := [.txAccept] })
    (fun t => decide (t = sequencerAt .transmitting 3 .idle)) = true := by
  decide

/-- X2: 48 segments, 168 ticks. -/
theorem test_txOk : nextIs (exec .txOk (playing redChunk)) (fun t =>
    decide (t.linelog.length = 48 ∧ waveTicks t.linelog = 168 ∧ t.linelog[16]? = some (.seg 1 5) ∧ t.line = 0 ∧
      t.txs = .doneOk)) = true := by
  decide

/-- X3: three segments. -/
theorem test_txErr : nextIs (exec .txErr { playing redChunk with drawSegs := 3 }) (fun t =>
    decide (t.linelog = [.seg 1 2, .seg 0 5, .seg 1 2] ∧ t.line = 0 ∧ t.txs = .doneErr)) = true := by
  decide

/-- R196: the last segment may be cut short. -/
theorem test_txErr_cut : nextIs (exec .txErr { playing redChunk with drawSegs := 2, drawCut := 1 }) (fun t =>
    decide (t.linelog = [.seg 1 2, .seg 0 1])) = true := by
  decide

/-! ### Steps -/

/-- W20 at the port: an illegal word is answered, nothing else changes. -/
theorem test_step_illegal : nextIs (step (moving [.requester 1 0])) (fun t =>
    decide (t.port 1 = ⟨none, some 0x80000000, false⟩ ∧ t.pending = false ∧ t.frame = [])) = true := by
  decide

/-- C8, F6: the block stays in reset, and no later move is answered. -/
theorem test_step_invalidConfiguration : nextIs (step (moving [.reset { Config.t1 with word2 := 0x3F800001 }]))
    (fun t => decide (t.held = true ∧ t.cfg = Cfg.t1)) = true := by
  decide

/-- R35: the gap timer counts. -/
theorem test_step_elapse : nextIs (step { moving [.elapse 60] with gapt := some 39 })
    (fun t => decide (t.gapt = some 99)) = true := by
  decide

/-- R192, R194: a play drives the line to its segments in order, high then low; its end leaves the line low. -/
theorem test_step_drive : nextIs (step { playing redChunk with sched := [.drive] })
      (fun t => decide (t.line = 1 ∧ t.play = 1 ∧ t.linelog = [])) = true ∧
    nextIs (step { playing redChunk with play := 1, line := 1, sched := [.drive] })
      (fun t => decide (t.line = 0 ∧ t.play = 2)) = true ∧
    nextIs (step { playing redChunk with play := 48, sched := [.drive] })
      (fun t => decide (t.line = 0 ∧ t.play = 48)) = true := by
  decide

/-- R196: what the line has been driven to got out. -/
theorem test_txErr_driven : nextIs (exec .txErr { playing redChunk with play := 2, drawSegs := 0 }) (fun t =>
    decide (t.linelog = [.seg 1 2, .seg 0 5] ∧ t.play = 0)) = true := by
  decide

/-- R38: a play reads the buffer. -/
theorem test_step_drive_unwritten : faultIs (step { moving [.drive] with txs := .busy }) .unwrittenTxBuf = true := by decide

/-! ### Witnesses: the hypotheses of each statement can be met, clause by clause, at the boundaries of their ranges -/

/-- A launch of the sequencer with the moves of a pass to come. -/
def waking (moves : List Move) : State := { moving moves with pending := true }

theorem witness_DecodeEncodeRoundTrip : (Instr.setPixel 31 0 0 0).wellFormed = true ∧ Instr.txErr.wellFormed = true := by
  decide

theorem witness_LegalWordIsItsEncoding : decodeCmd 0x3FFFFFFF = .instr (.setPixel 31 0xFF 0xFF 0xFF) ∧
    decodeCmd 0x9F000000 = .instr (.fbRead 31) := by
  decide

theorem witness_ConfigurationWordsPackPulses : cfgWordsValid { Config.t1 with word0 := 0x7FFF7FFF } = true := by decide

/-- C1, C8 and the bounds: the validity of each clause fails on one side and holds on the other. -/
theorem witness_ConfigurationValidity : cfgWordsValid Config.t1 = true ∧
    cfgWordsValid { Config.t1 with word1 := 0x00010001 } = true ∧ cfgWordsValid { Config.t1 with word1 := 0x00000001 } = false ∧
    cfgWordsValid { Config.t1 with word0 := 0x80050002 } = false ∧ corrValid 0x3F800000 = true ∧
    corrValid 0x3F800001 = false := by
  decide

theorem witness_Correction : (corrValid 0x00000001 = true ∧ val32 0x00000001 = some (1, 149)) ∧
    (corrValid 0x3F800000 = true ∧ val32 0x3F800000 = some (8388608, 23)) ∧ (0 : Byte).toNat ≤ (255 : Byte).toNat := by
  decide

theorem witness_EncodedShape : (∃ ch, ch ∈ encodeFrame Cfg.t1 (List.replicate 48 0)) ∧ 7 < 8 ∧ 23 < 24 :=
  ⟨⟨_, List.mem_map.2 ⟨15, by decide, rfl⟩⟩, by decide, by decide⟩

theorem witness_FrameEncodesPixelByPixel : 15 < 16 ∧ cfgValid Cfg.t1 = true := by decide

theorem witness_DecodedChunkIsCorrectedPixel : zeroWord Cfg.t1 ≠ oneWord Cfg.t1 := by decide

theorem witness_ChunkWaveform : cfgValid Cfg.t1 = true ∧ (encodePixel Cfg.t1 0 255 0)[23]? = some 0x00058002 := by decide

theorem witness_SetPixelCommand : ((owing 0x2F0A141E).port (owing 0x2F0A141E).me).nowed = true ∧
    (State.reset.port State.reset.me).nowed = false ∧ 16 ≤ 16 ∧ 15 < 16 ∧ State.reset.guard = none ∧
    (inOtherWindow.port inOtherWindow.me).nowed = false ∧ inOtherWindow.guard ≠ none := by
  decide

theorem witness_OpenCommand : (State.reset.port State.reset.me).nowed = false ∧ State.reset.guard = none ∧
    (inOtherWindow.port inOtherWindow.me).nowed = false ∧ inOtherWindow.guard ≠ none ∧
    (0x40000001 : Word).extractLsb' 29 3 = 0b010#3 ∧ (0x40000001 : Word).extractLsb' 0 29 ≠ 0 := by
  decide

/-- For `FB_WRITE` and `FB_READ`: no window, a window with index 16, a window with index 15. -/
theorem witness_WindowCommands : (inOwnWindow.port inOwnWindow.me).nowed = false ∧
    (inOtherWindow.port inOtherWindow.me).nowed = false ∧ inOtherWindow.guard ≠ some (.requester inOtherWindow.me) ∧
    inOwnWindow.guard = some (.requester inOwnWindow.me) ∧ 16 ≤ 16 ∧ 15 < 16 ∧
    (0x80000001 : Word).extractLsb' 29 3 = 0b100#3 ∧ (0x80000001 : Word).extractLsb' 0 24 ≠ 0 := by
  decide

theorem witness_CloseCommand : ((owing 0xA0000000).port (owing 0xA0000000).me).nowed = true ∧
    (State.reset.port State.reset.me).nowed = false ∧ State.reset.guard ≠ some (.requester State.reset.me) ∧
    (inOwnWindow.port inOwnWindow.me).nowed = false ∧ inOwnWindow.guard = some (.requester inOwnWindow.me) ∧
    (0xA0000100 : Word).extractLsb' 29 3 = 0b101#3 ∧ (0xA0000100 : Word).extractLsb' 0 29 ≠ 0 := by
  decide

theorem witness_OwingRequesterOnlyNotifies : isCommand .fbClose = true ∧
    ((owing 0xA0000000).port (owing 0xA0000000).me).nowed = true := by
  decide

theorem witness_IllegalWordIsAnswered : (moving [.requester 1 0]).held = false ∧
    (moving [.requester 1 0]).sched = [.requester 1 0] ∧ 1 < (moving [.requester 1 0]).nReq ∧
    ((moving [.requester 1 0]).port 1).cmd = none ∧ decodeCmd 0 = .rejected .reservedOp := by
  decide

/-- PS19, with index 15. -/
def selfStall (w : Word) : State := { inOwnWindow with sched := [.requester 0 w] }

theorem witness_HolderStallsItself : (selfStall 0x2F000001).held = false ∧
    (selfStall 0x2F000001).sched = [.requester 0 0x2F000001] ∧ 0 < (selfStall 0x2F000001).nReq ∧
    (selfStall 0x2F000001).guard = some (.requester 0) ∧ ((selfStall 0x2F000001).port 0).nowed = false ∧ 15 < 16 ∧
    decodeCmd ((selfStall 0x2F000001).cmdOf 0 0x2F000001) = .instr (.setPixel 15 0 0 1) ∧
    decodeCmd ((selfStall 0x40000000).cmdOf 0 0x40000000) = .instr .fbOpen := by
  decide

theorem witness_PixelWritesDoNotMix : Memory.wf frameDefault 48 redPixel.frame ∧ 0 < 16 ∧ 15 < 16 ∧
    (toInternal 1 2 3).length = 3 ∧ (0 : Nat) ≠ 15 :=
  ⟨⟨by decide, by decide⟩, by decide, by decide, by decide, by decide⟩

theorem witness_WakeStep : (waking []).seqState = .waitingForChange ∧ (waking []).pending = true ∧
    ¬(State.reset.seqState = .waitingForChange ∧ State.reset.pending = true) := by
  decide

theorem witness_SnapshotStep : ({ redPixel with seqState := .snapshotting } : State).seqState = .snapshotting ∧
    ({ redPixel with seqState := .snapshotting } : State).guard = none ∧
    ¬(State.reset.seqState = .snapshotting ∧ State.reset.guard = none) := by
  decide

/-- An encoding sequencer with a black snapshot. -/
def encodingBlack : State :=
  { State.reset with seqState := .encoding, snap := cellsFill 48 0 [] }

theorem witness_EncodeStep : encodingBlack.seqState = .encoding ∧ encodingBlack.snapBytes = some (List.replicate 48 0) ∧
    State.reset.seqState ≠ .encoding ∧ 15 < 16 ∧ 400 ≤ 400 := by
  decide

theorem witness_SubmitStep : (sequencerAt .transmitting 15 .idle).seqState = .transmitting ∧
    (sequencerAt .transmitting 15 .idle).txs = .idle ∧
    (sequencerAt .transmitting 15 .idle).chunk 15 = some (List.replicate 25 0) ∧
    ¬(State.reset.seqState = .transmitting ∧ State.reset.txs = .idle) ∧ 25 ≤ 25 ∧
    ({ State.reset with offer := some redChunk } : State).txs = .idle ∧ redChunk.length = 25 ∧
    (playing redChunk).txs ≠ .idle ∧ State.reset.offer = none := by
  decide

theorem witness_NextChunkStep : (sequencerAt .transmitting 14 .doneOk).seqState = .transmitting ∧
    (sequencerAt .transmitting 14 .doneOk).txs = .doneOk ∧ (sequencerAt .transmitting 14 .doneOk).k.toNat < 15 ∧
    (sequencerAt .transmitting 14 .doneOk).chunk 14 = some (List.replicate 25 0) ∧
    ¬(State.reset.seqState = .transmitting ∧ State.reset.txs = .doneOk ∧ State.reset.k.toNat < 15) := by
  decide

theorem witness_LastChunkStep : (sequencerAt .transmitting 15 .doneOk).seqState = .transmitting ∧
    (sequencerAt .transmitting 15 .doneOk).txs = .doneOk ∧ (sequencerAt .transmitting 15 .doneOk).k.toNat = 15 ∧
    (sequencerAt .transmitting 15 .doneOk).chunk 15 = some (List.replicate 25 0) ∧
    ¬(State.reset.seqState = .transmitting ∧ State.reset.txs = .doneOk ∧ State.reset.k.toNat = 15) := by
  decide

theorem witness_FaultStep : (sequencerAt .transmitting 15 .doneErr).seqState = .transmitting ∧
    (sequencerAt .transmitting 15 .doneErr).txs = .doneErr ∧
    (sequencerAt .transmitting 15 .doneErr).chunk 15 = some (List.replicate 25 0) ∧
    ¬(State.reset.seqState = .transmitting ∧ State.reset.txs = .doneErr) := by
  decide

theorem witness_GapDoneStep : ({ State.reset with seqState := .resetDelay, gapt := some 100 } : State).seqState = .resetDelay ∧
    State.reset.cfg.resetDelayUs.toNat ≤ 100 ∧ 99 < State.reset.cfg.resetDelayUs.toNat ∧
    State.reset.seqState ≠ .resetDelay := by
  decide

theorem witness_Completions : (playing redChunk).txs = .busy ∧ (playing redChunk).txChunk = some redChunk ∧
    State.reset.txs ≠ .busy := by
  decide

theorem witness_CompletionErrStep_lastSegment : 47 + 1 = (failedWave 48 0 (wave redChunk)).length ∧
    (wave redChunk)[47]? = some (.seg 0 5) := by
  decide

theorem witness_UnwrittenReadsAreFaults : ({ State.reset with seqState := .encoding } : State).snapBytes = none ∧
    ({ State.reset with seqState := .transmitting } : State).txs = .idle ∧
    ({ State.reset with seqState := .transmitting } : State).chunk 0 = none ∧
    ({ State.reset with seqState := .transmitting, txs := .doneOk, k := 14 } : State).chunk 14 = none ∧
    ({ State.reset with seqState := .transmitting, txs := .doneOk, k := 15 } : State).chunk 15 = none ∧
    ({ State.reset with seqState := .transmitting, txs := .doneErr } : State).chunk 0 = none ∧
    ({ moving [.drive] with txs := .busy } : State).txChunk = none ∧
    ({ moving [.drive] with txs := .busy } : State).held = false := by
  decide

theorem witness_StepRunsDecodedInstruction : (moving [.requester 1 0x40000000]).held = false ∧ 1 < State.reset.nReq ∧
    decodeCmd ((moving []).cmdOf 1 0x40000000) = .instr .fbOpen ∧
    decode (.seq (waking [.sequencer]).seqView) = .instr .seqWake ∧
    (let s := { sequencerAt .transmitting 0 .idle with offer := some redChunk, sched := [.txAccept] }
     decode (.accept s.seqView s.offer.isSome) = .instr .txAccept) ∧
    decode (.completion (playing redChunk).txs 1) = .instr .txErr ∧ decode (.bit 1) = .instr .bit2pulseOne := by
  decide

theorem witness_FreeEnvironmentMoves : State.reset.sched = [] := by decide

theorem witness_StalledAgentsChangeNothing : State.reset.held = false ∧
    decode (.seq State.reset.seqView) = .rejected .notEnabled ∧
    decode (.accept State.reset.seqView State.reset.offer.isSome) = .rejected .notEnabled ∧ State.reset.nReq ≤ 2 := by
  decide

theorem witness_Reset : cfgWordsValid Config.t2 = true ∧ cfgWordsValid { Config.t1 with word2 := 0 } = false ∧
    (moving [.reset Config.t2]).sched = [.reset Config.t2] := by
  decide

theorem witness_HeldRefuses : ({ moving [.sequencer] with held := true } : State).held = true ∧ isReset .sequencer = false := by
  decide

theorem witness_TimerCountsElapsedTime : (moving [.elapse 1]).held = false ∧ (moving [.elapse 1]).gapt = none ∧
    ({ moving [.elapse 1] with gapt := some 0 } : State).gapt = some 0 := by
  decide

/-- For the statements over every instruction that answers a next state: one of each kind of agent does. -/
theorem witness_AgentsAnswer : (∃ t, exec .fbOpen State.reset = .next t) ∧ (∃ t, exec .seqWake (waking []) = .next t) ∧
    (∃ t, exec .bit2pulseOne State.reset = .next t) :=
  ⟨⟨_, rfl⟩, ⟨_, rfl⟩, ⟨_, rfl⟩⟩

theorem witness_ControlTransferTable_reset : ∃ t, step (moving [.reset Config.t1]) = .next t ∧
    isReset (nextMove (moving [.reset Config.t1])) = true :=
  ⟨_, rfl, rfl⟩

theorem witness_NotificationIsNeverDropped : ∃ t, step (waking [.sequencer]) = .next t ∧
    (waking [.sequencer]).pending = true ∧ isReset (nextMove (waking [.sequencer])) = false :=
  ⟨_, rfl, rfl, rfl⟩

theorem witness_OnlyOwedCommandsNotify : ∃ t, exec .fbClose (owing 0xA0000000) = .next t ∧
    (owing 0xA0000000).pending = false ∧ t.pending = true :=
  ⟨_, rfl, rfl, rfl⟩

theorem witness_FrameWrittenOnlyUnderGuard : ∃ t, exec (.setPixel 15 1 2 3) State.reset = .next t ∧
    t.frame ≠ State.reset.frame :=
  ⟨_, rfl, by decide⟩

theorem witness_WindowExcludesOtherAgents : ∃ t, step { inOwnWindow with sched := [.requester 1 0x20FF0000] } = .next t ∧
    inOwnWindow.guard = some (.requester 0) ∧ ∀ w, Move.requester 1 0x20FF0000 ≠ .requester 0 w :=
  ⟨_, rfl, rfl, by intro w h; cases h⟩

theorem witness_RolesOfAgents : isCommand .fbOpen = true ∧ isSequencerStep .seqWake = true ∧ isCommand .txOk = false ∧
    isSequencerStep .txOk = false := by
  decide

/-- The three changes of `TXS` by a step, with nothing presented. -/
theorem witness_RolesOfAgents_steps :
    nextIs (step { sequencerAt .transmitting 15 .idle with sched := [.sequencer] }) (fun t => decide (t.txs = .busy)) = true ∧
    nextIs (step { playing redChunk with sched := [.transmitter 1 3 0] }) (fun t => decide (t.txs = .doneErr)) = true ∧
    nextIs (step { sequencerAt .transmitting 15 .doneOk with sched := [.sequencer] }) (fun t => decide (t.txs = .idle)) = true ∧
    State.reset.offer = none := by
  decide

theorem witness_FaultIsSticky : ∃ t, step { sequencerAt .transmitting 4 .doneErr with sched := [.sequencer] } = .next t ∧
    t.fault = true :=
  ⟨_, rfl, rfl⟩

theorem witness_StepsThatAreNoReset : ∃ t, step (moving [.elapse 1]) = .next t ∧
    isReset (nextMove (moving [.elapse 1])) = false ∧ (moving [.elapse 1]).line = 0 :=
  ⟨_, rfl, rfl, rfl⟩

/-- A state of the invariant that is not the reset state: a pixel is written, a fault is recorded, a wake is due. -/
def faultedAndWaking : State :=
  { redPixel with pending := true, fault := true, faultChunk := 4, faultlog := [4], sched := [.sequencer] }

/-- No port of `s` has been written. -/
theorem portsOk_fresh {s : State} (h0 : s.ports = []) (h1 : 1 ≤ s.nReq) (h2 : s.guard = none) : PortsOk s := by
  have hp : ∀ r, s.port r = Port.idle := fun r => by rw [State.port, h0]; rfl
  refine ⟨h1, by rw [h2]; decide, fun r h => ?_, fun r w h => ?_, fun r h => ?_⟩
  · rw [h2] at h; cases h
  · rw [hp] at h; cases h
  · rw [hp] at h; cases h

theorem witness_StateInv : StateInv faultedAndWaking ∧ ∃ t, step faultedAndWaking = .next t := by
  refine ⟨⟨?_, portsOk_fresh rfl (by decide) rfl, ?_, ?_, ?_, ?_⟩, ⟨_, rfl⟩⟩
  · exact ⟨⟨by decide, by decide⟩, ⟨by decide, by decide⟩, ⟨by decide, by decide⟩, ⟨by decide, by decide⟩,
      ⟨by decide, by decide⟩⟩
  · exact ⟨fun _ => rfl, by decide, by decide, by decide, fun _ => rfl, nofun, rfl⟩
  · exact ⟨by decide, fun _ => rfl⟩
  · refine ⟨fun h => absurd h (by decide), fun h => absurd h (by decide), fun h => absurd h (by decide),
      fun _ => ⟨[], rfl, ?_⟩, fun _ _ => .inl rfl⟩
    intro p h
    cases h
  · exact ⟨by decide, by decide⟩

/-- Forty-eight bytes: a black frame. -/
def black : List Byte := List.replicate 48 0

/-- A pass of black pixels in `ResetDelay` with the gap elapsed, ended by chunk `k`; the line has its waveforms, and nothing of
a failed chunk. -/
def passEnding (k : BitVec 4) (entries : List TxEntry) (waves : Nat) (faults : List (BitVec 4)) : State :=
  { State.reset with seqState := .resetDelay, k := k, gapt := some 100, snap := cellsFill 48 0 [], txlog := entries,
                     linelog := okWaves Cfg.t1 black waves, fault := faults != [], faultChunk := k, faultlog := faults,
                     sched := [.sequencer] }

/-- Such a state meets the invariant when its logs end with a pass. -/
theorem passEnding_inv {k : BitVec 4} {entries : List TxEntry} {waves : Nat} {faults : List (BitVec 4)}
    (hf : faults = [] ∨ faults = [k]) (hs : SingleSnapshot Cfg.t1 entries)
    (hc : k = 15 ∧ EndsFullPass Cfg.t1 black entries (okWaves Cfg.t1 black waves) [] ∨
      (faults != []) = true ∧ k = k ∧ EndsFaultedPass Cfg.t1 black k.toNat entries (okWaves Cfg.t1 black waves) []) :
    StateInv (passEnding k entries waves faults) := by
  have hnil : ∀ {α : Type} [DecidableEq α] (d : Option α) (n : Nat), Memory.wf d n ([] : List (Nat × α)) :=
    fun _ _ => ⟨List.Pairwise.nil, by simp⟩
  refine ⟨⟨hnil _ _, ?_, hnil _ _, hnil _ _, hnil _ _⟩, portsOk_fresh rfl (Nat.le_succ 1) rfl, ?_, ?_, ?_, ?_⟩
  · show Memory.wf unwritten 48 (cellsFill 48 0 [])
    decide
  · exact ⟨fun _ => rfl, fun h => absurd rfl h, ⟨fun _ => rfl, fun _ => rfl⟩, fun h => absurd rfl h, fun _ => rfl, nofun, rfl⟩
  · rcases hf with rfl | rfl
    · exact ⟨⟨nofun, fun h => absurd rfl h⟩, nofun⟩
    · exact ⟨⟨fun _ => List.cons_ne_nil _ _, fun _ => rfl⟩, fun _ => rfl⟩
  · refine ⟨nofun, nofun, fun _ => ⟨black, ?_, rfl, hc⟩, fun _ => hs, fun _ h => absurd rfl h⟩
    show cellsReadRange unwritten (cellsFill 48 0 []) 0 48 = some black
    decide
  · exact ⟨nofun, fun _ => show cfgValid Cfg.t1 = true by decide⟩

/-- Any interleaving: a state of the invariant that ends a full pass. -/
theorem witness_FullPassLaw_ends : StateInv (passEnding 15 (okEntries Cfg.t1 black 16) 16 []) ∧
    ∃ t, step (passEnding 15 (okEntries Cfg.t1 black 16) 16 []) = .next t ∧ t.seqState = .waitingForChange ∧
      ∀ e, t.txlog.getLast? = some e → e.result = .ok := by
  refine ⟨passEnding_inv (.inl rfl) ?_ (.inl ⟨rfl, [], [], singleSnapshot_nil _, lineRests_nil, rfl, ?_⟩), _, rfl, rfl, ?_⟩
  · exact singleSnapshot_append (singleSnapshot_nil _) (bytes := black) rfl (passOf_okEntries _ _ (Nat.le_refl 16))
  · simp
  · intro e h
    have h : (okEntries Cfg.t1 black 16).getLast? = some e := h
    rw [okEntries_succ, List.getLast?_concat] at h
    cases h
    rfl

/-- Any interleaving: a state of the invariant that ends a pass whose chunk 0 failed, with nothing on the line. -/
theorem witness_FaultedPassLaw_ends : StateInv (passEnding 0 [⟨0, encodeChunk Cfg.t1 black 0, .err⟩] 0 [0]) ∧
    ∃ t e, step (passEnding 0 [⟨0, encodeChunk Cfg.t1 black 0, .err⟩] 0 [0]) = .next t ∧ t.seqState = .waitingForChange ∧
      t.txlog.getLast? = some e ∧ e.result = .err := by
  refine ⟨passEnding_inv (.inr rfl) ?_ (.inr ⟨rfl, rfl, [], [], 0, 0, singleSnapshot_nil _, lineRests_nil, rfl, rfl⟩),
    _, _, rfl, rfl, rfl, rfl⟩
  exact singleSnapshot_append (singleSnapshot_nil _) (bytes := black) rfl
    (passOf_snoc .err (passOf_okEntries Cfg.t1 black (Nat.zero_le 16)) rfl)

/-- Reset, `Transmitting`, with the black frame snapshot and encoded, and a drive move to come. -/
def stagedBlack : State :=
  stageFrame black { State.reset with seqState := .transmitting, snap := cellsFill 48 0 [], sched := [.drive] }

/-- The same with chunk 0 accepted; its play has come to segment `p`, and the line is low. -/
def playingBlack (p : Nat) : State := { acceptChunk (encodeChunk Cfg.t1 black 0) stagedBlack with play := p }

/-- Such a state meets the invariant before the first segment and after an even number of them. -/
theorem playingBlack_inv (p : Nat) (hp : p ≤ (wave (encodeChunk Cfg.t1 black 0)).length)
    (hl : 0 = lineAfter (wave (encodeChunk Cfg.t1 black 0)) p) : StateInv (playingBlack p) := by
  have hnil : ∀ {α : Type} [DecidableEq α] (d : Option α) (n : Nat), Memory.wf d n ([] : List (Nat × α)) :=
    fun _ _ => ⟨List.Pairwise.nil, by simp⟩
  have hst : ∀ k, k < 16 → (playingBlack p).chunk k = some (encodeChunk Cfg.t1 black k) :=
    fun k hk => (chunk_eq_of_staging (s := stagedBlack) rfl k).trans (chunk_stageFrame black _ k hk)
  have htx : (playingBlack p).txChunk = some (encodeChunk Cfg.t1 black 0) :=
    txChunk_acceptChunk _ _ (encodeChunk_length _ _ _)
  have hk : (playingBlack p).k.toNat = 0 := rfl
  refine ⟨⟨hnil _ _, ?_, ?_, ?_, hnil _ _⟩, portsOk_fresh rfl (Nat.le_succ 1) rfl, ?_, ?_, ?_, ?_⟩
  · show Memory.wf unwritten 48 (cellsFill 48 0 [])
    decide
  · exact cellsWrite_wf _ _ _ _ _ (hnil _ _) (by rw [encodeFrame_flatten_length]; decide)
  · exact cellsWrite_wf _ _ _ _ _ (hnil _ _) (by rw [encodeChunk_length]; decide)
  · refine ⟨fun h => absurd rfl h, fun _ => rfl, ⟨nofun, nofun⟩, fun _ => by rw [htx, hk, hst 0 (by decide)],
      fun h => absurd rfl h, fun ds _ h => ?_, rfl⟩
    cases htx.symm.trans h
    exact ⟨hp, .inl hl⟩
  · exact ⟨⟨nofun, fun h => absurd rfl h⟩, nofun⟩
  · refine ⟨nofun, fun _ => ⟨black, ?_, rfl, hst, [], rfl, [], [], singleSnapshot_nil _, lineRests_nil, rfl, rfl⟩,
      nofun, fun h => absurd rfl h, fun h => absurd rfl h⟩
    show cellsReadRange unwritten (cellsFill 48 0 []) 0 48 = some black
    decide
  · exact ⟨nofun, fun _ => show cfgValid Cfg.t1 = true by decide⟩

/-- The invariant before a play's first segment and at its end; a step of another agent while a chunk plays. -/
theorem witness_DriveStep : StateInv (playingBlack 0) ∧ StateInv (playingBlack 48) ∧ (playingBlack 48).txs = .busy ∧
    (playingBlack 48).sched = [.drive] ∧ (wave redChunk)[47]? = some (.seg 0 5) ∧ (wave redChunk).length = 48 ∧
    State.reset.txs ≠ .busy ∧ ({ moving [.drive] with txs := .busy } : State).txChunk = none ∧
    nextIs (step { playing redChunk with sched := [.elapse 1] }) (fun t => decide (t.txs = .busy)) = true :=
  ⟨playingBlack_inv 0 (by decide) (by decide), playingBlack_inv 48 (by decide) (by decide), rfl, rfl, by decide⟩

theorem witness_FullPassLaw : AboutToWake (waking (passMoves 16 [] 100)) ∧
    (waking (passMoves 16 [] 100)).sched = passMoves 16 [] State.reset.cfg.resetDelayUs.toNat ++ [] :=
  ⟨⟨rfl, rfl, rfl, rfl, rfl⟩, by decide⟩

/-- Chunk 15 fails. -/
theorem witness_FaultedPassLaw : AboutToWake (waking (passMoves 15 (submissionMoves 1 3 0) 100)) ∧ 15 < 16 ∧
    (waking (passMoves 15 (submissionMoves 1 3 0) 100)).sched =
      passMoves 15 (submissionMoves 1 3 0) State.reset.cfg.resetDelayUs.toNat ++ [] :=
  ⟨⟨rfl, rfl, rfl, rfl, rfl⟩, by decide, by decide⟩

end Sys2Proof.Tests
end

section
/-! SUPPORT. The rules of the invariant's parts: which elements each part reads, what the shared operations keep of it, and how it
is put together again after a step (spec/10_state.md). -/

namespace Sys2Proof.Machine

/-! ### Memories in canonical form -/

/-- `MemoriesOk` is about the five memories and the number of ports alone. -/
theorem MemoriesOk.of_eq {s t : State} (h : MemoriesOk s) (hframe : t.frame = s.frame) (hsnap : t.snap = s.snap)
    (hstaging : t.staging = s.staging) (htxbuf : t.txbuf = s.txbuf) (hports : t.ports = s.ports) (hn : t.nReq = s.nReq) :
    MemoriesOk t where
  frame := hframe ▸ h.frame
  snap := hsnap ▸ h.snap
  staging := hstaging ▸ h.staging
  txbuf := htxbuf ▸ h.txbuf
  ports := by rw [hports, hn]; exact h.ports

theorem MemoriesOk.acquireGuard {s : State} (h : MemoriesOk s) (a : Agent) : MemoriesOk (acquireGuard a s) :=
  h.of_eq rfl rfl rfl rfl rfl rfl

theorem MemoriesOk.releaseGuard {s : State} (h : MemoriesOk s) : MemoriesOk (releaseGuard s) :=
  h.of_eq rfl rfl rfl rfl rfl rfl

theorem MemoriesOk.notify {s : State} (h : MemoriesOk s) : MemoriesOk (notify s) := h.of_eq rfl rfl rfl rfl rfl rfl

theorem MemoriesOk.setPort {s : State} {r : Nat} (h : MemoriesOk s) (p : Port) (hr : r < s.nReq) :
    MemoriesOk (setPort r p s) :=
  ⟨h.frame, h.snap, h.staging, h.txbuf, ports_write_wf p h.ports hr⟩

theorem MemoriesOk.writePixel {s : State} {i : Nat} (h : MemoriesOk s) (r g b : Byte) (hi : i < 16) :
    MemoriesOk (writePixel i (toInternal r g b) s) :=
  ⟨writePixel_wf h.frame hi rfl, h.snap, h.staging, h.txbuf, h.ports⟩

theorem MemoriesOk.copySnapshot {s : State} (h : MemoriesOk s) : MemoriesOk (copySnapshot s) :=
  ⟨h.frame, cellsWrite_wf _ _ _ _ _ h.snap (by simp [Config.frameBytes]), h.staging, h.txbuf, h.ports⟩

theorem MemoriesOk.stageFrame {s : State} (h : MemoriesOk s) (bytes : List Byte) : MemoriesOk (stageFrame bytes s) :=
  ⟨h.frame, h.snap, cellsWrite_wf _ _ _ _ _ h.staging (by rw [encodeFrame_flatten_length]; decide), h.txbuf, h.ports⟩

theorem MemoriesOk.acceptChunk {s : State} {c : List Word} (h : MemoriesOk s) (hc : c.length = 25) :
    MemoriesOk (acceptChunk c s) :=
  ⟨h.frame, h.snap, h.staging, cellsWrite_wf _ _ _ _ _ h.txbuf (by simp [hc, Config.txBufCap]), h.ports⟩

/-! ### The guard and the ports -/

/-- `PortsOk` is about the guard and the ports alone. -/
theorem PortsOk.of_eq {s t : State} (h : PortsOk s) (hn : t.nReq = s.nReq) (hguard : t.guard = s.guard)
    (hports : t.ports = s.ports) : PortsOk t := by
  have hport := port_eq_of_ports hports
  exact ⟨hn ▸ h.someRequester, hguard ▸ h.notSequencer, by simpa only [hn, hguard, hport] using h.holder,
    by simpa only [hport] using h.waiting, by simpa only [hport] using h.owing⟩

/-- The command of a requester that owes a notification is an outstanding `SET_PIXEL` or `FB_CLOSE` (R34). -/
theorem PortsOk.waits_of_owing {s : State} {r : Nat} (h : PortsOk s) (w : Word) (ho : (s.port r).nowed = true) :
    WaitingCommand (s.cmdOf r w) true := by
  obtain ⟨v, hv⟩ := Option.isSome_iff_exists.1 (h.owing r ho)
  have hcmd : s.cmdOf r w = v := by rw [State.cmdOf, hv, Option.getD_some]
  rw [hcmd, ← ho]
  exact h.waiting r v hv

/-! ### Handshake, line and timer -/

theorem LinkOk.txs_idle {s : State} (h : LinkOk s) (hq : s.seqState ≠ .transmitting) : s.txs = .idle :=
  Decidable.byContradiction fun hne => hq (h.inPass hne)

theorem LinkOk.gapt_none {s : State} (h : LinkOk s) (hq : s.seqState ≠ .resetDelay) : s.gapt = none :=
  Option.not_isSome_iff_eq_none.1 fun hs => hq (h.timer.1 hs)

/-- With the transmitter idle, only the line, the play position, the offer and the timer are left to say. -/
theorem linkOk_of_idle {s : State} (htx : s.txs = .idle) (hline : s.line = 0) (hplay : s.play = 0) (hoffer : s.offer = none)
    (htimer : s.gapt.isSome = true ↔ s.seqState = .resetDelay) : LinkOk s where
  idleLine _ := hline
  inPass h := absurd htx h
  timer := htimer
  buffered h := absurd htx h
  idlePlay _ := hplay
  playing _ h := by rw [htx] at h; cases h
  notOffered := hoffer

/-- A step that leaves the transmitter idle and touches neither the line nor the play has only the timer left to say. -/
theorem LinkOk.to_idle {s t : State} (h : LinkOk s) (hbusy : s.txs ≠ .busy) (htx : t.txs = .idle) (hline : t.line = s.line)
    (hplay : t.play = s.play) (hoffer : t.offer = s.offer) (htimer : t.gapt.isSome = true ↔ t.seqState = .resetDelay) :
    LinkOk t :=
  linkOk_of_idle htx (hline.trans (h.idleLine hbusy)) (hplay.trans (h.idlePlay hbusy)) (hoffer.trans h.notOffered) htimer

/-! ### The pass in progress -/

/-- Before a snapshot has been taken only the logs are left to say. -/
theorem passOk_of_resting {s : State} (hq : s.seqState = .waitingForChange ∨ s.seqState = .snapshotting)
    (hlog : SingleSnapshot s.cfg s.txlog) (hline : LineRests s.linelog) : PassOk s := by
  refine ⟨fun h => ?_, fun h => ?_, fun h => ?_, fun _ => hlog, fun _ _ => hline⟩ <;>
    · rw [h] at hq
      simp at hq

theorem passOk_of_encoding {s : State} {bytes : List Byte} (hq : s.seqState = .encoding) (hsnap : s.snapBytes = some bytes)
    (hlen : bytes.length = 48) (hlog : SingleSnapshot s.cfg s.txlog) (hline : LineRests s.linelog) : PassOk s := by
  refine ⟨fun _ => ⟨bytes, hsnap, hlen⟩, fun h => ?_, fun h => ?_, fun _ => hlog, fun _ _ => hline⟩ <;>
    · rw [hq] at h
      cases h

theorem passOk_of_transmitting {s : State} {bytes : List Byte} {items : List LineItem} (hq : s.seqState = .transmitting)
    (hsnap : s.snapBytes = some bytes) (hlen : bytes.length = 48)
    (hchunks : ∀ p, p < 16 → s.chunk p = some (encodeChunk s.cfg bytes p))
    (hplayed : PlayedSoFar s.txs (encodeChunk s.cfg bytes s.k.toNat) items)
    (hpass : PassInProgress s.cfg bytes s.k.toNat s.txlog s.linelog items) : PassOk s := by
  refine ⟨fun h => ?_, fun _ => ⟨bytes, hsnap, hlen, hchunks, items, hplayed, hpass⟩, fun h => ?_,
    fun h => absurd hq h, fun h => absurd hq h⟩ <;>
    · rw [hq] at h
      cases h

theorem passOk_of_closing {s : State} {bytes : List Byte} (hq : s.seqState = .resetDelay) (hsnap : s.snapBytes = some bytes)
    (hlen : bytes.length = 48) (hlog : SingleSnapshot s.cfg s.txlog)
    (hends : s.k = 15 ∧ EndsFullPass s.cfg bytes s.txlog s.linelog [] ∨
      s.fault = true ∧ s.faultChunk = s.k ∧ EndsFaultedPass s.cfg bytes s.k.toNat s.txlog s.linelog []) : PassOk s := by
  refine ⟨fun h => ?_, fun h => ?_, fun _ => ⟨bytes, hsnap, hlen, hends⟩, fun _ => hlog, fun _ h => absurd hq h⟩ <;>
    · rw [hq] at h
      cases h

/-- What a completion plays stands behind the waveforms of the chunks before it. -/
theorem passInProgress_played {c : Cfg} {bytes : List Byte} {k : Nat} {txlog : List TxEntry} {linelog : List LineItem}
    (h : PassInProgress c bytes k txlog linelog []) (items : List LineItem) :
    PassInProgress c bytes k txlog (linelog ++ items) items := by
  obtain ⟨done, before, hdone, hbefore, htx, hline⟩ := h
  exact ⟨done, before, hdone, hbefore, htx, by rw [hline, List.append_nil]⟩

/-- A pass in progress with its next entry logged is still of one snapshot, whatever the result (R172). -/
theorem PassInProgress.singleSnapshot_snoc {c : Cfg} {bytes : List Byte} {k : BitVec 4} {txlog : List TxEntry}
    {linelog items : List LineItem} (h : PassInProgress c bytes k.toNat txlog linelog items) (hlen : bytes.length = 48)
    (result : TxResult) : SingleSnapshot c (txlog ++ [⟨k, encodeChunk c bytes k.toNat, result⟩]) := by
  obtain ⟨done, _, hdone, _, htx, _⟩ := h
  have hk := k.isLt
  rw [htx, List.append_assoc]
  exact singleSnapshot_append hdone hlen (passOf_snoc result (passOf_okEntries c bytes (by omega)) (okEntries_length ..))

/-! ### The block out of reset -/

theorem heldOk_of_released {s : State} (hheld : s.held = false) (hcfg : cfgValid s.cfg = true) : HeldOk s where
  waits h := by rw [hheld] at h; cases h
  latched _ := hcfg

/-! ### The whole invariant -/

/-- A state that differs from one of the invariant in nothing but the frame store, the guard, `PENDING`, the ports and the model's
own fields meets it when those do: what is left to show of a requester's move. -/
theorem StateInv.of_portSide {s t : State} (h : StateInv s) (hheld : s.held = false)
    (ht : t = { s with frame := t.frame, guard := t.guard, pending := t.pending, ports := t.ports, me := t.me })
    (hmem : MemoriesOk t) (hports : PortsOk t) : StateInv t := by
  obtain ⟨-, -, link, faultPort, pass, heldOk⟩ := h
  refine ⟨hmem, hports, ?_, ?_, ?_, ?_⟩
  · rw [ht]
    exact ⟨link.idleLine, link.inPass, link.timer, link.buffered, link.idlePlay, link.playing, link.notOffered⟩
  · rw [ht]
    exact ⟨faultPort.sticky, faultPort.latest⟩
  · rw [ht]
    exact ⟨pass.encoding, pass.transmitting, pass.closing, pass.between, pass.resting⟩
  · rw [ht]
    exact heldOk_of_released hheld (heldOk.latched hheld)

/-- No part of the invariant reads the model's own fields: the schedule, the turn, the draws, the encoder's answer. -/
theorem StateInv.of_ownFields {s t : State} (h : StateInv s)
    (ht : t = { s with sched := t.sched, turn := t.turn, drawSegs := t.drawSegs, drawCut := t.drawCut, encOut := t.encOut }) :
    StateInv t := by
  obtain ⟨mem, ports, link, faultPort, pass, heldOk⟩ := h
  rw [ht]
  exact ⟨⟨mem.frame, mem.snap, mem.staging, mem.txbuf, mem.ports⟩,
    ⟨ports.someRequester, ports.notSequencer, ports.holder, ports.waiting, ports.owing⟩,
    ⟨link.idleLine, link.inPass, link.timer, link.buffered, link.idlePlay, link.playing, link.notOffered⟩,
    ⟨faultPort.sticky, faultPort.latest⟩,
    ⟨pass.encoding, pass.transmitting, pass.closing, pass.between, pass.resting⟩, ⟨heldOk.waits, heldOk.latched⟩⟩

theorem StateInv.takeMove {s : State} (h : StateInv s) : StateInv (takeMove s) := by
  refine h.of_ownFields ?_
  rw [takeMove_eq]

end Sys2Proof.Machine
end

section
/-! SUPPORT. What a requester's move does to its port, the guard and the memories (spec/40_pixel_store.md), and that it keeps the
invariant. -/

namespace Sys2Proof.Machine

/-- What a move of requester `r` with the command word `w` leaves at its port and in the guard: the command has been answered, or
it waits for the guard, or step 1 has been done and the notification is owed. The other ports are as before. -/
def MoveLeaves (r : Nat) (w : Word) (s t : State) : Prop :=
  (∀ q, q ≠ r → t.port q = s.port q) ∧
    (((t.port r).cmd = none ∧ (t.port r).nowed = false ∧ (t.guard = s.guard ∨ t.guard = some (.requester r))) ∨
      ((t.port r).cmd = some w ∧ (t.port r).nowed = false ∧ t.guard = s.guard ∧ WaitingCommand w false) ∨
      ((t.port r).cmd = some w ∧ (t.port r).nowed = true ∧ t.guard = none ∧ WaitingCommand w true))

/-- An outstanding command is one that waits, and a notification is owed only by an outstanding command (R34, R110). -/
def PortConsistent (p : Port) : Prop :=
  (∀ w, p.cmd = some w → WaitingCommand w p.nowed) ∧ (p.nowed = true → p.cmd.isSome = true)

theorem PortsOk.consistent {s : State} (h : PortsOk s) (q : Nat) : PortConsistent (s.port q) := ⟨h.waiting q, h.owing q⟩

theorem portConsistent_of_answered {p : Port} (hc : p.cmd = none) (ho : p.nowed = false) : PortConsistent p :=
  ⟨fun _ hv => (nomatch hc.symm.trans hv), fun howes => (nomatch ho.symm.trans howes)⟩

theorem portConsistent_of_waiting {p : Port} {w : Word} (hc : p.cmd = some w) (hw : WaitingCommand w p.nowed) :
    PortConsistent p :=
  ⟨fun _ hv => Option.some.inj (hc.symm.trans hv) ▸ hw, fun _ => by rw [hc]; rfl⟩

theorem MoveLeaves.consistent {r : Nat} {w : Word} {s t : State} (hm : MoveLeaves r w s t) : PortConsistent (t.port r) := by
  obtain ⟨-, ⟨hc, ho, -⟩ | ⟨hc, ho, -, hw⟩ | ⟨hc, ho, -, hw⟩⟩ := hm
  · exact portConsistent_of_answered hc ho
  · exact portConsistent_of_waiting hc (ho ▸ hw)
  · exact portConsistent_of_waiting hc (ho ▸ hw)

/-- Who holds the guard after such a move: nobody, or `r` without a debt, or whoever held it before. -/
theorem MoveLeaves.guard_cases {r : Nat} {w : Word} {s t : State} (hm : MoveLeaves r w s t) :
    t.guard = none ∨ (t.port r).nowed = false ∧ (t.guard = s.guard ∨ t.guard = some (.requester r)) := by
  obtain ⟨-, ⟨-, ho, hg⟩ | ⟨-, ho, hg, -⟩ | ⟨-, -, hg, -⟩⟩ := hm
  · exact .inr ⟨ho, hg⟩
  · exact .inr ⟨ho, .inl hg⟩
  · exact .inl hg

/-- Such a move keeps the guard and the ports consistent. -/
theorem portsOk_of_moveLeaves {r : Nat} {w : Word} {s t : State} (h : PortsOk s) (hr : r < s.nReq) (hn : t.nReq = s.nReq)
    (hm : MoveLeaves r w s t) : PortsOk t := by
  have hother := hm.1
  have hconsistent : ∀ q, PortConsistent (t.port q) := fun q => by
    by_cases hqr : q = r
    · exact hqr ▸ hm.consistent
    · exact hother q hqr ▸ h.consistent q
  refine ⟨hn ▸ h.someRequester, ?_, fun q hq => ?_, fun q => (hconsistent q).1, fun q => (hconsistent q).2⟩
  · rcases hm.guard_cases with hg | ⟨-, hg | hg⟩ <;> rw [hg]
    · nofun
    · exact h.notSequencer
    · nofun
  · rw [hn]
    rcases hm.guard_cases with hg | ⟨ho, hg⟩
    · rw [hg] at hq
      cases hq
    · by_cases hqr : q = r
      · exact hqr ▸ ⟨hr, ho⟩
      · rw [hother q hqr]
        rcases hg with hg | hg <;> rw [hg] at hq
        · exact h.holder q hq
        · cases hq
          exact absurd rfl hqr

/-! ### The five commands and the illegal word, run at port `r` on the word `w` that has just been presented -/

section commands

variable {r : Nat} {w : Word} {s t : State}

theorem presentCmd_me_port (r : Nat) (w : Word) (s : State) :
    (presentCmd r w s).port r = ⟨some (s.cmdOf r w), none, (s.port r).nowed⟩ := by
  rw [port_presentCmd, if_pos rfl]

theorem presentCmd_owes (r : Nat) (w : Word) (s : State) : (presentCmd r w s).owes = (s.port r).nowed := by
  rw [State.owes, presentCmd_me, presentCmd_me_port]

/-- Any answer to a requester that owes nothing. -/
theorem moveLeaves_respond (st : Status) (data : BitVec 24) {u : State} (hme : u.me = r)
    (hport : ∀ q, q ≠ r → u.port q = s.port q) (ho : (u.port r).nowed = false)
    (hg : u.guard = s.guard ∨ u.guard = some (.requester r)) : MoveLeaves r w s (respond st data u) := by
  subst hme
  refine ⟨fun q hq => ?_, .inl ⟨?_, ?_, hg⟩⟩
  · rw [port_respond, if_neg hq, hport q hq]
  · rw [port_respond, if_pos rfl]
  · rw [port_respond, if_pos rfl]
    exact ho

theorem presentCmd_other_port (r : Nat) (w : Word) (s : State) (q : Nat) (hq : q ≠ r) :
    (presentCmd r w s).port q = s.port q := by
  rw [port_presentCmd, if_neg hq]

theorem moveLeaves_presentCmd_respond (st : Status) (data : BitVec 24) (ho : (presentCmd r w s).owes = false) :
    MoveLeaves r (s.cmdOf r w) s (respond st data (presentCmd r w s)) :=
  moveLeaves_respond st data rfl (presentCmd_other_port r w s) ho (.inl rfl)

theorem moveLeaves_finishNotify : MoveLeaves r (s.cmdOf r w) s (finishNotify (presentCmd r w s)) :=
  moveLeaves_respond .ok 0 rfl (fun q hq => by simp [hq]) (by simp) (.inl rfl)

theorem moveLeaves_stall (ho : (presentCmd r w s).owes = false) (hw : WaitingCommand (s.cmdOf r w) false) :
    MoveLeaves r (s.cmdOf r w) s (presentCmd r w s) := by
  rw [presentCmd_owes] at ho
  refine ⟨presentCmd_other_port r w s, .inr (.inl ⟨?_, ?_, rfl, hw⟩)⟩ <;> rw [presentCmd_me_port]
  exact ho

/-- Step 1 of a mutating command: the guard is free and the notification is owed (R34). -/
theorem moveLeaves_setOwed {u : State} (hme : u.me = r) (hport : ∀ q, u.port q = (presentCmd r w s).port q)
    (hg : u.guard = none) (hw : WaitingCommand (s.cmdOf r w) true) :
    MoveLeaves r (s.cmdOf r w) s (setOwed true u) := by
  refine ⟨fun q hq => ?_, .inr (.inr ⟨?_, ?_, hg, hw⟩)⟩
  · rw [port_setOwed, hme, if_neg hq, hport, presentCmd_other_port r w s q hq]
  · rw [port_setOwed, hme, if_pos rfl, hport, presentCmd_me_port]
  · rw [port_setOwed, hme, if_pos rfl]

theorem MemoriesOk.presentCmd (h : MemoriesOk s) (hr : r < s.nReq) : MemoriesOk (presentCmd r w s) :=
  (h.setPort _ hr).of_eq rfl rfl rfl rfl rfl rfl

theorem MemoriesOk.respond (h : MemoriesOk s) (hr : s.me < s.nReq) (st : Status) (data : BitVec 24) :
    MemoriesOk (respond st data s) := h.setPort _ hr

theorem MemoriesOk.setOwed (h : MemoriesOk s) (hr : s.me < s.nReq) (b : Bool) : MemoriesOk (setOwed b s) :=
  h.setPort _ hr

theorem MemoriesOk.finishNotify (h : MemoriesOk s) (hr : s.me < s.nReq) : MemoriesOk (finishNotify s) :=
  (h.notify.setOwed hr false).respond hr .ok 0

/-- A command writes the frame store inside the frame and its issuer's port, so every memory stays in canonical form. -/
theorem exec_command_memories {i : Instr} (hi : isCommand i = true) (h : MemoriesOk s) (hr : s.me < s.nReq)
    (he : exec i s = .next t) : MemoriesOk t := by
  cases i with
  | setPixel idx cr cg cb =>
    obtain ⟨-, rfl⟩ | ⟨-, -, rfl⟩ | ⟨-, hidx, -, rfl⟩ | ⟨-, -, -, rfl⟩ := execSetPixel_next he
    · exact h.finishNotify hr
    · exact h.respond hr _ _
    · exact ((h.acquireGuard _).writePixel cr cg cb hidx).releaseGuard.setOwed hr true
    · exact h
  | fbOpen =>
    obtain ⟨-, -, rfl⟩ | ⟨-, rfl⟩ := execFbOpen_next he
    · exact (h.acquireGuard _).respond hr _ _
    · exact h
  | fbWrite idx cr cg cb =>
    obtain ⟨-, rfl⟩ | ⟨-, -, rfl⟩ | ⟨-, -, -, rfl⟩ | ⟨-, -, hidx, rfl⟩ := execFbWrite_next he
    · exact h
    · exact h.respond hr _ _
    · exact h.respond hr _ _
    · exact (h.writePixel cr cg cb hidx).respond hr _ _
  | fbRead idx =>
    obtain ⟨-, rfl⟩ | ⟨-, -, rfl⟩ | ⟨-, -, -, rfl⟩ | ⟨-, -, -, rfl⟩ := execFbRead_next he
    · exact h
    · exact h.respond hr _ _
    · exact h.respond hr _ _
    · exact h.respond hr _ _
  | fbClose =>
    obtain ⟨-, rfl⟩ | ⟨-, -, rfl⟩ | ⟨-, -, rfl⟩ := execFbClose_next he
    · exact h.finishNotify hr
    · exact h.respond hr _ _
    · exact h.releaseGuard.setOwed hr true
  | seqWake | seqSnapshot | seqEncode | seqSubmit | seqNext | seqLast | seqFault | seqGapDone | txAccept | txOk | txErr
  | bit2pulseZero | bit2pulseOne => cases hi

/-- A command touches the frame store, the guard, `PENDING` and the ports, and nothing else. -/
theorem exec_command_frame {i : Instr} (hi : isCommand i = true) (he : exec i s = .next t) :
    t = { s with frame := t.frame, guard := t.guard, pending := t.pending, ports := t.ports } := by
  cases i with
  | setPixel => obtain ⟨-, rfl⟩ | ⟨-, -, rfl⟩ | ⟨-, -, -, rfl⟩ | ⟨-, -, -, rfl⟩ := execSetPixel_next he <;> rfl
  | fbOpen => obtain ⟨-, -, rfl⟩ | ⟨-, rfl⟩ := execFbOpen_next he <;> rfl
  | fbWrite => obtain ⟨-, rfl⟩ | ⟨-, -, rfl⟩ | ⟨-, -, -, rfl⟩ | ⟨-, -, -, rfl⟩ := execFbWrite_next he <;> rfl
  | fbRead => obtain ⟨-, rfl⟩ | ⟨-, -, rfl⟩ | ⟨-, -, -, rfl⟩ | ⟨-, -, -, rfl⟩ := execFbRead_next he <;> rfl
  | fbClose => obtain ⟨-, rfl⟩ | ⟨-, -, rfl⟩ | ⟨-, -, rfl⟩ := execFbClose_next he <;> rfl
  | seqWake | seqSnapshot | seqEncode | seqSubmit | seqNext | seqLast | seqFault | seqGapDone | txAccept | txOk | txErr
  | bit2pulseZero | bit2pulseOne => cases hi

/-- The command that waits while it owes a notification is neither `FB_OPEN` nor `FB_WRITE` nor `FB_READ` (R34). -/
theorem WaitingCommand.mutates {i : Instr} (h : WaitingCommand w true) (hd : decodeCmd w = .instr i) :
    (∃ idx cr cg cb, i = .setPixel idx cr cg cb) ∨ i = .fbClose := by
  rcases h with ⟨idx, cr, cg, cb, hi, -⟩ | ⟨-, ho⟩ | ⟨hi, -⟩
  · rw [hi] at hd
    cases hd
    exact .inl ⟨idx, cr, cg, cb, rfl⟩
  · cases ho
  · rw [hi] at hd
    cases hd
    exact .inr rfl

/-- The command a requester's move runs leaves its port and the guard consistent. The invariant is needed where the requester owes
a notification: its command is then one that can take step 2. -/
theorem exec_command_moveLeaves {i : Instr} (h : PortsOk s) (hd : decodeCmd (s.cmdOf r w) = .instr i)
    (he : exec i (presentCmd r w s) = .next t) : MoveLeaves r (s.cmdOf r w) s t := by
  have howing : (presentCmd r w s).owes = true → (∃ idx cr cg cb, i = .setPixel idx cr cg cb) ∨ i = .fbClose :=
    fun ho => (h.waits_of_owing w (presentCmd_owes r w s ▸ ho)).mutates hd
  obtain ⟨idx, cr, cg, cb, rfl⟩ | rfl | ⟨idx, cr, cg, cb, rfl⟩ | ⟨idx, rfl⟩ | rfl := decodeCmd_command hd
  · have hw : ∀ b, idx < 16 → WaitingCommand (s.cmdOf r w) b := fun _ hidx => .inl ⟨idx, cr, cg, cb, hd, hidx⟩
    obtain ⟨-, rfl⟩ | ⟨ho, -, rfl⟩ | ⟨-, hidx, -, rfl⟩ | ⟨ho, hidx, -, rfl⟩ := execSetPixel_next he
    · exact moveLeaves_finishNotify
    · exact moveLeaves_presentCmd_respond _ _ ho
    · exact moveLeaves_setOwed rfl (fun _ => rfl) rfl (hw true hidx)
    · exact moveLeaves_stall ho (hw false hidx)
  · have ho : (presentCmd r w s).owes = false := by simpa using mt howing
    obtain ⟨-, -, rfl⟩ | ⟨-, rfl⟩ := execFbOpen_next he
    · exact moveLeaves_respond _ _ rfl (presentCmd_other_port r w s) ho (.inr rfl)
    · exact moveLeaves_stall ho (.inr (.inl ⟨hd, rfl⟩))
  · obtain ⟨ho, rfl⟩ | ⟨ho, -, rfl⟩ | ⟨ho, -, -, rfl⟩ | ⟨ho, -, -, rfl⟩ := execFbWrite_next he
    · simpa using howing ho
    · exact moveLeaves_presentCmd_respond _ _ ho
    · exact moveLeaves_presentCmd_respond _ _ ho
    · exact moveLeaves_respond _ _ rfl (presentCmd_other_port r w s) ho (.inl rfl)
  · obtain ⟨ho, rfl⟩ | ⟨ho, -, rfl⟩ | ⟨ho, -, -, rfl⟩ | ⟨ho, -, -, rfl⟩ := execFbRead_next he
    · simpa using howing ho
    · exact moveLeaves_presentCmd_respond _ _ ho
    · exact moveLeaves_presentCmd_respond _ _ ho
    · exact moveLeaves_presentCmd_respond _ _ ho
  · obtain ⟨-, rfl⟩ | ⟨ho, -, rfl⟩ | ⟨-, -, rfl⟩ := execFbClose_next he
    · exact moveLeaves_finishNotify
    · exact moveLeaves_presentCmd_respond _ _ ho
    · exact moveLeaves_setOwed rfl (fun _ => rfl) rfl (.inr (.inr ⟨hd, rfl⟩))

theorem decodeCmd_isCommand {i : Instr} (hd : decodeCmd w = .instr i) : isCommand i = true := by
  obtain ⟨_, _, _, _, rfl⟩ | rfl | ⟨_, _, _, _, rfl⟩ | ⟨_, rfl⟩ | rfl := decodeCmd_command hd <;> rfl

/-- A requester's command keeps the invariant. -/
theorem StateInv.command {i : Instr} (h : StateInv s) (hheld : s.held = false) (hr : r < s.nReq)
    (hd : decodeCmd (s.cmdOf r w) = .instr i) (he : exec i (Machine.presentCmd r w s) = .next t) : StateInv t := by
  have hi := decodeCmd_isCommand hd
  have hframe := exec_command_frame hi he
  refine h.of_portSide hheld ?_ (exec_command_memories hi (h.memories.presentCmd hr) hr he) ?_
  · rw [hframe]
    rfl
  · exact portsOk_of_moveLeaves h.ports hr (by rw [hframe]; rfl) (exec_command_moveLeaves h.ports hd he)

/-- The answer to an illegal word keeps the invariant. -/
theorem StateInv.illegalWord {why : Reject} (h : StateInv s) (hheld : s.held = false) (hr : r < s.nReq)
    (hd : decodeCmd (s.cmdOf r w) = .rejected why) : StateInv (raiseIllegalCommand (presentCmd r w s)) := by
  have ho : (presentCmd r w s).owes = false := by
    rw [presentCmd_owes, ← Bool.not_eq_true]
    intro ho
    rcases h.ports.waits_of_owing w ho with ⟨_, _, _, _, hi, -⟩ | ⟨-, hno⟩ | ⟨hi, -⟩
    · rw [hi] at hd; cases hd
    · cases hno
    · rw [hi] at hd; cases hd
  exact h.of_portSide hheld rfl ((h.memories.presentCmd hr).respond hr _ _)
    (portsOk_of_moveLeaves h.ports hr rfl (moveLeaves_presentCmd_respond .illegalCommand 0 ho))

end commands

end Sys2Proof.Machine
end

section
/-! SUPPORT. The invariant is kept by every step of the sequencer (spec/43_render_loop.md) and of the transmitter
(spec/44_transmitter.md), by the passing of time and by reset. -/

namespace Sys2Proof.Machine

/-! ### The sequencer's steps -/

section sequencer

variable {s t : State}

theorem StateInv.seqWake (h : StateInv s) (hheld : s.held = false) (he : execSeqWake s = .next t) : StateInv t := by
  obtain ⟨hq, -, rfl⟩ | rfl := execSeqWake_next he
  · have hqt : s.seqState ≠ .transmitting := by rw [hq]; nofun
    have hqd : s.seqState ≠ .resetDelay := by rw [hq]; nofun
    have htx := h.link.txs_idle hqt
    have hgap := h.link.gapt_none hqd
    exact ⟨h.memories.of_eq rfl rfl rfl rfl rfl rfl, h.ports.of_eq rfl rfl rfl,
      h.link.to_idle (by rw [htx]; nofun) htx rfl rfl rfl (by simp [hgap]), ⟨h.faultPort.sticky, h.faultPort.latest⟩,
      passOk_of_resting (.inr rfl) (h.pass.between hqt) (h.pass.resting hqt hqd),
      heldOk_of_released hheld (h.heldOk.latched hheld)⟩
  · exact h

theorem StateInv.seqSnapshot (h : StateInv s) (hheld : s.held = false) (he : execSeqSnapshot s = .next t) : StateInv t := by
  obtain ⟨hq, hg, rfl⟩ | rfl := execSeqSnapshot_next he
  · have hqt : s.seqState ≠ .transmitting := by rw [hq]; nofun
    have hqd : s.seqState ≠ .resetDelay := by rw [hq]; nofun
    have htx := h.link.txs_idle hqt
    have hgap := h.link.gapt_none hqd
    exact ⟨h.memories.copySnapshot.of_eq rfl rfl rfl rfl rfl rfl, h.ports.of_eq rfl hg.symm rfl,
      h.link.to_idle (by rw [htx]; nofun) htx rfl rfl rfl (by simp [hgap]), ⟨h.faultPort.sticky, h.faultPort.latest⟩,
      passOk_of_encoding rfl (snapBytes_copySnapshot s) (frameBytes_length s) (h.pass.between hqt) (h.pass.resting hqt hqd),
      heldOk_of_released hheld (h.heldOk.latched hheld)⟩
  · exact h

/-- A pass begins: the staging buffer holds the encoding of the snapshot, and nothing has been sent. -/
theorem StateInv.seqEncode (h : StateInv s) (hheld : s.held = false) (he : execSeqEncode s = .next t) : StateInv t := by
  obtain ⟨bytes, hq, hsnap, rfl⟩ | rfl := execSeqEncode_next he
  · have hqt : s.seqState ≠ .transmitting := by rw [hq]; nofun
    have hqd : s.seqState ≠ .resetDelay := by rw [hq]; nofun
    have htx := h.link.txs_idle hqt
    have hgap := h.link.gapt_none hqd
    have hpass : PassInProgress s.cfg bytes 0 s.txlog s.linelog [] :=
      ⟨s.txlog, s.linelog, h.pass.between hqt, h.pass.resting hqt hqd, by simp, by simp⟩
    exact ⟨(h.memories.stageFrame bytes).of_eq rfl rfl rfl rfl rfl rfl, h.ports.of_eq rfl rfl rfl,
      h.link.to_idle (by rw [htx]; nofun) htx rfl rfl rfl (by simp [hgap]), ⟨h.faultPort.sticky, h.faultPort.latest⟩,
      passOk_of_transmitting rfl hsnap (cellsReadRange_length hsnap) (chunk_stageFrame bytes s)
        (by rw [stageFrame_txs, htx]; rfl) hpass,
      heldOk_of_released hheld (h.heldOk.latched hheld)⟩
  · exact h

theorem StateInv.seqSubmit (h : StateInv s) (hheld : s.held = false) (he : execSeqSubmit s = .next t) : StateInv t := by
  obtain ⟨c, hq, htx, hc, rfl⟩ | rfl := execSeqSubmit_next he
  · obtain ⟨bytes, hsnap, hlen, hchunks, items, hplayed, hpass⟩ := h.pass.transmitting hq
    have hbuf := txChunk_acceptChunk c s (chunk_length hc)
    have hline : s.line = 0 := h.link.idleLine (by rw [htx]; nofun)
    have hlink : LinkOk (acceptChunk c s) :=
      ⟨fun hne => absurd rfl hne, fun _ => hq, h.link.timer, fun _ => hbuf.trans hc.symm, fun hne => absurd rfl hne,
        fun ds _ _ => ⟨Nat.zero_le _, .inl hline⟩, rfl⟩
    exact ⟨h.memories.acceptChunk (chunk_length hc), h.ports.of_eq rfl rfl rfl, hlink,
      ⟨h.faultPort.sticky, h.faultPort.latest⟩,
      passOk_of_transmitting hq hsnap hlen hchunks (by rwa [htx] at hplayed) hpass,
      heldOk_of_released hheld (h.heldOk.latched hheld)⟩
  · exact h

theorem StateInv.seqNext (h : StateInv s) (hheld : s.held = false) (he : execSeqNext s = .next t) : StateInv t := by
  obtain ⟨c, hq, htx, hk, hc, rfl⟩ | rfl := execSeqNext_next he
  · obtain ⟨bytes, hsnap, hlen, hchunks, items, hplayed, hpass⟩ := h.pass.transmitting hq
    rw [htx, playedSoFar_doneOk] at hplayed
    have hcc : c = encodeChunk s.cfg bytes s.k.toNat := Option.some.inj (hc.symm.trans (hchunks _ (by omega)))
    have hnext := passInProgress_succ (hplayed ▸ hpass)
    have hk1 : (s.k + 1).toNat = s.k.toNat + 1 := by
      rw [BitVec.toNat_add]
      exact Nat.mod_eq_of_lt (by simp; omega)
    rw [BitVec.ofNat_toNat, BitVec.setWidth_eq, ← hcc, ← hk1] at hnext
    have hgap := h.link.gapt_none (by rw [hq]; nofun)
    exact ⟨h.memories.of_eq rfl rfl rfl rfl rfl rfl, h.ports.of_eq rfl rfl rfl,
      h.link.to_idle (by rw [htx]; nofun) rfl rfl rfl rfl (by simp [hgap, hq]), ⟨h.faultPort.sticky, h.faultPort.latest⟩,
      passOk_of_transmitting hq hsnap hlen hchunks rfl hnext, heldOk_of_released hheld (h.heldOk.latched hheld)⟩
  · exact h

theorem StateInv.seqLast (h : StateInv s) (hheld : s.held = false) (he : execSeqLast s = .next t) : StateInv t := by
  obtain ⟨c, hq, htx, hk, hc, rfl⟩ | rfl := execSeqLast_next he
  · obtain ⟨bytes, hsnap, hlen, hchunks, items, hplayed, hpass⟩ := h.pass.transmitting hq
    rw [htx, playedSoFar_doneOk] at hplayed
    have hcc : c = encodeChunk s.cfg bytes s.k.toNat := Option.some.inj (hc.symm.trans (hchunks _ (by omega)))
    have hends := passInProgress_succ (hplayed ▸ hpass)
    rw [BitVec.ofNat_toNat, BitVec.setWidth_eq, ← hcc, hk] at hends
    exact ⟨h.memories.of_eq rfl rfl rfl rfl rfl rfl, h.ports.of_eq rfl rfl rfl,
      h.link.to_idle (by rw [htx]; nofun) rfl rfl rfl rfl (by simp), ⟨h.faultPort.sticky, h.faultPort.latest⟩,
      passOk_of_closing rfl hsnap hlen (hcc ▸ hpass.singleSnapshot_snoc hlen .ok)
        (.inl ⟨BitVec.eq_of_toNat_eq hk, hends⟩),
      heldOk_of_released hheld (h.heldOk.latched hheld)⟩
  · exact h

/-- A failed pass closes, and the fault port says where it failed (R168, R228). -/
theorem StateInv.seqFault (h : StateInv s) (hheld : s.held = false) (he : execSeqFault s = .next t) : StateInv t := by
  obtain ⟨c, hq, htx, hc, rfl⟩ | rfl := execSeqFault_next he
  · obtain ⟨bytes, hsnap, hlen, hchunks, items, hplayed, hpass⟩ := h.pass.transmitting hq
    rw [htx, playedSoFar_doneErr] at hplayed
    obtain ⟨n, cut, rfl⟩ := hplayed
    have hcc : c = encodeChunk s.cfg bytes s.k.toNat := Option.some.inj (hc.symm.trans (hchunks _ s.k.isLt))
    have hlog := hpass.singleSnapshot_snoc hlen .err
    obtain ⟨done, before, hdone, hbefore, htxlog, hlinelog⟩ := hpass
    have hends : EndsFaultedPass s.cfg bytes s.k.toNat (s.txlog ++ [⟨s.k, c, .err⟩]) s.linelog [] :=
      ⟨done, before, n, cut, hdone, hbefore, by rw [htxlog, hcc, BitVec.ofNat_toNat, BitVec.setWidth_eq],
        by rw [hlinelog, List.append_nil]⟩
    exact ⟨h.memories.of_eq rfl rfl rfl rfl rfl rfl, h.ports.of_eq rfl rfl rfl,
      h.link.to_idle (by rw [htx]; nofun) rfl rfl rfl rfl (by simp), ⟨by simp, by simp⟩,
      passOk_of_closing rfl hsnap hlen (hcc ▸ hlog) (.inr ⟨rfl, rfl, hends⟩),
      heldOk_of_released hheld (h.heldOk.latched hheld)⟩
  · exact h

theorem StateInv.seqGapDone (h : StateInv s) (hheld : s.held = false) (he : execSeqGapDone s = .next t) : StateInv t := by
  obtain ⟨hq, -, rfl⟩ | rfl := execSeqGapDone_next he
  · have hqt : s.seqState ≠ .transmitting := by rw [hq]; nofun
    have htx := h.link.txs_idle hqt
    exact ⟨h.memories.of_eq rfl rfl rfl rfl rfl rfl, h.ports.of_eq rfl rfl rfl,
      h.link.to_idle (by rw [htx]; nofun) htx rfl rfl rfl (by simp), ⟨h.faultPort.sticky, h.faultPort.latest⟩,
      passOk_of_resting (.inl rfl) (h.pass.between hqt) (lineRests_gap _ _),
      heldOk_of_released hheld (h.heldOk.latched hheld)⟩
  · exact h

theorem decodeSeq_isSequencerStep {v : SeqView} {i : Instr} (hd : decodeSeq v = .instr i) : isSequencerStep i = true := by
  obtain ⟨rfl, -⟩ | ⟨rfl, -⟩ | ⟨rfl, -⟩ | ⟨rfl, -⟩ | ⟨rfl, -⟩ | ⟨rfl, -⟩ | ⟨rfl, -⟩ | ⟨rfl, -⟩ := decodeSeq_state hd <;> rfl

theorem StateInv.sequencer {i : Instr} (h : StateInv s) (hheld : s.held = false) (hi : isSequencerStep i = true)
    (he : exec i s = .next t) : StateInv t := by
  cases i with
  | seqWake => exact h.seqWake hheld he
  | seqSnapshot => exact h.seqSnapshot hheld he
  | seqEncode => exact h.seqEncode hheld he
  | seqSubmit => exact h.seqSubmit hheld he
  | seqNext => exact h.seqNext hheld he
  | seqLast => exact h.seqLast hheld he
  | seqFault => exact h.seqFault hheld he
  | seqGapDone => exact h.seqGapDone hheld he
  | setPixel | fbOpen | fbWrite | fbRead | fbClose | txAccept | txOk | txErr | bit2pulseZero | bit2pulseOne => cases hi

end sequencer

/-! ### The transmitter's completions and the line -/

section transmitter

variable {s t : State}

/-- A completion with result `v` that has put `items` on the line's log. -/
theorem StateInv.complete {v : Txs} {items : List LineItem} (h : StateInv s) (hheld : s.held = false) (htx : s.txs = .busy)
    (hv : v ≠ .busy) (hitems : ∀ chunk, s.txChunk = some chunk → PlayedSoFar v chunk items) :
    StateInv (setTxs v (endPlay (logLine items s))) := by
  have hq := h.link.inPass (by rw [htx]; nofun)
  obtain ⟨bytes, hsnap, hlen, hchunks, played, hplayed, hpass⟩ := h.pass.transmitting hq
  rw [htx, playedSoFar_busy] at hplayed
  subst hplayed
  have hbuf : s.txChunk = s.chunk s.k.toNat := h.link.buffered (by rw [htx]; nofun)
  have hlink : LinkOk (setTxs v (endPlay (logLine items s))) :=
    ⟨fun _ => rfl, fun _ => hq, h.link.timer, fun _ => hbuf, fun _ => rfl, fun _ hb _ => absurd hb hv, h.link.notOffered⟩
  exact ⟨h.memories.of_eq rfl rfl rfl rfl rfl rfl, h.ports.of_eq rfl rfl rfl, hlink,
    ⟨h.faultPort.sticky, h.faultPort.latest⟩,
    passOk_of_transmitting hq hsnap hlen hchunks (hitems _ (hbuf.trans (hchunks _ s.k.isLt)))
      (passInProgress_played hpass items),
    heldOk_of_released hheld (h.heldOk.latched hheld)⟩

theorem StateInv.txOk (h : StateInv s) (hheld : s.held = false) (he : execTxOk s = .next t) : StateInv t := by
  obtain ⟨ds, htx, hds, rfl⟩ | rfl := execTxOk_next he
  · refine h.complete hheld htx nofun fun chunk hchunk => ?_
    rw [playedSoFar_doneOk, Option.some.inj (hds.symm.trans hchunk)]
  · exact h

theorem StateInv.txErr (h : StateInv s) (hheld : s.held = false) (he : execTxErr s = .next t) : StateInv t := by
  obtain ⟨ds, htx, hds, rfl⟩ | rfl := execTxErr_next he
  · refine h.complete hheld htx nofun fun chunk hchunk => ?_
    rw [playedSoFar_doneErr, Option.some.inj (hds.symm.trans hchunk)]
    exact ⟨_, _, rfl⟩
  · exact h

theorem StateInv.drive (h : StateInv s) (hheld : s.held = false) (he : driveLine s = .next t) : StateInv t := by
  obtain ⟨ds, htx, hds, rfl⟩ | ⟨-, rfl⟩ := driveLine_next he
  · have hplay := playSegment_playing (wave ds) s (h.link.playing ds htx hds).1
    have hlink : LinkOk (playSegment (wave ds) s) :=
      ⟨fun hne => absurd htx hne, h.link.inPass, h.link.timer, h.link.buffered, fun hne => absurd htx hne,
        fun ds' _ hds' => Option.some.inj (hds.symm.trans hds') ▸ hplay, h.link.notOffered⟩
    exact ⟨h.memories.of_eq rfl rfl rfl rfl rfl rfl, h.ports.of_eq rfl rfl rfl, hlink,
      ⟨h.faultPort.sticky, h.faultPort.latest⟩,
      ⟨h.pass.encoding, h.pass.transmitting, h.pass.closing, h.pass.between, h.pass.resting⟩,
      heldOk_of_released hheld (h.heldOk.latched hheld)⟩
  · exact h

end transmitter

/-! ### Time and reset -/

theorem StateInv.elapse {s : State} (h : StateInv s) (us : Nat) : StateInv (elapseTime us s) := by
  obtain ⟨mem, ports, link, faultPort, pass, heldOk⟩ := h
  have htimer : (s.gapt.map (· + us)).isSome = true ↔ s.seqState = .resetDelay := by
    rw [Option.isSome_map]
    exact link.timer
  exact ⟨mem.of_eq rfl rfl rfl rfl rfl rfl, ports.of_eq rfl rfl rfl,
    ⟨link.idleLine, link.inPass, htimer, link.buffered, link.idlePlay, link.playing, link.notOffered⟩,
    ⟨faultPort.sticky, faultPort.latest⟩,
    ⟨pass.encoding, pass.transmitting, pass.closing, pass.between, pass.resting⟩, ⟨heldOk.waits, heldOk.latched⟩⟩

/-- The reset values meet the invariant with any number of ports and any configuration that does not wait to be latched. -/
theorem stateInv_resetValues {cfg : Cfg} {held : Bool} {nReq : Nat} (hn : 1 ≤ nReq) (hcfg : held = false → cfgValid cfg = true)
    (sched : List Move) (turn : Nat) :
    StateInv { State.reset with cfg := cfg, held := held, nReq := nReq, sched := sched, turn := turn } where
  memories := ⟨memory_wf_nil _ _, memory_wf_nil _ _, memory_wf_nil _ _, memory_wf_nil _ _, memory_wf_nil _ _⟩
  ports := ⟨hn, nofun, nofun, nofun, nofun⟩
  link := linkOk_of_idle rfl rfl rfl rfl ⟨nofun, nofun⟩
  faultPort := ⟨⟨nofun, fun h => absurd rfl h⟩, nofun⟩
  pass := passOk_of_resting (.inl rfl) (singleSnapshot_nil _) lineRests_nil
  heldOk := ⟨fun _ => ⟨rfl, rfl, rfl, rfl⟩, hcfg⟩

theorem cfgValid_of_wordsValid {w : CfgWords} (h : cfgWordsValid w = true) : cfgValid (unpackCfg w) = true :=
  (Bool.and_eq_true_iff.1 h).1

/-- Reset is a state of reset values, with the configuration latched or the block held (R213). -/
theorem resetBlock_eq (w : CfgWords) (s : State) : resetBlock w s =
    { State.reset with cfg := if cfgWordsValid w = true then unpackCfg w else s.cfg, held := !cfgWordsValid w,
                       nReq := s.nReq, sched := s.sched, turn := s.turn } := by
  unfold resetBlock cfgLatch
  by_cases h : cfgWordsValid w = true
  · rw [if_pos h, if_pos h, h]
    rfl
  · rw [if_neg h, if_neg h, (Bool.not_eq_true _).mp h]
    rfl

theorem StateInv.reset {s : State} (h : StateInv s) (w : CfgWords) : StateInv (resetBlock w s) := by
  rw [resetBlock_eq]
  refine stateInv_resetValues h.ports.someRequester (fun hheld => ?_) _ _
  have hw : cfgWordsValid w = true := by simpa using hheld
  rw [if_pos hw]
  exact cfgValid_of_wordsValid hw

/-! ### Every move -/

/-- Whatever instruction a move runs, the state it answers meets the invariant. -/
theorem StateInv.run {m : Move} {s u t : State} {i : Instr} (h : StateInv s) (hf : fetchMove m s = .run i u)
    (he : exec i u = .next t) : StateInv t := by
  obtain ⟨hheld, hcase⟩ := fetch_run hf
  rcases hcase with ⟨r, w, -, hr, hd, rfl⟩ | ⟨-, hd, rfl⟩ | ⟨-, -, hoffer, -, rfl⟩ | ⟨txr, segs, cut, -, -, hi, rfl⟩ |
    ⟨b, -, hi, rfl⟩
  case inl => exact h.command hheld hr hd he
  case inr.inl => exact h.sequencer hheld (decodeSeq_isSequencerStep hd) he
  case inr.inr.inl =>
    rw [h.link.notOffered] at hoffer
    cases hoffer
  case inr.inr.inr.inl =>
    have hdraw : StateInv { s with drawSegs := segs, drawCut := cut } := h.of_ownFields rfl
    rcases hi with rfl | rfl
    · exact hdraw.txOk hheld he
    · exact hdraw.txErr hheld he
  case inr.inr.inr.inr => rcases hi with rfl | rfl <;> cases he <;> exact h.of_ownFields rfl

/-- A move that runs no instruction answers a state of the invariant. -/
theorem StateInv.quiet {m : Move} {s t : State} (h : StateInv s) (hf : fetchMove m s = .quiet t) : StateInv t := by
  rcases fetch_quiet hf with ⟨ws, -, rfl⟩ | ⟨hheld, -, hcase⟩
  · exact h.reset ws
  · rcases hcase with ⟨r, w, why, -, hr, hd, rfl⟩ | rfl | ⟨txr, segs, cut, -, rfl⟩ | ⟨-, hdrive⟩ | ⟨us, -, rfl⟩
    · exact h.illegalWord hheld hr hd
    · exact h
    · exact h.of_ownFields rfl
    · exact h.drive hheld hdrive
    · exact h.elapse us

/-! ### Reads of what has been written -/

/-- A step would read a snapshot, a staged chunk or a transmitter's buffer that has not been written (R38). -/
def ReadsUnwritten (s : State) : Prop :=
  (s.seqState = .encoding ∧ s.snapBytes = none) ∨ (s.seqState = .transmitting ∧ s.chunk s.k.toNat = none) ∨
    (s.txs = .busy ∧ s.txChunk = none)

/-- An instruction stops only where it would read what has not been written. -/
theorem exec_fault {i : Instr} {s : State} {why : Fault} (h : exec i s = .fault why) : ReadsUnwritten s := by
  cases i with
  | setPixel | fbOpen | fbWrite | fbRead | fbClose | seqWake | seqSnapshot | seqGapDone | txAccept =>
    simp only [exec, execSetPixel, execFbOpen, execFbWrite, execFbRead, execFbClose, execSeqWake, execSeqSnapshot,
      execSeqGapDone, execTxAccept] at h
    (repeat' split at h) <;> cases h
  | bit2pulseZero | bit2pulseOne => cases h
  | seqEncode =>
    simp only [exec, execSeqEncode] at h
    (repeat' split at h) <;> cases h
    exact .inl ⟨‹_›, ‹_›⟩
  | seqSubmit | seqNext | seqLast | seqFault =>
    simp only [exec, execSeqSubmit, execSeqNext, execSeqLast, execSeqFault] at h
    (repeat' split at h) <;> cases h
    rename_i hc _ hnone
    exact .inr (.inl ⟨hc.1, hnone⟩)
  | txOk | txErr =>
    simp only [exec, execTxOk, execTxErr] at h
    (repeat' split at h) <;> cases h
    exact .inr (.inr ⟨‹_›, ‹_›⟩)

/-- In a state of the invariant everything that a step reads has been written. -/
theorem StateInv.reads_written {s : State} (h : StateInv s) : ¬ReadsUnwritten s := by
  have hchunk : s.seqState = .transmitting → s.chunk s.k.toNat ≠ none := fun hq => by
    obtain ⟨bytes, -, -, hchunks, -⟩ := h.pass.transmitting hq
    rw [hchunks _ s.k.isLt]
    nofun
  rintro (⟨hq, hnone⟩ | ⟨hq, hnone⟩ | ⟨htx, hnone⟩)
  · obtain ⟨bytes, hsnap, -⟩ := h.pass.encoding hq
    rw [hsnap] at hnone
    cases hnone
  · exact hchunk hq hnone
  · have hne : s.txs ≠ .idle := by rw [htx]; nofun
    exact hchunk (h.link.inPass hne) (h.link.buffered hne ▸ hnone)

/-- Fetching an instruction changes the port's record and the model's own fields. -/
theorem fetch_run_frame {m : Move} {s u : State} {i : Instr} (hf : fetchMove m s = .run i u) :
    u = { s with ports := u.ports, me := u.me, drawSegs := u.drawSegs, drawCut := u.drawCut } := by
  obtain ⟨-, hcase⟩ := fetch_run hf
  rcases hcase with ⟨_, _, -, -, -, rfl⟩ | ⟨-, -, rfl⟩ | ⟨-, -, -, -, rfl⟩ | ⟨_, _, _, -, -, -, rfl⟩ | ⟨_, -, -, rfl⟩ <;>
    rfl

/-- What an instruction reads is as it was when its move was fetched. -/
theorem readsUnwritten_of_fetch_run {m : Move} {s u : State} {i : Instr} (hf : fetchMove m s = .run i u)
    (h : ReadsUnwritten u) : ReadsUnwritten s := by
  rw [fetch_run_frame hf] at h
  exact h

end Sys2Proof.Machine
end

section
/-! PROOFS. The invariant of LEDENC: it holds after reset, every step keeps it, and from it no step faults. -/

namespace Sys2Proof.Machine

/-- Settles O54: reset gives the reset values, with T1 latched. -/
theorem resetMeetsInvariant : Obligations.ResetMeetsInvariant :=
  stateInv_resetValues (cfg := Cfg.t1) (held := false) (nReq := 2) (by decide) (fun _ => by decide) [] 0

/-- Settles O55: the move is taken, then an instruction runs or the move is quiet, and both keep the invariant. -/
theorem stepKeepsInvariant : Obligations.StepKeepsInvariant := by
  intro s t h hstep
  rcases step_next hstep with ⟨i, u, hf, he⟩ | hf
  · exact h.takeMove.run hf he
  · exact h.takeMove.quiet hf

/-- Settles O56: a fault would be a read of what has not been written, and a refusal is that of a held block. -/
theorem invariantStatesNeverFault : Obligations.InvariantStatesNeverFault := by
  intro s h
  have hread := h.takeMove.reads_written
  unfold step
  cases hf : fetchMove (nextMove s) (takeMove s) with
  | run i u =>
    simp only [runFetch]
    cases he : exec i u with
    | next t => exact .inl ⟨t, rfl⟩
    | fault why => exact absurd (readsUnwritten_of_fetch_run hf (exec_fault he)) hread
    | refused why => exact absurd he (exec_not_refused i u why)
  | quiet t => exact .inl ⟨t, rfl⟩
  | stop why =>
    obtain ⟨-, htx, hnone, -⟩ := fetch_stop hf
    exact absurd (.inr (.inr ⟨htx, hnone⟩)) hread
  | refuse why =>
    obtain ⟨hheld, rfl⟩ := fetch_refuse hf
    exact .inr ⟨takeMove_held s ▸ hheld, rfl⟩

end Sys2Proof.Machine
end

section
/-! SUPPORT. What each kind of instruction may change, and what single operations leave, said in the words of the statements. -/

namespace Sys2Proof.Machine

/-- A sequencer step leaves the frame store, the ports and the guard as others see it, and does not raise `PENDING`. -/
theorem exec_sequencer_frame {i : Instr} {s t : State} (hi : isSequencerStep i = true) (he : exec i s = .next t) :
    t.frame = s.frame ∧ t.ports = s.ports ∧ t.guard = s.guard ∧ t.line = s.line ∧ t.cfg = s.cfg ∧
      (t.pending = true → s.pending = true) := by
  cases i with
  | seqWake =>
    obtain ⟨-, -, rfl⟩ | rfl := execSeqWake_next he
    · exact ⟨rfl, rfl, rfl, rfl, rfl, nofun⟩
    · exact ⟨rfl, rfl, rfl, rfl, rfl, id⟩
  | seqSnapshot =>
    obtain ⟨-, hg, rfl⟩ | rfl := execSeqSnapshot_next he
    · exact ⟨rfl, rfl, hg.symm, rfl, rfl, id⟩
    · exact ⟨rfl, rfl, rfl, rfl, rfl, id⟩
  | seqEncode => obtain ⟨_, -, -, rfl⟩ | rfl := execSeqEncode_next he <;> exact ⟨rfl, rfl, rfl, rfl, rfl, id⟩
  | seqSubmit => obtain ⟨_, -, -, -, rfl⟩ | rfl := execSeqSubmit_next he <;> exact ⟨rfl, rfl, rfl, rfl, rfl, id⟩
  | seqNext => obtain ⟨_, -, -, -, -, rfl⟩ | rfl := execSeqNext_next he <;> exact ⟨rfl, rfl, rfl, rfl, rfl, id⟩
  | seqLast => obtain ⟨_, -, -, -, -, rfl⟩ | rfl := execSeqLast_next he <;> exact ⟨rfl, rfl, rfl, rfl, rfl, id⟩
  | seqFault => obtain ⟨_, -, -, -, rfl⟩ | rfl := execSeqFault_next he <;> exact ⟨rfl, rfl, rfl, rfl, rfl, id⟩
  | seqGapDone => obtain ⟨-, -, rfl⟩ | rfl := execSeqGapDone_next he <;> exact ⟨rfl, rfl, rfl, rfl, rfl, id⟩
  | setPixel | fbOpen | fbWrite | fbRead | fbClose | txAccept | txOk | txErr | bit2pulseZero | bit2pulseOne => cases hi

/-- The transmitter's and the encoder's instructions change the handshake, the buffer, the line and its log, and the model's own
fields. -/
theorem exec_transmitter_frame {i : Instr} {s t : State} (hc : isCommand i = false) (hq : isSequencerStep i = false)
    (he : exec i s = .next t) :
    t = { s with txs := t.txs, txbuf := t.txbuf, play := t.play, line := t.line, linelog := t.linelog, offer := t.offer,
                 encOut := t.encOut } := by
  cases i with
  | txAccept => obtain ⟨_, -, -, rfl⟩ | rfl := execTxAccept_next he <;> rfl
  | txOk => obtain ⟨_, -, -, rfl⟩ | rfl := execTxOk_next he <;> rfl
  | txErr => obtain ⟨_, -, -, rfl⟩ | rfl := execTxErr_next he <;> rfl
  | bit2pulseZero | bit2pulseOne => cases he; rfl
  | setPixel | fbOpen | fbWrite | fbRead | fbClose => cases hc
  | seqWake | seqSnapshot | seqEncode | seqSubmit | seqNext | seqLast | seqFault | seqGapDone => cases hq

/-- An instruction that is no command leaves the frame store alone and does not raise `PENDING`. -/
theorem exec_noCommand_frame {i : Instr} {s t : State} (hc : isCommand i = false) (he : exec i s = .next t) :
    t.frame = s.frame ∧ (t.pending = true → s.pending = true) := by
  cases hq : isSequencerStep i with
  | true =>
    obtain ⟨hframe, -, -, -, -, hpending⟩ := exec_sequencer_frame hq he
    exact ⟨hframe, hpending⟩
  | false =>
    rw [exec_transmitter_frame hc hq he]
    exact ⟨rfl, id⟩

/-- Step 2 of a mutating command, in the words of the statements. -/
theorem notifiedOnly_finishNotify (s : State) : NotifiedOnly s (finishNotify s) := by
  refine ⟨⟨?_, fun r hr => ?_⟩, rfl⟩
  · simp [rspWord, statusCode]
  · simp [hr]

/-- A frame store that is a pixel write's, in the words of the statements. -/
theorem pixelWritten_of_frame {s t : State} {i : Nat} {r g b : Byte}
    (h : t.frame = (writePixel i (toInternal r g b) s).frame) : PixelWritten s t i r g b := by
  have hx : ∀ a, t.x a = (writePixel i [g, r, b] s).x a := x_eq_of_frame h
  refine ⟨?_, ?_, ?_, fun a ha => ?_⟩ <;> rw [hx, x_writePixel]
  · rw [if_pos rfl]
  · rw [if_neg (by omega), if_pos rfl]
  · rw [if_neg (by omega), if_neg (by omega), if_pos rfl]
  · rw [if_neg (by omega), if_neg (by omega), if_neg (by omega)]

/-- A drive move of a play whose chunk has not been written stops (R38). -/
theorem driveLine_unwritten {s : State} (htx : s.txs = .busy) (hnone : s.txChunk = none) :
    driveLine s = .fault .unwrittenTxBuf := by
  rw [driveLine, if_pos htx, hnone]

/-! ### The histories -/

/-- Each of the three histories of `t` goes on from that of `s` (R36). -/
def HistoriesExtend (s t : State) : Prop :=
  s.txlog <+: t.txlog ∧ s.linelog <+: t.linelog ∧ s.faultlog <+: t.faultlog

/-- Histories that have not been touched. -/
theorem historiesExtend_of_eq {s t : State} (htx : t.txlog = s.txlog) (hline : t.linelog = s.linelog)
    (hfault : t.faultlog = s.faultlog) : HistoriesExtend s t :=
  ⟨htx ▸ List.prefix_rfl, hline ▸ List.prefix_rfl, hfault ▸ List.prefix_rfl⟩

theorem HistoriesExtend.trans {s t u : State} (hst : HistoriesExtend s t) (htu : HistoriesExtend t u) :
    HistoriesExtend s u :=
  ⟨hst.1.trans htu.1, hst.2.1.trans htu.2.1, hst.2.2.trans htu.2.2⟩

/-- An instruction only appends to the histories. -/
theorem exec_histories {i : Instr} {s t : State} (he : exec i s = .next t) : HistoriesExtend s t := by
  have hsame : HistoriesExtend s s := historiesExtend_of_eq rfl rfl rfl
  cases i with
  | setPixel | fbOpen | fbWrite | fbRead | fbClose =>
    rw [exec_command_frame rfl he]
    exact historiesExtend_of_eq rfl rfl rfl
  | seqWake => obtain ⟨-, -, rfl⟩ | rfl := execSeqWake_next he <;> exact historiesExtend_of_eq rfl rfl rfl
  | seqSnapshot => obtain ⟨-, -, rfl⟩ | rfl := execSeqSnapshot_next he <;> exact historiesExtend_of_eq rfl rfl rfl
  | seqEncode => obtain ⟨_, -, -, rfl⟩ | rfl := execSeqEncode_next he <;> exact historiesExtend_of_eq rfl rfl rfl
  | seqSubmit => obtain ⟨_, -, -, -, rfl⟩ | rfl := execSeqSubmit_next he <;> exact historiesExtend_of_eq rfl rfl rfl
  | txAccept => obtain ⟨_, -, -, rfl⟩ | rfl := execTxAccept_next he <;> exact historiesExtend_of_eq rfl rfl rfl
  | bit2pulseZero | bit2pulseOne => cases he; exact historiesExtend_of_eq rfl rfl rfl
  | seqNext =>
    obtain ⟨_, -, -, -, -, rfl⟩ | rfl := execSeqNext_next he
    · exact ⟨List.prefix_append .., List.prefix_rfl, List.prefix_rfl⟩
    · exact hsame
  | seqLast =>
    obtain ⟨_, -, -, -, -, rfl⟩ | rfl := execSeqLast_next he
    · exact ⟨List.prefix_append .., List.prefix_rfl, List.prefix_rfl⟩
    · exact hsame
  | seqFault =>
    obtain ⟨_, -, -, -, rfl⟩ | rfl := execSeqFault_next he
    · exact ⟨List.prefix_append .., List.prefix_rfl, List.prefix_append ..⟩
    · exact hsame
  | seqGapDone =>
    obtain ⟨-, -, rfl⟩ | rfl := execSeqGapDone_next he
    · exact ⟨List.prefix_rfl, List.prefix_append .., List.prefix_rfl⟩
    · exact hsame
  | txOk =>
    obtain ⟨_, -, -, rfl⟩ | rfl := execTxOk_next he
    · exact ⟨List.prefix_rfl, List.prefix_append .., List.prefix_rfl⟩
    · exact hsame
  | txErr =>
    obtain ⟨_, -, -, rfl⟩ | rfl := execTxErr_next he
    · exact ⟨List.prefix_rfl, List.prefix_append .., List.prefix_rfl⟩
    · exact hsame

/-! ### What moves come to -/

/-- A move other than reset that runs no instruction changes a port, the line, the timer and the model's own fields. -/
theorem fetch_quiet_frame {m : Move} {s t : State} (hf : fetchMove m s = .quiet t) (hm : isReset m = false) :
    t = { s with ports := t.ports, line := t.line, play := t.play, gapt := t.gapt, me := t.me, drawSegs := t.drawSegs,
                 drawCut := t.drawCut } := by
  rcases fetch_quiet hf with ⟨ws, rfl, -⟩ | ⟨-, -, hcase⟩
  · cases hm
  · rcases hcase with ⟨_, _, _, -, -, -, rfl⟩ | rfl | ⟨_, _, _, -, rfl⟩ | ⟨-, hdrive⟩ | ⟨_, -, rfl⟩
    · rfl
    · rfl
    · rfl
    · obtain ⟨_, -, -, rfl⟩ | ⟨-, rfl⟩ := driveLine_next hdrive <;> rfl
    · rfl

/-! ### Moves that nobody has scheduled -/

theorem nextMove_nil {s : State} (h : s.sched = []) : nextMove s = Config.environment s.turn := by
  simp only [nextMove, h]

theorem takeMove_nil {s : State} (h : s.sched = []) : takeMove s = { s with turn := s.turn + 1 } := by
  simp only [takeMove, h]

end Sys2Proof.Machine
end

section
/-! PROOFS. The statements about the state's elements (spec/10_state.md): who may write them, what reading them early does, and
how time and the environment come in. -/

namespace Sys2Proof.Machine

/-- Settles O23: `SET_PIXEL` and `FB_CLOSE` take step 2, the other commands are stalled. -/
theorem owingRequesterOnlyNotifies : Obligations.OwingRequesterOnlyNotifies := by
  intro s i hi howes
  have ho : s.owes = true := (owes_iff s).2 howes
  cases i with
  | setPixel => exact .inr ⟨_, if_pos ho, notifiedOnly_finishNotify s⟩
  | fbClose => exact .inr ⟨_, if_pos ho, notifiedOnly_finishNotify s⟩
  | fbOpen | fbWrite | fbRead => exact .inl (if_pos ho)
  | seqWake | seqSnapshot | seqEncode | seqSubmit | seqNext | seqLast | seqFault | seqGapDone | txAccept | txOk | txErr
  | bit2pulseZero | bit2pulseOne => cases hi

/-- Settles O46: of all instructions only step 2 of a mutating command writes 1 to `PENDING`. -/
theorem onlyOwedCommandsNotify : Obligations.OnlyOwedCommandsNotify := by
  intro i s t he hbefore hafter
  have hrise : t.pending ≠ s.pending := by rw [hbefore, hafter]; nofun
  cases hc : isCommand i with
  | false =>
    have := (exec_noCommand_frame hc he).2 hafter
    rw [hbefore] at this
    cases this
  | true =>
    cases i with
    | setPixel idx r g b =>
      obtain ⟨ho, -⟩ | ⟨-, -, rfl⟩ | ⟨-, -, -, rfl⟩ | ⟨-, -, -, rfl⟩ := execSetPixel_next he
      · exact ⟨ho, .inl ⟨idx, r, g, b, rfl⟩⟩
      all_goals exact absurd rfl hrise
    | fbClose =>
      obtain ⟨ho, -⟩ | ⟨-, -, rfl⟩ | ⟨-, -, rfl⟩ := execFbClose_next he
      · exact ⟨ho, .inr rfl⟩
      all_goals exact absurd rfl hrise
    | fbOpen => obtain ⟨-, -, rfl⟩ | ⟨-, rfl⟩ := execFbOpen_next he <;> exact absurd rfl hrise
    | fbWrite =>
      obtain ⟨-, rfl⟩ | ⟨-, -, rfl⟩ | ⟨-, -, -, rfl⟩ | ⟨-, -, -, rfl⟩ := execFbWrite_next he <;> exact absurd rfl hrise
    | fbRead =>
      obtain ⟨-, rfl⟩ | ⟨-, -, rfl⟩ | ⟨-, -, -, rfl⟩ | ⟨-, -, -, rfl⟩ := execFbRead_next he <;> exact absurd rfl hrise
    | seqWake | seqSnapshot | seqEncode | seqSubmit | seqNext | seqLast | seqFault | seqGapDone | txAccept | txOk | txErr
    | bit2pulseZero | bit2pulseOne => cases hc

/-- Settles O47: the two commands that write a pixel have checked the guard and the index first. -/
theorem frameWrittenOnlyUnderGuard : Obligations.FrameWrittenOnlyUnderGuard := by
  intro i s t he hne
  cases hc : isCommand i with
  | false => exact absurd (exec_noCommand_frame hc he).1 hne
  | true =>
    cases i with
    | setPixel idx r g b =>
      obtain ⟨-, rfl⟩ | ⟨-, -, rfl⟩ | ⟨-, hidx, hg, rfl⟩ | ⟨-, -, -, rfl⟩ := execSetPixel_next he
      case inr.inr.inl => exact ⟨idx, r, g, b, hidx, pixelWritten_of_frame rfl, .inl ⟨rfl, hg⟩⟩
      all_goals exact absurd rfl hne
    | fbWrite idx r g b =>
      obtain ⟨-, rfl⟩ | ⟨-, -, rfl⟩ | ⟨-, -, -, rfl⟩ | ⟨-, hg, hidx, rfl⟩ := execFbWrite_next he
      case inr.inr.inr => exact ⟨idx, r, g, b, hidx, pixelWritten_of_frame rfl, .inr ⟨rfl, hg⟩⟩
      all_goals exact absurd rfl hne
    | fbOpen => obtain ⟨-, -, rfl⟩ | ⟨-, rfl⟩ := execFbOpen_next he <;> exact absurd rfl hne
    | fbRead =>
      obtain ⟨-, rfl⟩ | ⟨-, -, rfl⟩ | ⟨-, -, -, rfl⟩ | ⟨-, -, -, rfl⟩ := execFbRead_next he <;> exact absurd rfl hne
    | fbClose => obtain ⟨-, rfl⟩ | ⟨-, -, rfl⟩ | ⟨-, -, rfl⟩ := execFbClose_next he <;> exact absurd rfl hne
    | seqWake | seqSnapshot | seqEncode | seqSubmit | seqNext | seqLast | seqFault | seqGapDone | txAccept | txOk | txErr
    | bit2pulseZero | bit2pulseOne => cases hc

/-- Settles O53: a move hands the histories on as they were, and an instruction only appends to them. -/
theorem historiesOnlyGrow : Obligations.HistoriesOnlyGrow := by
  intro s t hstep hm
  have htake : HistoriesExtend s (takeMove s) :=
    historiesExtend_of_eq (takeMove_txlog s) (takeMove_linelog s) (takeMove_faultlog s)
  refine htake.trans ?_
  rcases step_next hstep with ⟨i, u, hf, he⟩ | hf
  · have hfetch : HistoriesExtend (takeMove s) u := by
      rw [fetch_run_frame hf]
      exact historiesExtend_of_eq rfl rfl rfl
    exact hfetch.trans (exec_histories he)
  · rw [fetch_quiet_frame hf hm]
    exact historiesExtend_of_eq rfl rfl rfl

/-- Settles O37: reset empties the three buffers, and every reader of an unwritten one stops. -/
theorem unwrittenReadsAreFaults : Obligations.UnwrittenReadsAreFaults := by
  refine ⟨fun s words rest hs => ⟨_, step_reset hs, fun a => ?_⟩, fun s => ⟨?_, ?_, ?_, ?_, ?_⟩⟩
  · rw [resetBlock_eq]
    exact ⟨rfl, rfl, rfl⟩
  · intro hq hnone
    simp [exec, execSeqEncode, hq, hnone]
  · intro hq htx hnone
    simp [exec, execSeqSubmit, hq, htx, hnone]
  · intro hq htx hnone
    exact ⟨fun hk => by simp [exec, execSeqNext, hq, htx, hk, hnone],
      fun hk => by simp [exec, execSeqLast, hq, htx, hk, hk ▸ hnone]⟩
  · intro hq htx hnone
    simp [exec, execSeqFault, hq, htx, hnone]
  · intro htx hnone
    exact ⟨by simp [exec, execTxOk, htx, hnone], by simp [exec, execTxErr, htx, hnone],
      fun rest hheld hs => (step_drive hs hheld).trans (driveLine_unwritten htx hnone)⟩

/-- Settles O39: scheduling the free environment's move and counting its turn gives the same move from the same state. -/
theorem freeEnvironmentMoves : Obligations.FreeEnvironmentMoves := by
  intro s hs
  unfold step
  rw [nextMove_nil hs, takeMove_nil hs, nextMove_cons rfl, takeMove_cons rfl]
  simp only [← hs]

/-- Settles O43: `elapseTime` adds to a running timer and to nothing else. -/
theorem timerCountsElapsedTime : Obligations.TimerCountsElapsedTime := by
  intro s us rest hheld hs
  rw [step_elapse hs hheld]
  refine ⟨fun t0 ht => ?_, fun hnone => ?_⟩
  · simp only [elapseTime, ht, Option.map_some]
  · simp only [elapseTime, hnone, Option.map_none]

end Sys2Proof.Machine
end

section
/-! SUPPORT. Commands that wait because the guard is held (spec/40_pixel_store.md). -/

namespace Sys2Proof.Machine

/-- With the guard held, an in-range `SET_PIXEL` of an issuer that owes nothing waits (R111). -/
theorem execSetPixel_stalled {idx : Nat} {s : State} (cr cg cb : Byte) (ho : s.owes = false) (hidx : idx < 16)
    (hg : s.guard ≠ none) : exec (.setPixel idx cr cg cb) s = .next s := by
  simp [exec, execSetPixel, ho, hidx, hg]

/-- With the guard held, `FB_OPEN` waits (R112). -/
theorem execFbOpen_stalled {s : State} (hg : s.guard ≠ none) : exec .fbOpen s = .next s := by
  simp [exec, execFbOpen, hg]

end Sys2Proof.Machine
end

section
/-! PROOFS. The statements about the memory (spec/20_memory.md): the holder of the guard inside its own window. -/

namespace Sys2Proof.Machine

/-- Settles O25: the guard is held, if only by the issuer itself, so both commands wait in the state in which the word has been
presented, and that state differs in the issuer's port alone. -/
theorem holderStallsItself : Obligations.HolderStallsItself := by
  intro s r w rest idx cr cg cb hheld hs hr hguard howes hidx hcmd
  have hg : (presentCmd r w { s with sched := rest }).guard ≠ none := by rw [presentCmd_guard, hguard]; nofun
  have ho : (presentCmd r w { s with sched := rest }).owes = false := (presentCmd_owes ..).trans howes
  have hstep : step s = .next (presentCmd r w { s with sched := rest }) := by
    rcases hcmd with hd | hd
    · exact (step_command hs hheld hr hd).trans (execSetPixel_stalled cr cg cb ho hidx hg)
    · exact (step_command hs hheld hr hd).trans (execFbOpen_stalled hg)
  exact ⟨_, hstep, presentCmd_me_port .., presentCmd_other_port r w _, rfl⟩

end Sys2Proof.Machine
end

section
/-! SUPPORT. What each decoder selects, said once as an equivalence, and the command words put together from the fields that the
decoder reads (spec/30_encoding.md). -/

namespace Sys2Proof

/-! ### The fields of a command word -/

/-- The eight values of the `op` field (R83). -/
theorem cmdOp_cases (w : Word) : cmdOp w = 0#3 ∨ cmdOp w = 1#3 ∨ cmdOp w = 2#3 ∨ cmdOp w = 3#3 ∨ cmdOp w = 4#3 ∨
    cmdOp w = 5#3 ∨ cmdOp w = 6#3 ∨ cmdOp w = 7#3 := by
  generalize cmdOp w = op
  revert op
  decide

theorem cmdIdx_lt (w : Word) : cmdIdx w < 32 := (w.extractLsb' 24 5).isLt

/-- An index that fits its field comes back from the word (R93). -/
theorem cmdIdx_cmdWord_ofNat {idx : Nat} (op : BitVec 3) (r g b : Byte) (h : idx < 32) :
    cmdIdx (cmdWord op (BitVec.ofNat 5 idx) r g b) = idx := by
  rw [cmdIdx_cmdWord, BitVec.toNat_ofNat, Nat.mod_eq_of_lt h]

/-- The 24 low bits of a word are its three bytes. -/
theorem low24_cmdWord (op : BitVec 3) (idx : BitVec 5) (r g b : Byte) :
    (cmdWord op idx r g b).extractLsb' 0 24 = r ++ (g ++ b) := by
  unfold cmdWord
  ext j hj
  simp
  grind

/-- A byte inside the 24 low bits is zero when they are. -/
theorem byte_of_low24_eq_zero {w : Word} {k : Nat} (hk : k ≤ 16) (h : w.extractLsb' 0 24 = 0) : w.extractLsb' k 8 = 0 := by
  ext j hj
  have := congrArg (fun u : BitVec 24 => u.getLsbD (k + j)) h
  simpa [show k + j < 24 by omega] using this

/-- A word is put together from its `op` and the fields that the decoder reads. -/
theorem cmdWord_of_op {w : Word} {op : BitVec 3} (h : cmdOp w = op) :
    cmdWord op (BitVec.ofNat 5 (cmdIdx w)) (cmdRed w) (cmdGreen w) (cmdBlue w) = w := by
  subst h
  rw [cmdIdx, BitVec.ofNat_toNat, BitVec.setWidth_eq, cmdWord_fields]

/-- `FB_READ`'s word has only `op` and the index to put together. -/
theorem cmdWord_of_op_of_low24 {w : Word} {op : BitVec 3} (h : cmdOp w = op) (hlow : w.extractLsb' 0 24 = 0) :
    cmdWord op (BitVec.ofNat 5 (cmdIdx w)) 0#8 0#8 0#8 = w := by
  have hw := cmdWord_of_op h
  rwa [cmdRed, cmdGreen, cmdBlue, byte_of_low24_eq_zero (by omega) hlow, byte_of_low24_eq_zero (by omega) hlow,
    byte_of_low24_eq_zero (by omega) hlow] at hw

/-! ### Which command words decode -/

/-- The legal command words, row by row (R96). -/
theorem decodeCmd_eq_instr_iff {w : Word} {i : Instr} : decodeCmd w = .instr i ↔
    (cmdOp w = 1#3 ∧ i = .setPixel (cmdIdx w) (cmdRed w) (cmdGreen w) (cmdBlue w)) ∨
    ((cmdOp w = 2#3 ∧ w.extractLsb' 0 29 = 0) ∧ i = .fbOpen) ∨
    (cmdOp w = 3#3 ∧ i = .fbWrite (cmdIdx w) (cmdRed w) (cmdGreen w) (cmdBlue w)) ∨
    ((cmdOp w = 4#3 ∧ w.extractLsb' 0 24 = 0) ∧ i = .fbRead (cmdIdx w)) ∨
    ((cmdOp w = 5#3 ∧ w.extractLsb' 0 29 = 0) ∧ i = .fbClose) := by
  rw [decodeCmd_eq]
  constructor
  · intro h
    (repeat' split at h) <;> cases h <;> simp_all
  · rintro (⟨h, rfl⟩ | ⟨h, rfl⟩ | ⟨h, rfl⟩ | ⟨h, rfl⟩ | ⟨h, rfl⟩) <;> simp [h]

/-- A word decodes to nothing exactly when it is in no row. -/
theorem decodeCmd_rejected_iff {w : Word} : (∃ why, decodeCmd w = .rejected why) ↔
    ¬(cmdOp w = 1#3 ∨ (cmdOp w = 2#3 ∧ w.extractLsb' 0 29 = 0) ∨ cmdOp w = 3#3 ∨
      (cmdOp w = 4#3 ∧ w.extractLsb' 0 24 = 0) ∨ (cmdOp w = 5#3 ∧ w.extractLsb' 0 29 = 0)) := by
  rw [decodeCmd_eq]
  (repeat' split) <;> simp_all

theorem decodeCmd_reservedOp {w : Word} (h : cmdOp w = 0#3 ∨ cmdOp w = 6#3 ∨ cmdOp w = 7#3) :
    decodeCmd w = .rejected .reservedOp := by
  rw [decodeCmd_eq]
  rcases h with h | h | h <;> simp [h]

/-- The row of `SET_PIXEL` by match and mask (R96). -/
theorem setPixelMask_iff (w : Word) : w &&& 0xE0000000#32 = 0x20000000#32 ↔ cmdOp w = 1#3 := opMask_iff w _ (by decide)

/-- The row of `FB_WRITE` by match and mask (R96). -/
theorem fbWriteMask_iff (w : Word) : w &&& 0xE0000000#32 = 0x60000000#32 ↔ cmdOp w = 3#3 := opMask_iff w _ (by decide)

/-! ### The steps that are not decoded from a word -/

/-- A code names the state whose code it is, and no other (R92). -/
theorem stateOfCode_eq_some_iff {c : BitVec 3} {q : SeqState} : stateOfCode c = some q ↔ c = stateCode q := by
  constructor
  · cases q <;> revert c <;> decide
  · rintro rfl
    exact stateOfCode_stateCode q

/-- The transmitter's half of a submission goes with a sequencer whose step is `SEQ_SUBMIT` and that presents a chunk (R98;
log entry 16). -/
theorem decodeAccept_eq_instr_iff {v : SeqView} {offered : Bool} {i : Instr} : decodeAccept v offered = .instr i ↔
    decodeSeq v = .instr .seqSubmit ∧ offered = true ∧ i = .txAccept := by
  unfold decodeAccept
  split
  case h_1 hd => cases offered <;> simp [hd, eq_comm]
  case h_2 hne hd => exact iff_of_false nofun fun h => hne (Decoded.instr.inj (hd.symm.trans h.1))
  case h_3 hd => simp [hd]

end Sys2Proof
end

section
/-! SUPPORT. Pulse descriptors as words (spec/30_encoding.md R86), and what the moves of agents depend on (R97). -/

namespace Sys2Proof.Machine

/-! ### Packing -/

@[simp] theorem unpackDesc_packDesc (d : Desc) : unpackDesc (packDesc d) = d := by
  obtain ⟨highTicks, highLevel, lowTicks, lowLevel⟩ := d
  simp only [unpackDesc, packDesc, Desc.mk.injEq]
  refine ⟨?_, ?_, ?_, ?_⟩ <;>
    · ext j hj
      simp
      grind

@[simp] theorem packDesc_unpackDesc (w : Word) : packDesc (unpackDesc w) = w := by
  unfold packDesc unpackDesc
  ext j hj
  simp
  grind

/-- The word of a data bit's descriptor: its high level is bit 15 (R86). -/
theorem packDesc_dataDesc (h l : Tick) :
    packDesc (dataDesc h l) = (l.setWidth 32 <<< (16 : Nat)) ||| (0x8000#32 ||| h.setWidth 32) := by
  have hlevel : ∀ j (_ : j < 32), (0x8000#32)[j] = decide (j = 15) := by decide
  unfold packDesc dataDesc
  ext j hj
  simp [hlevel]
  grind

/-! ### What an agent's move depends on -/

/-- The gap is over when a running timer has come to the delay (R97). -/
theorem gapElapsed_iff {s : State} : s.gapElapsed = true ↔ ∃ us, s.gapt = some us ∧ s.cfg.resetDelayUs.toNat ≤ us := by
  unfold State.gapElapsed
  cases s.gapt <;> simp

/-- A move that comes to nothing is taken, and the state is otherwise as it was (log entries 2 and 20). -/
theorem step_stalled {s : State} {m : Move} {rest : List Move} (hs : s.sched = m :: rest) (hh : s.held = false)
    (hquiet : fetchReleased m { s with sched := rest } = .quiet { s with sched := rest }) :
    step s = .next { s with sched := rest } := by
  rw [step_released hs hh, hquiet]
  rfl

end Sys2Proof.Machine
end

section
/-! PROOFS. The statements about the encodings (spec/30_encoding.md): command words, step selection, descriptors, stalls. -/

namespace Sys2Proof.Machine

/-- Settles O1: the fields of a command word come back from it, and the encoded views meet the condition of their step. -/
theorem decodeEncodeRoundTrip : Obligations.DecodeEncodeRoundTrip := by
  intro i hwf
  cases i with
  | setPixel idx r g b =>
    have hidx : idx < 32 := of_decide_eq_true hwf
    refine decodeCmd_eq_instr_iff.2 (.inl ⟨cmdOp_cmdWord .., ?_⟩)
    rw [cmdIdx_cmdWord_ofNat _ _ _ _ hidx, cmdRed_cmdWord, cmdGreen_cmdWord, cmdBlue_cmdWord]
  | fbWrite idx r g b =>
    have hidx : idx < 32 := of_decide_eq_true hwf
    refine decodeCmd_eq_instr_iff.2 (.inr (.inr (.inl ⟨cmdOp_cmdWord .., ?_⟩)))
    rw [cmdIdx_cmdWord_ofNat _ _ _ _ hidx, cmdRed_cmdWord, cmdGreen_cmdWord, cmdBlue_cmdWord]
  | fbRead idx =>
    have hidx : idx < 32 := of_decide_eq_true hwf
    refine decodeCmd_eq_instr_iff.2 (.inr (.inr (.inr (.inl ⟨⟨cmdOp_cmdWord .., ?_⟩, ?_⟩))))
    · rw [low24_cmdWord]
      decide
    · rw [cmdIdx_cmdWord_ofNat _ _ _ _ hidx]
  | fbOpen | fbClose => decide
  | seqWake | seqSnapshot | seqEncode | seqSubmit | seqNext | seqLast | seqFault | seqGapDone => rfl
  | txAccept | txOk | txErr => rfl
  | bit2pulseZero | bit2pulseOne => rfl

/-- Settles O2: a word of a row is its `op`, the fields that the row uses, and zeros. -/
theorem legalWordIsItsEncoding : Obligations.LegalWordIsItsEncoding := by
  intro w i hd
  obtain ⟨hop, rfl⟩ | ⟨hop, rfl⟩ | ⟨hop, rfl⟩ | ⟨⟨hop, hlow⟩, rfl⟩ | ⟨hop, rfl⟩ := decodeCmd_eq_instr_iff.1 hd
  · exact ⟨decide_eq_true (cmdIdx_lt w), congrArg Fetched.cmd (cmdWord_of_op hop)⟩
  · rw [(openWord_iff w).2 hop]
    decide
  · exact ⟨decide_eq_true (cmdIdx_lt w), congrArg Fetched.cmd (cmdWord_of_op hop)⟩
  · exact ⟨decide_eq_true (cmdIdx_lt w), congrArg Fetched.cmd (cmdWord_of_op_of_low24 hop hlow)⟩
  · rw [(closeWord_iff w).2 hop]
    decide

/-- Settles O3: mask and match of each row say which `op` it has and which fields are zero. -/
theorem commandRowsByMatchAndMask : Obligations.CommandRowsByMatchAndMask := by
  intro w
  refine ⟨?_, ?_, ?_, ?_, ?_, decodeCmd_reservedOp⟩
  · simp [decodeCmd_eq_instr_iff, setPixelMask_iff]
  · simp [decodeCmd_eq_instr_iff, and_ones, openWord_iff]
  · simp [decodeCmd_eq_instr_iff, fbWriteMask_iff]
  · simp [decodeCmd_eq_instr_iff, readMask_iff]
  · simp [decodeCmd_eq_instr_iff, and_ones, closeWord_iff]

/-- Settles O4: the words in no row, for each of the eight values of `op`. -/
theorem illegalWordsExactly : Obligations.IllegalWordsExactly := by
  intro w
  change _ ↔ (cmdOp w = 0#3 ∨ cmdOp w = 6#3 ∨ cmdOp w = 7#3) ∨
    ((cmdOp w = 2#3 ∨ cmdOp w = 5#3) ∧ _) ∨ (cmdOp w = 4#3 ∧ _)
  rw [decodeCmd_rejected_iff]
  rcases cmdOp_cases w with h | h | h | h | h | h | h | h <;> simp [h]

/-- Settles O5: the step selected has its `STATE` and its condition, and in that state that condition selects it. -/
theorem sequencerStepSelection : Obligations.SequencerStepSelection := by
  refine ⟨fun s => ⟨rfl, rfl, Option.isNone_iff_eq_none, rfl, rfl, gapElapsed_iff⟩, fun v i => ⟨fun hd => ?_, ?_⟩⟩
  · have hlast : ¬v.k.toNat < 15 ↔ v.k.toNat = 15 := by omega
    simpa only [stateOfCode_eq_some_iff, stateCode, hlast, and_assoc, and_comm, and_left_comm] using decodeSeq_state hd
  · rintro (⟨hc, hp, rfl⟩ | ⟨hc, hg, rfl⟩ | ⟨hc, rfl⟩ | ⟨hc, htx, rfl⟩ | ⟨hc, htx, hk, rfl⟩ | ⟨hc, htx, hk, rfl⟩ |
      ⟨hc, htx, rfl⟩ | ⟨hc, hgap, rfl⟩) <;> simp [decodeSeq, stateOfCode, *]

/-- Settles O8: both inverses and the data bit's word bit by bit; `unpack` is the four ranges by definition. -/
theorem descriptorPackUnpack : Obligations.DescriptorPackUnpack :=
  ⟨unpackDesc_packDesc, fun w => ⟨packDesc_unpackDesc w, rfl, rfl, rfl, rfl⟩, packDesc_dataDesc⟩

/-- Settles O6: a submission is the sequencer's step with a chunk presented; the other two are read off their decoders. -/
theorem transmitterStepSelection : Obligations.TransmitterStepSelection := by
  refine ⟨fun v offered i => ?_, fun txs txr i => ?_, fun b i => ?_⟩
  · rw [decodeAccept_eq_instr_iff, sequencerStepSelection.2 v .seqSubmit]
    simp [and_assoc]
  · cases txs with
    | busy => obtain rfl | rfl := BitVec.eq_zero_or_eq_one txr <;> simp [decodeCompletion, eq_comm]
    | idle | doneOk | doneErr => simp [decodeCompletion]
  · obtain rfl | rfl := BitVec.eq_zero_or_eq_one b <;> simp [decodeBit, eq_comm]

/-- Settles O7: each word is decoded by evaluation. -/
theorem sampleWordsDecode : Obligations.SampleWordsDecode := by
  unfold Obligations.SampleWordsDecode
  decide

/-- Settles O40: a rejected decoding runs nothing, and there is no requester past `N_REQ`. -/
theorem stalledAgentsChangeNothing : Obligations.StalledAgentsChangeNothing := fun _ _ _ hheld =>
  ⟨fun hs hd => step_stalled hs hheld (congrArg (runDecoded · _) hd),
    fun hs hd => step_stalled hs hheld (congrArg (runDecoded · _) hd),
    fun _ _ hs hr => step_stalled hs hheld (if_neg (Nat.not_lt.2 hr))⟩

end Sys2Proof.Machine
end

section
/-! SUPPORT. The host-port commands branch by branch, what single operations leave at the issuer's port, and pixel writes one after
the other (spec/40_pixel_store.md). -/

namespace Sys2Proof.Machine

/-! ### The port of the issuer, in the words of the statements -/

/-- A port write at `me` leaves the other ports alone. -/
theorem myPortIs_of_ports {s t : State} {p : Port} (h : t.ports = cellsWrite (some Port.idle) s.ports s.me [p]) :
    MyPortIs s t p :=
  ⟨by rw [port_of_write h, if_pos rfl], fun q hq => by rw [port_of_write h, if_neg hq]⟩

/-- An answer and nothing else, in the words of the statements. -/
theorem answeredOnly_respond (st : Status) (data : BitVec 24) (s : State) :
    AnsweredOnly s (respond st data s) (rspWord st data) :=
  ⟨myPortIs_of_ports rfl, rfl⟩

/-- Two words end to end, as a number. -/
theorem toNat_append {m n : Nat} (x : BitVec m) (y : BitVec n) : (x ++ y).toNat = x.toNat * 2 ^ n + y.toNat := by
  rw [BitVec.toNat_append, ← Nat.shiftLeft_add_eq_or_of_lt y.isLt, Nat.shiftLeft_eq]

/-- The answer with a stored pixel is `0x00RRGGBB` (R84, R114). -/
theorem rspWord_toPublic (i0 i1 i2 : Byte) : rspWord .ok (toPublic i0 i1 i2) =
    BitVec.ofNat 32 (i1.toNat * 65536 + i0.toNat * 256 + i2.toNat) := by
  apply BitVec.eq_of_toNat_eq
  simp only [rspWord, statusCode, toPublic, toNat_append, BitVec.ofNat_eq_ofNat, BitVec.toNat_ofNat]
  omega

/-! ### The commands of an issuer that owes no notification -/

section commands

variable {s : State} {idx : Nat} (cr cg cb : Byte)

/-- Check (3) of R233 in `SET_PIXEL`, which needs no window. -/
theorem execSetPixel_pastEnd (ho : s.owes = false) (hidx : 16 ≤ idx) :
    exec (.setPixel idx cr cg cb) s = .next (raiseIndexOutOfRange s) := by
  simp [exec, execSetPixel, ho, hidx]

/-- Step 1 of `SET_PIXEL` (R111). -/
theorem execSetPixel_free (ho : s.owes = false) (hidx : idx < 16) (hg : s.guard = none) :
    exec (.setPixel idx cr cg cb) s =
      .next (setOwed true (releaseGuard (writePixel idx (toInternal cr cg cb) (acquireGuard (.requester s.me) s)))) := by
  simp [exec, execSetPixel, ho, hidx, hg]

theorem execFbOpen_free (ho : s.owes = false) (hg : s.guard = none) :
    exec .fbOpen s = .next (respond .ok 0 (acquireGuard (.requester s.me) s)) := by
  simp [exec, execFbOpen, ho, hg]

/-- Check (2) of R233: a window command needs the guard. -/
theorem exec_windowCommand_foreign {i : Instr}
    (hi : (∃ idx cr cg cb, i = .fbWrite idx cr cg cb) ∨ (∃ idx, i = .fbRead idx) ∨ i = .fbClose) (ho : s.owes = false)
    (hg : s.guard ≠ some (.requester s.me)) : exec i s = .next (raiseIllegalCommand s) := by
  rcases hi with ⟨_, _, _, _, rfl⟩ | ⟨_, rfl⟩ | rfl <;> simp [exec, execFbWrite, execFbRead, execFbClose, inWindow, ho, hg]

/-- Check (3) of R233: inside the window a pixel needs a legal index. -/
theorem exec_windowPixel_pastEnd {i : Instr} (hi : (∃ cr cg cb, i = .fbWrite idx cr cg cb) ∨ i = .fbRead idx)
    (ho : s.owes = false) (hg : s.guard = some (.requester s.me)) (hidx : 16 ≤ idx) :
    exec i s = .next (raiseIndexOutOfRange s) := by
  rcases hi with ⟨_, _, _, rfl⟩ | rfl <;> simp [exec, execFbWrite, execFbRead, inWindow, ho, hg, hidx]

theorem execFbWrite_inWindow (ho : s.owes = false) (hg : s.guard = some (.requester s.me)) (hidx : idx < 16) :
    exec (.fbWrite idx cr cg cb) s = .next (respond .ok 0 (writePixel idx (toInternal cr cg cb) s)) := by
  simp [exec, execFbWrite, inWindow, ho, hg, hidx]

theorem execFbRead_inWindow (ho : s.owes = false) (hg : s.guard = some (.requester s.me)) (hidx : idx < 16) :
    exec (.fbRead idx) s = .next (respond .ok (toPublic (s.channel idx 0) (s.channel idx 1) (s.channel idx 2)) s) := by
  simp [exec, execFbRead, inWindow, ho, hg, hidx]

/-- Step 1 of `FB_CLOSE` (R115). -/
theorem execFbClose_inWindow (ho : s.owes = false) (hg : s.guard = some (.requester s.me)) :
    exec .fbClose s = .next (setOwed true (releaseGuard s)) := by
  simp [exec, execFbClose, inWindow, ho, hg]

end commands

/-- With the guard held, the sequencer's snapshot waits (R112, R162). -/
theorem execSeqSnapshot_stalled {s : State} (hg : s.guard ≠ none) : exec .seqSnapshot s = .next s := by
  simp [exec, execSeqSnapshot, hg]

/-! ### One write after another -/

section writes

variable {α : Type} [DecidableEq α] {dflt : Option α} {size base base' : Nat} {m : List (Nat × α)} {vs ws : List α}

/-- In canonical form, writes of ranges that do not meet commute. -/
theorem cellsWrite_comm (h : Memory.wf dflt size m) (hv : base + vs.length ≤ size) (hw : base' + ws.length ≤ size)
    (hapart : base + vs.length ≤ base' ∨ base' + ws.length ≤ base) :
    cellsWrite dflt (cellsWrite dflt m base' ws) base vs = cellsWrite dflt (cellsWrite dflt m base vs) base' ws := by
  refine cells_ext dflt size _ _ (cellsWrite_wf _ _ _ _ _ (cellsWrite_wf _ _ _ _ _ h hw) hv)
    (cellsWrite_wf _ _ _ _ _ (cellsWrite_wf _ _ _ _ _ h hv) hw) fun a => ?_
  simp only [cellsRead_cellsWrite]
  by_cases hin : base ≤ a ∧ a < base + vs.length
  · rw [if_pos hin, if_neg (by omega), if_pos hin]
  · rw [if_neg hin, if_neg hin]

/-- In canonical form, a second write of a range leaves nothing of the first. -/
theorem cellsWrite_overwrite (h : Memory.wf dflt size m) (hv : base + vs.length ≤ size) (hlen : ws.length = vs.length) :
    cellsWrite dflt (cellsWrite dflt m base ws) base vs = cellsWrite dflt m base vs := by
  refine cells_ext dflt size _ _ (cellsWrite_wf _ _ _ _ _ (cellsWrite_wf _ _ _ _ _ h (hlen ▸ hv)) hv)
    (cellsWrite_wf _ _ _ _ _ h hv) fun a => ?_
  simp only [cellsRead_cellsWrite, hlen]
  by_cases hin : base ≤ a ∧ a < base + vs.length
  · rw [if_pos hin, if_pos hin]
  · rw [if_neg hin, if_neg hin, if_neg hin]

end writes

/-- A pixel lies inside the frame store. -/
theorem pixelAddr_add_le {p : Nat} {bs : List Byte} (hp : p < 16) (hbs : bs.length = 3) : pixelAddr p 0 + bs.length ≤ 48 := by
  rw [hbs, pixelAddr]
  omega

/-- Two writes in a row are one frame store in the state before both. -/
theorem writePixel_writePixel (p q : Nat) (a b : List Byte) (s : State) : writePixel p a (writePixel q b s) =
    { s with frame := cellsWrite frameDefault (cellsWrite frameDefault s.frame (pixelAddr q 0) b) (pixelAddr p 0) a } := rfl

/-! ### What a held guard excludes -/

/-- A requester's command leaves a guard that another requester holds: it takes only a free one and frees only its own (R60). -/
theorem exec_command_guard_foreign {i : Instr} {s t : State} {r : Nat} (hi : isCommand i = true)
    (hg : s.guard = some (.requester r)) (hme : s.me ≠ r) (he : exec i s = .next t) : t.guard = s.guard := by
  have hfree : s.guard ≠ none := by rw [hg]; nofun
  have hforeign : s.guard ≠ some (.requester s.me) := fun hown =>
    hme (Agent.requester.inj (Option.some.inj (hown.symm.trans hg)))
  cases i with
  | setPixel =>
    obtain ⟨-, rfl⟩ | ⟨-, -, rfl⟩ | ⟨-, -, hnone, -⟩ | ⟨-, -, -, rfl⟩ := execSetPixel_next he
    case inr.inr.inl => exact absurd hnone hfree
    all_goals rfl
  | fbOpen =>
    obtain ⟨-, hnone, -⟩ | ⟨-, rfl⟩ := execFbOpen_next he
    · exact absurd hnone hfree
    · rfl
  | fbWrite => obtain ⟨-, rfl⟩ | ⟨-, -, rfl⟩ | ⟨-, -, -, rfl⟩ | ⟨-, -, -, rfl⟩ := execFbWrite_next he <;> rfl
  | fbRead => obtain ⟨-, rfl⟩ | ⟨-, -, rfl⟩ | ⟨-, -, -, rfl⟩ | ⟨-, -, -, rfl⟩ := execFbRead_next he <;> rfl
  | fbClose =>
    obtain ⟨-, rfl⟩ | ⟨-, -, rfl⟩ | ⟨-, hown, -⟩ := execFbClose_next he
    · rfl
    · rfl
    · exact absurd hown hforeign
  | seqWake | seqSnapshot | seqEncode | seqSubmit | seqNext | seqLast | seqFault | seqGapDone | txAccept | txOk | txErr
  | bit2pulseZero | bit2pulseOne => cases hi

/-- A sequencer step copies the frame store only with the guard free (R162). -/
theorem exec_sequencer_snap {i : Instr} {s t : State} (hi : isSequencerStep i = true) (hg : s.guard ≠ none)
    (he : exec i s = .next t) : t.snap = s.snap := by
  cases i with
  | seqSnapshot =>
    obtain ⟨-, hnone, -⟩ | rfl := execSeqSnapshot_next he
    · exact absurd hnone hg
    · rfl
  | seqWake => obtain ⟨-, -, rfl⟩ | rfl := execSeqWake_next he <;> rfl
  | seqEncode => obtain ⟨_, -, -, rfl⟩ | rfl := execSeqEncode_next he <;> rfl
  | seqSubmit => obtain ⟨_, -, -, -, rfl⟩ | rfl := execSeqSubmit_next he <;> rfl
  | seqNext => obtain ⟨_, -, -, -, -, rfl⟩ | rfl := execSeqNext_next he <;> rfl
  | seqLast => obtain ⟨_, -, -, -, -, rfl⟩ | rfl := execSeqLast_next he <;> rfl
  | seqFault => obtain ⟨_, -, -, -, rfl⟩ | rfl := execSeqFault_next he <;> rfl
  | seqGapDone => obtain ⟨-, -, rfl⟩ | rfl := execSeqGapDone_next he <;> rfl
  | setPixel | fbOpen | fbWrite | fbRead | fbClose | txAccept | txOk | txErr | bit2pulseZero | bit2pulseOne => cases hi

/-- An instruction that is not a command of the guard's holder leaves the guard, the frame store and the snapshot (R116). -/
theorem exec_foreign_frame {i : Instr} {s t : State} {r : Nat} (he : exec i s = .next t) (hg : s.guard = some (.requester r))
    (hme : isCommand i = true → s.me ≠ r) :
    t.guard = s.guard ∧ t.frame = s.frame ∧ t.snap = s.snap := by
  have hheld : s.guard ≠ none := by rw [hg]; nofun
  cases hc : isCommand i with
  | true =>
    have hframe : t.frame = s.frame := by
      by_contra hne
      obtain ⟨_, _, _, _, -, -, ⟨-, hnone⟩ | ⟨-, hown⟩⟩ := frameWrittenOnlyUnderGuard i s t he hne
      · exact hheld hnone
      · exact hme hc (Agent.requester.inj (Option.some.inj (hown.symm.trans hg)))
    have hsnap : t.snap = s.snap := by rw [exec_command_frame hc he]
    exact ⟨exec_command_guard_foreign hc hg (hme hc) he, hframe, hsnap⟩
  | false =>
    cases hq : isSequencerStep i with
    | true =>
      obtain ⟨hframe, -, hguard, -⟩ := exec_sequencer_frame hq he
      exact ⟨hguard, hframe, exec_sequencer_snap hq hheld he⟩
    | false =>
      rw [exec_transmitter_frame hc hq he]
      exact ⟨rfl, rfl, rfl⟩

theorem isSequencerStep_of_isCommand {i : Instr} : isCommand i = true → isSequencerStep i = false := by
  cases i <;> simp [isCommand, isSequencerStep]

/-- A command runs with `me` naming the requester whose move it is, and no other kind of move runs one. -/
theorem fetch_run_command {m : Move} {s u : State} {i : Instr} (hf : fetchMove m s = .run i u) (hi : isCommand i = true) :
    ∃ w, m = .requester u.me w := by
  obtain ⟨-, ⟨_, w, rfl, -, -, rfl⟩ | ⟨-, hd, -⟩ | ⟨-, rfl, -⟩ | ⟨_, _, _, -, -, rfl | rfl, -⟩ | ⟨_, -, rfl | rfl, -⟩⟩ :=
    fetch_run hf
  case inl => exact ⟨w, rfl⟩
  case inr.inl => exact nomatch (isSequencerStep_of_isCommand hi).symm.trans (decodeSeq_isSequencerStep hd)
  all_goals cases hi

/-- A move whose agent's decoder has selected an instruction runs it. -/
theorem step_run {s u : State} {m : Move} {rest : List Move} {i : Instr} (hs : s.sched = m :: rest) (hh : s.held = false)
    (hrun : fetchReleased m { s with sched := rest } = .run i u) : step s = exec i u := by
  rw [step_released hs hh, hrun]
  rfl

end Sys2Proof.Machine
end

section
/-! PROOFS. The statements about the host-port commands (spec/40_pixel_store.md) and the step that runs them. -/

namespace Sys2Proof.Machine

/-- Settles O18: the word is the row of its `op`, and the four clauses are the branches of the command. -/
theorem setPixelCommand : Obligations.SetPixelCommand := by
  refine ⟨fun w hop => decodeCmd_eq_instr_iff.2 (.inl ⟨hop, rfl⟩), fun s idx r g b =>
    ⟨fun ho => ⟨_, if_pos ho, notifiedOnly_finishNotify s⟩,
      fun ho hidx => ⟨_, execSetPixel_pastEnd r g b ho hidx, answeredOnly_respond .indexOutOfRange 0 s⟩,
      fun ho hidx hg => ⟨_, execSetPixel_free r g b ho hidx hg, pixelWritten_of_frame rfl, myPortIs_of_ports rfl, ?_⟩,
      fun ho hidx hg => execSetPixel_stalled r g b ho hidx hg⟩⟩
  rw [hg]
  rfl

/-- Settles O19: a free guard is taken, a held one stalls all three; the rejected words are among those of O4. -/
theorem openCommand : Obligations.OpenCommand :=
  ⟨fun _ ho =>
    ⟨fun hg => ⟨_, execFbOpen_free ho hg, myPortIs_of_ports rfl, rfl⟩,
      fun hg => ⟨execFbOpen_stalled hg, execSeqSnapshot_stalled hg,
        fun _ r g b hidx => execSetPixel_stalled r g b ho hidx hg⟩⟩,
    fun w hop hlow => (illegalWordsExactly w).2 (.inr (.inl ⟨.inl hop, hlow⟩))⟩

/-- Settles O20: the guard, then the index, then the write. -/
theorem windowWriteCommand : Obligations.WindowWriteCommand := fun s _ r g b ho =>
  ⟨fun hg => ⟨_, exec_windowCommand_foreign (.inl ⟨_, _, _, _, rfl⟩) ho hg, answeredOnly_respond .illegalCommand 0 s⟩,
    fun hg hidx =>
      ⟨_, exec_windowPixel_pastEnd (.inl ⟨_, _, _, rfl⟩) ho hg hidx, answeredOnly_respond .indexOutOfRange 0 s⟩,
    fun hg hidx =>
      ⟨_, execFbWrite_inWindow r g b ho hg hidx, pixelWritten_of_frame rfl, myPortIs_of_ports rfl, rfl⟩⟩

/-- Settles O21: the checks of `FB_WRITE`, then the stored pixel as the answer; the rejected words are among those of O4. -/
theorem windowReadCommand : Obligations.WindowReadCommand := by
  refine ⟨fun s idx ho =>
    ⟨fun hg => ⟨_, exec_windowCommand_foreign (.inr (.inl ⟨_, rfl⟩)) ho hg, answeredOnly_respond .illegalCommand 0 s⟩,
      fun hg hidx => ⟨_, exec_windowPixel_pastEnd (.inr rfl) ho hg hidx, answeredOnly_respond .indexOutOfRange 0 s⟩,
      fun hg hidx => ⟨_, execFbRead_inWindow ho hg hidx, ?_⟩⟩,
    fun w hop hlow => (illegalWordsExactly w).2 (.inr (.inr ⟨hop, hlow⟩))⟩
  have hanswer := answeredOnly_respond .ok (toPublic (s.channel idx 0) (s.channel idx 1) (s.channel idx 2)) s
  rwa [rspWord_toPublic] at hanswer

/-- Settles O22: step 2 when step 1 has been done, else the guard check, else step 1; the rejected words are among those of O4. -/
theorem closeCommand : Obligations.CloseCommand :=
  ⟨fun s =>
    ⟨fun ho => ⟨_, if_pos ho, notifiedOnly_finishNotify s⟩,
      fun ho hg => ⟨_, exec_windowCommand_foreign (.inr (.inr rfl)) ho hg, answeredOnly_respond .illegalCommand 0 s⟩,
      fun ho hg => ⟨_, execFbClose_inWindow ho hg, myPortIs_of_ports rfl, rfl⟩⟩,
    fun w hop hlow => (illegalWordsExactly w).2 (.inr (.inl ⟨.inr hop, hlow⟩))⟩

/-- Settles O26: different pixels are ranges that do not meet, one pixel is one range. -/
theorem pixelWritesDoNotMix : Obligations.PixelWritesDoNotMix := by
  intro s p q a b hwf hp hq ha hb
  have hpa := pixelAddr_add_le hp ha
  have hqb := pixelAddr_add_le hq hb
  refine ⟨fun hne => ?_, ?_⟩
  · have hapart : pixelAddr p 0 + a.length ≤ pixelAddr q 0 ∨ pixelAddr q 0 + b.length ≤ pixelAddr p 0 := by
      simp only [pixelAddr, ha, hb]
      omega
    rw [writePixel_writePixel, writePixel_writePixel, cellsWrite_comm hwf hpa hqb hapart]
  · rw [writePixel_writePixel, cellsWrite_overwrite hwf hpa (hb.trans ha.symm)]
    rfl

/-- Settles O48: another agent's instruction finds the guard held by `r`, and a move that runs none touches none of the three. -/
theorem windowExcludesOtherAgents : Obligations.WindowExcludesOtherAgents := by
  intro s t r hstep hg hm hother
  rcases step_next hstep with ⟨i, u, hf, he⟩ | hf
  · have hme : isCommand i = true → u.me ≠ r := by
      rintro hi rfl
      obtain ⟨w, hw⟩ := fetch_run_command hf hi
      exact hother w hw
    rw [fetch_run_frame hf] at he
    have hkept := exec_foreign_frame he ((takeMove_guard s).trans hg) hme
    simpa only [takeMove_guard, takeMove_frame, takeMove_snap] using hkept
  · rw [fetch_quiet_frame hf hm]
    exact ⟨takeMove_guard s, takeMove_frame s, takeMove_snap s⟩

/-- Settles O38: a command runs on the port's record, the other agents' instructions on what their decoder was given. -/
theorem stepRunsDecodedInstruction : Obligations.StepRunsDecodedInstruction := fun _ _ _ hheld =>
  ⟨fun r w hs hr hd =>
      ⟨_, step_command hs hheld hr hd, presentCmd_me_port .., presentCmd_other_port r w _, rfl⟩,
    fun hs hd => step_run hs hheld (congrArg (runDecoded · _) hd),
    fun hs hd => step_run hs hheld (congrArg (runDecoded · _) hd),
    fun _ _ _ hs hd => step_run hs hheld (congrArg (runDecoded · _) hd),
    fun _ hs hd => step_run hs hheld (congrArg (runDecoded · _) hd)⟩

end Sys2Proof.Machine
end

section
/-! SUPPORT. What a step does with a pending notification (spec/41_change_notifier.md): commands raise it or leave it, and of the
other instructions only the sequencer's wake consumes it. -/

namespace Sys2Proof.Machine

/-- A command never consumes a notification: `WAIT` is no command's effect (R132). -/
theorem exec_command_keeps_pending {i : Instr} {s t : State} (hi : isCommand i = true) (he : exec i s = .next t)
    (hp : s.pending = true) : t.pending = true := by
  cases i with
  | setPixel =>
    obtain ⟨-, rfl⟩ | ⟨-, -, rfl⟩ | ⟨-, -, -, rfl⟩ | ⟨-, -, -, rfl⟩ := execSetPixel_next he
    · rfl
    all_goals exact hp
  | fbOpen => obtain ⟨-, -, rfl⟩ | ⟨-, rfl⟩ := execFbOpen_next he <;> exact hp
  | fbWrite => obtain ⟨-, rfl⟩ | ⟨-, -, rfl⟩ | ⟨-, -, -, rfl⟩ | ⟨-, -, -, rfl⟩ := execFbWrite_next he <;> exact hp
  | fbRead => obtain ⟨-, rfl⟩ | ⟨-, -, rfl⟩ | ⟨-, -, -, rfl⟩ | ⟨-, -, -, rfl⟩ := execFbRead_next he <;> exact hp
  | fbClose =>
    obtain ⟨-, rfl⟩ | ⟨-, -, rfl⟩ | ⟨-, -, rfl⟩ := execFbClose_next he
    · rfl
    all_goals exact hp
  | seqWake | seqSnapshot | seqEncode | seqSubmit | seqNext | seqLast | seqFault | seqGapDone | txAccept | txOk | txErr
  | bit2pulseZero | bit2pulseOne => cases hi

/-- A sequencer step keeps a pending notification, or it is the wake that consumes it (R161). -/
theorem exec_sequencer_pending {i : Instr} {s t : State} (hi : isSequencerStep i = true) (he : exec i s = .next t)
    (hp : s.pending = true) : t.pending = true ∨ (s.seqState = .waitingForChange ∧ t.seqState = .snapshotting) := by
  cases i with
  | seqWake =>
    obtain ⟨hq, -, rfl⟩ | rfl := execSeqWake_next he
    · exact .inr ⟨hq, rfl⟩
    · exact .inl hp
  | seqSnapshot => obtain ⟨-, -, rfl⟩ | rfl := execSeqSnapshot_next he <;> exact .inl hp
  | seqEncode => obtain ⟨_, -, -, rfl⟩ | rfl := execSeqEncode_next he <;> exact .inl hp
  | seqSubmit => obtain ⟨_, -, -, -, rfl⟩ | rfl := execSeqSubmit_next he <;> exact .inl hp
  | seqNext => obtain ⟨_, -, -, -, -, rfl⟩ | rfl := execSeqNext_next he <;> exact .inl hp
  | seqLast => obtain ⟨_, -, -, -, -, rfl⟩ | rfl := execSeqLast_next he <;> exact .inl hp
  | seqFault => obtain ⟨_, -, -, -, rfl⟩ | rfl := execSeqFault_next he <;> exact .inl hp
  | seqGapDone => obtain ⟨-, -, rfl⟩ | rfl := execSeqGapDone_next he <;> exact .inl hp
  | setPixel | fbOpen | fbWrite | fbRead | fbClose | txAccept | txOk | txErr | bit2pulseZero | bit2pulseOne => cases hi

/-- A sequencer step runs on the sequencer's move alone: every other decoder selects instructions of its own agent. -/
theorem fetch_run_sequencer {m : Move} {s u : State} {i : Instr} (hf : fetchMove m s = .run i u)
    (hi : isSequencerStep i = true) : m = .sequencer := by
  obtain ⟨-, ⟨_, _, -, -, hd, -⟩ | ⟨rfl, -⟩ | ⟨-, rfl, -⟩ | ⟨_, _, _, -, -, rfl | rfl, -⟩ | ⟨_, -, rfl | rfl, -⟩⟩ :=
    fetch_run hf
  case inl => exact nomatch (isSequencerStep_of_isCommand (decodeCmd_isCommand hd)).symm.trans hi
  case inr.inl => rfl
  all_goals cases hi

end Sys2Proof.Machine
end

section
/-! PROOFS. The statement about the change notifier (spec/41_change_notifier.md). -/

namespace Sys2Proof.Machine

/-- Settles O45: among instructions only the sequencer's wake clears `PENDING`, and a quiet move other than reset leaves it. -/
theorem notificationIsNeverDropped : Obligations.NotificationIsNeverDropped := by
  intro s t hstep hp hm
  have htaken : (takeMove s).pending = true := (takeMove_pending s).trans hp
  rcases step_next hstep with ⟨i, u, hf, he⟩ | hf
  · have hu := fetch_run_frame hf
    have hup : u.pending = true := by rw [hu]; exact htaken
    have huq : u.seqState = s.seqState := by rw [hu]; exact takeMove_seqState s
    cases hc : isCommand i with
    | true => exact .inl (exec_command_keeps_pending hc he hup)
    | false =>
      cases hq : isSequencerStep i with
      | true =>
        refine (exec_sequencer_pending hq he hup).imp_right fun ⟨hwaiting, hwoken⟩ => ?_
        exact ⟨fetch_run_sequencer hf hq, huq ▸ hwaiting, hwoken⟩
      | false =>
        rw [exec_transmitter_frame hc hq he]
        exact .inl hup
  · rw [fetch_quiet_frame hf hm]
    exact .inl htaken

end Sys2Proof.Machine
end

section
/-! SUPPORT. The binary32 multipliers by value (spec/00_scope.md R18), and what correction and the encoder's and the test oracle's
functions give (spec/42_pulse_encoder.md R141 to R151). -/

namespace Sys2Proof.Machine

/-! ### Multipliers -/

/-- The three fields of a binary32 word, as numbers. -/
theorem binary32_fields (w : Word) : (w.extractLsb' 31 1 = 0#1 ↔ w.toNat < 2 ^ 31) ∧
    (w.extractLsb' 23 8).toNat = w.toNat / 2 ^ 23 % 2 ^ 8 ∧ (w.extractLsb' 0 23).toNat = w.toNat % 2 ^ 23 := by
  refine ⟨?_, by simp [Nat.shiftRight_eq_div_pow], by simp⟩
  rw [← BitVec.toNat_inj]
  simp [Nat.shiftRight_eq_div_pow]
  omega

/-- A normal multiplier with a biased exponent below 127 is less than 1, and 127 with the fraction 0 is 1 itself. -/
theorem normal_le_one_iff {e m : Nat} (hm : m < 2 ^ 23) (he : e ≤ 150) :
    2 ^ 23 + m ≤ 2 ^ (150 - e) ↔ e < 127 ∨ (e = 127 ∧ m = 0) := by
  obtain hlt | rfl | hgt := Nat.lt_trichotomy e 127
  · have hpow : 2 ^ 24 ≤ 2 ^ (150 - e) := Nat.pow_le_pow_right (by decide) (by omega)
    omega
  · omega
  · have hpow : 2 ^ (150 - e) ≤ 2 ^ 22 := Nat.pow_le_pow_right (by decide) (by omega)
    omega

/-- The legal bit patterns are those with a value in (0, 1] (R212 (c)). -/
theorem corrValid_iff_val32 (w : Word) :
    corrValid w = true ↔ ∃ M E : Nat, val32 w = some (M, E) ∧ 0 < M ∧ M ≤ 2 ^ E := by
  obtain ⟨hsign, hexp, hfrac⟩ := binary32_fields w
  have hvalue : ∀ m e : Nat, (∃ M E : Nat, some (m, e) = some (M, E) ∧ 0 < M ∧ M ≤ 2 ^ E) ↔ 0 < m ∧ m ≤ 2 ^ e := by simp
  simp only [corrValid, val32, decide_eq_true_eq, hexp, hfrac, ne_eq, hsign]
  generalize w.toNat = n
  split_ifs with hs h0 h255 h150
  · -- zero and the subnormal data
    rw [hvalue]
    omega
  · -- infinities and NaN
    exact iff_of_false (by omega) (by simp)
  · rw [hvalue, normal_le_one_iff (Nat.mod_lt _ (by decide)) h150]
    omega
  · -- whole numbers from `2 ^ 24` up
    have hlarge : 2 ^ 23 + n % 2 ^ 23 ≤ (2 ^ 23 + n % 2 ^ 23) * 2 ^ (n / 2 ^ 23 % 2 ^ 8 - 150) :=
      Nat.le_mul_of_pos_right _ (Nat.two_pow_pos _)
    rw [hvalue]
    omega
  · -- a set sign bit
    exact iff_of_false (by omega) (by simp)

/-- A legal multiplier is at most 1. -/
theorem val32_le_one {c : Word} {M E : Nat} (hc : corrValid c = true) (hv : val32 c = some (M, E)) : M ≤ 2 ^ E := by
  obtain ⟨M', E', hv', -, hle⟩ := (corrValid_iff_val32 c).1 hc
  obtain ⟨rfl, rfl⟩ := Prod.mk.inj (Option.some.inj (hv.symm.trans hv'))
  exact hle

/-! ### Correction -/

/-- A product with a multiplier of at most 1 is not rounded past the byte, ties upward included (R142 (a)). -/
theorem roundedProduct_le {b M E : Nat} (hle : M ≤ 2 ^ E) : (2 * b * M + 2 ^ E) / 2 ^ (E + 1) ≤ b := by
  have hpos : 0 < 2 ^ E := Nat.two_pow_pos E
  have hprod : b * M ≤ b * 2 ^ E := Nat.mul_le_mul_left b hle
  rw [← Nat.lt_succ_iff, Nat.div_lt_iff_lt_mul (Nat.two_pow_pos _), Nat.pow_succ]
  linarith

section correction

variable {c : Word} {M E : Nat} (hc : corrValid c = true) (hv : val32 c = some (M, E))
include hc hv

/-- With a legal multiplier neither the clamp nor the byte's width changes the rounded product (R141, R150). -/
theorem toNat_correct (b : Byte) : (correct b c).toNat = (2 * b.toNat * M + 2 ^ E) / 2 ^ (E + 1) := by
  have hle := roundedProduct_le (b := b.toNat) (val32_le_one hc hv)
  simp only [correct, hv, correctNat, BitVec.toNat_ofNat]
  rw [Nat.min_eq_right (by omega), Nat.mod_eq_of_lt (by omega)]

theorem correct_le (b : Byte) : (correct b c).toNat ≤ b.toNat := by
  rw [toNat_correct hc hv]
  exact roundedProduct_le (val32_le_one hc hv)

theorem correct_mono {b1 b2 : Byte} (h : b1.toNat ≤ b2.toNat) : (correct b1 c).toNat ≤ (correct b2 c).toNat := by
  rw [toNat_correct hc hv, toNat_correct hc hv]
  gcongr

/-- The corrected byte is within one half of the exact product, both multiplied out by `2^(E+1)` (R142 (c)). -/
theorem correct_error (b : Byte) : 2 * (b.toNat * M) ≤ 2 ^ E * (2 * (correct b c).toNat + 1) ∧
    2 ^ E * (2 * (correct b c).toNat) ≤ 2 * (b.toNat * M) + 2 ^ E := by
  rw [toNat_correct hc hv, Nat.mul_assoc 2]
  have hdiv := Nat.div_add_mod (2 * (b.toNat * M) + 2 ^ E) (2 ^ (E + 1))
  have hmod := Nat.mod_lt (2 * (b.toNat * M) + 2 ^ E) (Nat.two_pow_pos (E + 1))
  generalize (2 * (b.toNat * M) + 2 ^ E) / 2 ^ (E + 1) = q at *
  rw [Nat.pow_succ] at hdiv hmod
  have hq : 2 ^ E * (2 * q) = 2 ^ E * 2 * q := (Nat.mul_assoc ..).symm
  rw [Nat.mul_succ, hq]
  omega

theorem correct_eq_zero_iff (b : Byte) : correct b c = 0 ↔ 2 * (b.toNat * M) < 2 ^ E := by
  rw [← BitVec.toNat_inj, toNat_correct hc hv, BitVec.ofNat_eq_ofNat, BitVec.toNat_ofNat, Nat.zero_mod, Nat.mul_assoc,
    Nat.div_eq_zero_iff, Nat.pow_succ]
  have := Nat.two_pow_pos E
  omega

end correction

/-- Black stays black. -/
theorem correct_zero {c : Word} (hc : corrValid c = true) : correct 0 c = 0 := by
  obtain ⟨M, E, hv, -, -⟩ := (corrValid_iff_val32 c).1 hc
  rw [correct_eq_zero_iff hc hv]
  simp

/-- The multiplier 1 is the identity. -/
theorem correct_one (b : Byte) : correct b 0x3F800000 = b := by
  apply BitVec.eq_of_toNat_eq
  rw [toNat_correct (M := 2 ^ 23) (E := 23) (by decide) (by decide)]
  omega

/-! ### Encoding -/

theorem bit2pulse_zero_or_one (c : Cfg) (bit : Bool) : bit2pulse c bit = zeroWord c ∨ bit2pulse c bit = oneWord c := by
  cases bit with
  | false => exact .inl rfl
  | true => exact .inr rfl

/-- Descriptor `i` is chosen by bit `7 - i` of the corrected byte (R95). -/
theorem encodeByte_getElem? (c : Cfg) (b : Byte) (m : Word) {i : Nat} (hi : i < 8) :
    (encodeByte c b m)[i]? = some (bit2pulse c ((correct b m).getLsbD (7 - i))) := by
  simp [encodeByte, pulsesOf, hi]

theorem pulsesOf_zero_or_one {c : Cfg} {a : Byte} {d : Word} (hd : d ∈ pulsesOf c a) : d = zeroWord c ∨ d = oneWord c := by
  obtain ⟨i, -, rfl⟩ := List.mem_map.1 hd
  exact bit2pulse_zero_or_one c _

/-- `IDLE` has all fields zero (R87). -/
theorem idleWord_eq : idleWord = 0x00000000#32 := by decide

/-- The encoded pixel in channel order green, red, blue, each with its own multiplier (R145, R146). -/
theorem encodePixel_eq (c : Cfg) (q0 q1 q2 : Byte) : encodePixel c q0 q1 q2 =
    encodeByte c q0 c.corrGreen ++ encodeByte c q1 c.corrRed ++ encodeByte c q2 c.corrBlue ++ [0x00000000#32] := by
  simp [encodePixel, perm, corrOf, idleWord_eq]

/-- The last slot of a chunk is `IDLE` (R147). -/
theorem encodePixel_idle (c : Cfg) (q0 q1 q2 : Byte) : (encodePixel c q0 q1 q2)[24]? = some 0x00000000#32 := by
  rw [encodePixel_eq, List.getElem?_append_right] <;> simp

/-- The first 24 slots of a chunk hold data descriptors (R147). -/
theorem encodePixel_zero_or_one (c : Cfg) (q0 q1 q2 : Byte) {i : Nat} (hi : i < 24) :
    (encodePixel c q0 q1 q2)[i]? = some (zeroWord c) ∨ (encodePixel c q0 q1 q2)[i]? = some (oneWord c) := by
  obtain ⟨d, hd⟩ : ∃ d, (encodePixel c q0 q1 q2)[i]? = some d :=
    ⟨_, List.getElem?_eq_getElem (by rw [encodePixel_length]; omega)⟩
  rw [hd, Option.some.injEq, Option.some.injEq]
  rw [encodePixel_eq, List.getElem?_append_left (by simp; omega)] at hd
  have hmem := List.mem_of_getElem? hd
  simp only [List.mem_append, or_assoc] at hmem
  rcases hmem with h | h | h <;> exact pulsesOf_zero_or_one h

@[simp] theorem encodeFrame_length (c : Cfg) (bytes : List Byte) : (encodeFrame c bytes).length = 16 := by
  simp [encodeFrame, Config.nPixels]

theorem encodeFrame_getElem? (c : Cfg) (bytes : List Byte) {p : Nat} (hp : p < 16) :
    (encodeFrame c bytes)[p]? = some (encodeChunk c bytes p) := by
  simp [encodeFrame, Config.nPixels, hp]

/-- A black byte is eight `ZERO`, whatever the legal multiplier. -/
theorem encodeByte_zero (c : Cfg) {m : Word} (hm : corrValid m = true) : encodeByte c 0 m = List.replicate 8 (zeroWord c) := by
  rw [encodeByte, correct_zero hm]
  simp [pulsesOf, bit2pulse]

/-- A black pixel is 24 `ZERO` and `IDLE` under a valid configuration. -/
theorem encodePixel_zero {c : Cfg} (hc : cfgValid c = true) :
    encodePixel c 0 0 0 = List.replicate 24 (zeroWord c) ++ [0x00000000#32] := by
  simp only [cfgValid, Bool.and_eq_true] at hc
  obtain ⟨-, hred, hgreen, hblue⟩ := hc
  simp only [encodePixel_eq, encodeByte_zero, hred, hgreen, hblue, List.replicate_append_replicate]

/-- Every chunk of the all-zero snapshot is a black pixel's. -/
theorem encodeChunk_zero {c : Cfg} (hc : cfgValid c = true) (p : Nat) :
    encodeChunk c (List.replicate 48 0) p = List.replicate 24 (zeroWord c) ++ [0x00000000#32] := by
  have hbyte : ∀ i, (List.replicate 48 (0 : Byte)).getD i 0 = 0 :=
    fun i => List.getD_eq_getElem?_getD.trans (List.getElem?_getD_replicate_default_eq _ 48 i)
  rw [encodeChunk, hbyte, hbyte, hbyte, encodePixel_zero hc]

/-! ### Decoding -/

theorem pulseBits_append (c : Cfg) (acc : Nat) (ds es : List Word) :
    pulseBits c acc (ds ++ es) = pulseBits c (pulseBits c acc ds) es := by
  induction ds generalizing acc with
  | nil => rfl
  | cons d ds ih => exact ih _

/-- The digit read from a bit's descriptor is the bit. -/
theorem pulseBits_bit2pulse {c : Cfg} (hne : zeroWord c ≠ oneWord c) (acc : Nat) (bit : Bool) :
    pulseBits c acc [bit2pulse c bit] = 2 * acc + bit.toNat := by
  cases bit with
  | false => simp [pulseBits, bit2pulse, hne]
  | true => simp [pulseBits, bit2pulse]

/-- The first `n` digits are the upper `n` bits of the byte. -/
theorem pulseBits_upperBits {c : Cfg} (hne : zeroWord c ≠ oneWord c) (a : Byte) {n : Nat} (hn : n ≤ 8) :
    pulseBits c 0 ((List.range n).map fun i => bit2pulse c (a.getLsbD (7 - i))) = a.toNat / 2 ^ (8 - n) := by
  induction n with
  | zero => exact (Nat.div_eq_of_lt a.isLt).symm
  | succ n ih =>
    have hpow : 2 ^ (8 - n) = 2 ^ (7 - n) * 2 := by rw [← Nat.pow_succ]; congr 1; omega
    rw [List.range_succ, List.map_append, pulseBits_append, ih (by omega), List.map_singleton, pulseBits_bit2pulse hne,
      hpow, ← Nat.div_div_eq_div_mul, BitVec.getLsbD, Nat.toNat_testBit, show 8 - (n + 1) = 7 - n by omega]
    exact Nat.div_add_mod _ 2

/-- Decoding reads back the byte that was spread over the descriptors. -/
theorem decodeByte_pulsesOf {c : Cfg} (hne : zeroWord c ≠ oneWord c) (a : Byte) : decodeByte c (pulsesOf c a) = some a := by
  have hdigits : pulseBits c 0 (pulsesOf c a) = a.toNat := (pulseBits_upperBits hne a le_rfl).trans (Nat.div_one _)
  rw [decodeByte, if_pos ⟨hne, pulsesOf_length c a, fun d => pulsesOf_zero_or_one⟩, hdigits, BitVec.ofNat_toNat,
    BitVec.setWidth_eq]

/-- `DECODE_CHUNK` cuts the three bytes' descriptors and `IDLE` apart again. -/
theorem decodeChunk_pulsesOf {c : Cfg} (hne : zeroWord c ≠ oneWord c) (a0 a1 a2 : Byte) :
    decodeChunk c (pulsesOf c a0 ++ pulsesOf c a1 ++ pulsesOf c a2 ++ [0x00000000#32]) = some (a0, a1, a2) := by
  generalize hch : pulsesOf c a0 ++ pulsesOf c a1 ++ pulsesOf c a2 ++ [0x00000000#32] = ch
  have hlen : ch.length = 25 := by simp [← hch]
  have hlast : ch[24]? = some idleWord := by
    rw [← hch, List.getElem?_append_right] <;> simp [idleWord_eq]
  have hgreen : ch.take 8 = pulsesOf c a0 := by simp [← hch]
  have hred : (ch.drop 8).take 8 = pulsesOf c a1 := by simp [← hch]
  have hblue : (ch.drop 16).take 8 = pulsesOf c a2 := by
    rw [← hch, List.append_assoc, List.drop_left' (by simp), List.take_left' (pulsesOf_length c a2)]
  rw [decodeChunk, if_pos ⟨hlen, hlast⟩, hgreen, hred, hblue, decodeByte_pulsesOf hne, decodeByte_pulsesOf hne,
    decodeByte_pulsesOf hne]

end Sys2Proof.Machine
end

section
/-! PROOFS. The statements about the Pulse Encoder (spec/42_pulse_encoder.md). -/

namespace Sys2Proof.Machine

/-- Settles O11: the rounded product of a legal multiplier fits the byte, and the corner cases are its values. -/
theorem correctionRoundsExactProduct : Obligations.CorrectionRoundsExactProduct :=
  ⟨fun b _ _ _ hc hv => toNat_correct hc hv b, fun _ hc => correct_zero hc, correct_one⟩

/-- Settles O12: each law is one about the rounded quotient. -/
theorem correctionLaws : Obligations.CorrectionLaws := fun _ _ _ hc hv =>
  ⟨correct_le hc hv, fun _ _ => correct_mono hc hv, correct_error hc hv, correct_eq_zero_iff hc hv⟩

/-- Settles O13: a byte's descriptors are its bits', and every chunk of a frame is an encoded pixel. -/
theorem encodedShape : Obligations.EncodedShape := by
  refine ⟨fun c b m => ⟨encodeByte_length c b m, fun i hi => encodeByte_getElem? c b m hi⟩,
    fun c bytes => ⟨encodeFrame_length c bytes, fun ch hch => ?_⟩⟩
  obtain ⟨p, -, rfl⟩ := List.mem_map.1 hch
  exact ⟨encodeChunk_length c bytes p, encodePixel_idle .., fun i hi => encodePixel_zero_or_one _ _ _ _ hi⟩

/-- Settles O14: a chunk is its pixel, and every pixel of the all-zero snapshot is black. -/
theorem frameEncodesPixelByPixel : Obligations.FrameEncodesPixelByPixel := by
  refine ⟨encodeFrame_length, fun c bytes p hp => ?_, fun c hc => ?_⟩
  · rw [encodeFrame_getElem? c bytes hp]
    exact congrArg some (encodePixel_eq c _ _ _)
  · rw [encodeFrame, funext (encodeChunk_zero hc), List.map_const', List.length_range]
    rfl

/-- Settles O15: the digits of a byte's descriptors are its bits, and a chunk is cut where its bytes were joined. -/
theorem decodedChunkIsCorrectedPixel : Obligations.DecodedChunkIsCorrectedPixel := by
  intro c hne
  have hbyte : ∀ (b : Byte) (m : Word), decodeByte c (encodeByte c b m) = some (correct b m) :=
    fun b m => decodeByte_pulsesOf hne (correct b m)
  refine ⟨hbyte, fun b => (hbyte b _).trans (congrArg some (correct_one b)), fun q0 q1 q2 => ?_⟩
  rw [encodePixel_eq]
  exact decodeChunk_pulsesOf hne _ _ _

/-- Settles O17: `ZERO` and `ONE` are the packed data descriptors of the configuration, by definition. -/
theorem bitSelectsPulse : Obligations.BitSelectsPulse := fun _ => ⟨rfl, rfl⟩

end Sys2Proof.Machine
end

section
/-! SUPPORT. The sequencer's and the transmitter's steps branch by branch, what moves `(STATE, K)`, and the snapshots that the
invariant finds in `TXLOG` (spec/43_render_loop.md). -/

namespace Sys2Proof.Machine

/-! ### Enabled steps -/

section enabled

variable {s : State} {bytes : List Byte} {c : List Word}

theorem execSeqWake_pending (hq : s.seqState = .waitingForChange) (hp : s.pending = true) :
    exec .seqWake s = .next { consumePending s with seqState := .snapshotting } := if_pos ⟨hq, hp⟩

theorem execSeqSnapshot_free (hq : s.seqState = .snapshotting) (hg : s.guard = none) :
    exec .seqSnapshot s = .next { releaseGuard (copySnapshot (acquireGuard .sequencer s)) with seqState := .encoding } :=
  if_pos ⟨hq, Option.isNone_iff_eq_none.2 hg⟩

theorem execSeqEncode_written (hq : s.seqState = .encoding) (hsnap : s.snapBytes = some bytes) :
    exec .seqEncode s = .next { stageFrame bytes s with seqState := .transmitting, k := 0 } := by
  simp only [exec, execSeqEncode, hq, hsnap, if_true]

theorem execSeqSubmit_staged (hq : s.seqState = .transmitting) (htx : s.txs = .idle) (hc : s.chunk s.k.toNat = some c) :
    exec .seqSubmit s = .next (acceptChunk c s) := by
  simp only [exec, execSeqSubmit, hq, htx, hc, and_self, if_true, acceptChunk_offerChunk]

/-- The transmitter's half of a submission (R98, R193). -/
theorem execTxAccept_offered (htx : s.txs = .idle) (ho : s.offer = some c) : exec .txAccept s = .next (acceptChunk c s) := by
  simp only [exec, execTxAccept, htx, ho, if_true]

theorem execTxAccept_stalled (h : s.txs ≠ .idle ∨ s.offer = none) : exec .txAccept s = .next s := by
  by_cases htx : s.txs = .idle
  · simp only [exec, execTxAccept, htx, h.resolve_left (not_not_intro htx), if_true]
  · exact if_neg htx

theorem execTxOk_playing (htx : s.txs = .busy) (hc : s.txChunk = some c) :
    exec .txOk s = .next (setTxs .doneOk (endPlay (logLine (wave c) s))) := by
  simp only [exec, execTxOk, htx, hc, if_true]

theorem execTxErr_playing (htx : s.txs = .busy) (hc : s.txChunk = some c) :
    exec .txErr s = .next (setTxs .doneErr (endPlay (logLine (failedWave (segmentsOut s) s.drawCut (wave c)) s))) := by
  simp only [exec, execTxErr, htx, hc, if_true]

theorem execSeqNext_staged (hq : s.seqState = .transmitting) (htx : s.txs = .doneOk) (hk : s.k.toNat < 15)
    (hc : s.chunk s.k.toNat = some c) :
    exec .seqNext s = .next { setTxs .idle (logSubmission c .ok s) with k := s.k + 1 } := by
  simp only [exec, execSeqNext, hq, htx, hk, hc, and_self, if_true]

theorem execSeqLast_staged (hq : s.seqState = .transmitting) (htx : s.txs = .doneOk) (hk : s.k.toNat = 15)
    (hc : s.chunk 15 = some c) : exec .seqLast s = .next (enterResetDelay (setTxs .idle (logSubmission c .ok s))) := by
  simp only [exec, execSeqLast, hq, htx, hk, hc, and_self, if_true]

theorem execSeqFault_staged (hq : s.seqState = .transmitting) (htx : s.txs = .doneErr) (hc : s.chunk s.k.toNat = some c) :
    exec .seqFault s = .next (enterResetDelay (setTxs .idle (raiseTransmitFault s.k (logSubmission c .err s)))) := by
  simp only [exec, execSeqFault, hq, htx, hc, and_self, if_true]

theorem execSeqGapDone_elapsed (hq : s.seqState = .resetDelay) (hgap : s.gapElapsed = true) :
    exec .seqGapDone s = .next (leaveResetDelay (logLine [.gap s.cfg.resetDelayUs.toNat] s)) := if_pos ⟨hq, hgap⟩

end enabled

/-- `K + 1` does not wrap before the last chunk. -/
theorem toNat_k_succ {k : BitVec 4} (h : k.toNat < 15) : (k + 1).toNat = k.toNat + 1 := by
  rw [BitVec.toNat_add]
  exact Nat.mod_eq_of_lt (by simp; omega)

/-- An accepted chunk leaves the transmitter's buffer as it was behind slot 24. -/
theorem txbuf_acceptChunk_past {c : List Word} {a : Nat} (s : State) (hc : c.length = 25) (ha : 25 ≤ a) :
    cellsRead unwritten (acceptChunk c s).txbuf a = cellsRead unwritten s.txbuf a := by
  rw [acceptChunk_txbuf, cellsRead_cellsWrite, if_neg (by omega)]

/-- The snapshot holds the frame, byte by byte. -/
theorem snap_copySnapshot {i : Nat} (s : State) (hi : i < 48) : cellsRead unwritten (copySnapshot s).snap i = some (s.x i) := by
  rw [copySnapshot_snap, cellsRead_cellsWrite, frameBytes_length, if_pos (by omega), Nat.sub_zero, frameBytes_getElem? s i hi]

/-! ### `(STATE, K)` -/

/-- Only the sequencer's own steps move `(STATE, K)`. -/
theorem exec_other_control {i : Instr} {s t : State} (hi : isSequencerStep i = false) (he : exec i s = .next t) :
    t.seqState = s.seqState ∧ t.k = s.k := by
  cases hc : isCommand i with
  | true =>
    rw [exec_command_frame hc he]
    exact ⟨rfl, rfl⟩
  | false =>
    rw [exec_transmitter_frame hc hi he]
    exact ⟨rfl, rfl⟩

/-- A step whose move is a reset is that reset. -/
theorem step_of_isReset {s t : State} (h : step s = .next t) (hm : isReset (nextMove s) = true) :
    ∃ ws, t = resetBlock ws (takeMove s) := by
  cases hmove : nextMove s with
  | reset ws =>
    have hfetch : fetchMove (.reset ws) (takeMove s) = .quiet (resetBlock ws (takeMove s)) := by
      unfold fetchMove
      split <;> rfl
    rw [step, hmove, hfetch] at h
    exact ⟨ws, (Host.Outcome.next.inj h).symm⟩
  | requester | sequencer | txAccept | transmitter | drive | encoder | elapse =>
    rw [hmove] at hm
    cases hm

/-- A sequencer step is fetched in the state in which its move was taken. -/
theorem fetch_run_sequencer_state {m : Move} {s u : State} {i : Instr} (hf : fetchMove m s = .run i u)
    (hi : isSequencerStep i = true) : u = s := by
  obtain rfl := fetch_run_sequencer hf hi
  obtain ⟨-, ⟨_, _, hm, -⟩ | ⟨-, -, rfl⟩ | ⟨hm, -⟩ | ⟨_, _, _, hm, -⟩ | ⟨_, hm, -⟩⟩ := fetch_run hf
  case inr.inl => rfl
  all_goals cases hm

/-- A step other than reset that moves `(STATE, K)` is a step of the sequencer. -/
theorem step_sequencer_or_keeps_control {s t : State} (h : step s = .next t) (hm : isReset (nextMove s) = false) :
    (nextMove s = .sequencer ∧ ∃ i, isSequencerStep i = true ∧ exec i (takeMove s) = .next t) ∨
      (t.seqState = s.seqState ∧ t.k = s.k) := by
  rcases step_next h with ⟨i, u, hf, he⟩ | hf
  · cases hi : isSequencerStep i with
    | true => exact .inl ⟨fetch_run_sequencer hf hi, i, hi, fetch_run_sequencer_state hf hi ▸ he⟩
    | false =>
      have hkept := exec_other_control hi he
      rw [fetch_run_frame hf] at hkept
      simpa only [takeMove_seqState, takeMove_k] using Or.inr hkept
  · rw [fetch_quiet_frame hf hm]
    exact .inr ⟨takeMove_seqState s, takeMove_k s⟩

/-! ### Whole snapshots -/

/-- Every state of the invariant has a transmitter's log of whole snapshots: the pass in progress is one more pass (R172). -/
theorem StateInv.singleSnapshot {s : State} (h : StateInv s) : SingleSnapshot s.cfg s.txlog := by
  by_cases hq : s.seqState = .transmitting
  · obtain ⟨bytes, -, hlen, -, _, -, done, _, hdone, -, htx, -⟩ := h.pass.transmitting hq
    have hk := s.k.isLt
    rw [htx]
    exact singleSnapshot_append hdone hlen (passOf_okEntries s.cfg bytes (by omega))
  · exact h.pass.between hq

end Sys2Proof.Machine
end

section
/-! PROOFS. The statements about the sequencer's single steps and the transition table (spec/43_render_loop.md), and the single
snapshot of every transmission (R172). -/

namespace Sys2Proof.Machine

/-- Settles O57: a step keeps the invariant, and every state of the invariant has such a log. -/
theorem transmissionsComeFromOneSnapshot : Obligations.TransmissionsComeFromOneSnapshot :=
  fun s t h hstep => (stepKeepsInvariant s t h hstep).singleSnapshot

/-- Settles O28: the copy is the frame byte by byte, and the guard is free before and after. -/
theorem snapshotStep : Obligations.SnapshotStep := by
  refine fun s => ⟨fun hq hg => ⟨_, execSeqSnapshot_free hq hg, fun _ => snap_copySnapshot s, snapBytes_copySnapshot s, ?_⟩,
    fun h => if_neg (by rwa [Option.isNone_iff_eq_none])⟩
  rw [hg]
  rfl

/-- Settles O29: the 400 slots are the encoded frame's 16 chunks. -/
theorem encodeStep : Obligations.EncodeStep := by
  refine fun s => ⟨fun bytes hq hsnap =>
    ⟨_, execSeqEncode_written hq hsnap, fun p hp => ?_, fun a ha => ?_, rfl⟩, fun h => if_neg h⟩
  · exact (chunk_stageFrame bytes s p hp).trans (encodeFrame_getElem? s.cfg bytes hp).symm
  · have hlen := encodeFrame_flatten_length s.cfg bytes
    exact (cellsRead_cellsWrite ..).trans (if_neg (by omega))

/-- Settles O30: both halves accept the chunk, the sequencer's from the staging buffer, the transmitter's from the offer. -/
theorem submitStep : Obligations.SubmitStep := fun s =>
  ⟨fun c hq htx hc => ⟨_, execSeqSubmit_staged hq htx hc, execTxAccept_offered htx rfl,
      txChunk_acceptChunk c s (chunk_length hc), fun _ ha => txbuf_acceptChunk_past s (chunk_length hc) ha, rfl⟩,
    fun h => if_neg h,
    fun c htx ho hc => ⟨_, execTxAccept_offered htx ho, txChunk_acceptChunk c s hc,
      fun _ ha => txbuf_acceptChunk_past s hc ha, rfl⟩,
    execTxAccept_stalled⟩

/-- Settles O44: the sequencer's steps row by row; every other instruction and every other agent's move leaves `(STATE, K)`. -/
theorem controlTransferTable : Obligations.ControlTransferTable := by
  refine ⟨fun i s t he => ?_, fun s t hstep hm => ?_, fun s t hstep hm hmove => ?_⟩
  · cases i with
    | setPixel | fbOpen | fbWrite | fbRead | fbClose | txAccept | txOk | txErr | bit2pulseZero | bit2pulseOne =>
      exact .inl (exec_other_control rfl he)
    | seqWake =>
      obtain ⟨hq, -, rfl⟩ | rfl := execSeqWake_next he
      · exact .inr (.inl ⟨rfl, hq, rfl, rfl⟩)
      · exact .inl ⟨rfl, rfl⟩
    | seqSnapshot =>
      obtain ⟨hq, -, rfl⟩ | rfl := execSeqSnapshot_next he
      · exact .inr (.inr (.inl ⟨rfl, hq, rfl, rfl⟩))
      · exact .inl ⟨rfl, rfl⟩
    | seqEncode =>
      obtain ⟨_, hq, -, rfl⟩ | rfl := execSeqEncode_next he
      · exact .inr (.inr (.inr (.inl ⟨rfl, hq, rfl, rfl⟩)))
      · exact .inl ⟨rfl, rfl⟩
    | seqSubmit => obtain ⟨_, -, -, -, rfl⟩ | rfl := execSeqSubmit_next he <;> exact .inl ⟨rfl, rfl⟩
    | seqNext =>
      obtain ⟨_, hq, -, hk, -, rfl⟩ | rfl := execSeqNext_next he
      · exact .inr (.inr (.inr (.inr (.inl ⟨rfl, hq, hk, hq, toNat_k_succ hk⟩))))
      · exact .inl ⟨rfl, rfl⟩
    | seqLast =>
      obtain ⟨_, hq, -, hk, -, rfl⟩ | rfl := execSeqLast_next he
      · have hk15 : s.k = 15 := BitVec.eq_of_toNat_eq hk
        exact .inr (.inr (.inr (.inr (.inr (.inl ⟨rfl, hq, hk15, rfl, hk15⟩)))))
      · exact .inl ⟨rfl, rfl⟩
    | seqFault =>
      obtain ⟨_, hq, -, -, rfl⟩ | rfl := execSeqFault_next he
      · exact .inr (.inr (.inr (.inr (.inr (.inr (.inl ⟨rfl, hq, rfl, rfl⟩))))))
      · exact .inl ⟨rfl, rfl⟩
    | seqGapDone =>
      obtain ⟨hq, -, rfl⟩ | rfl := execSeqGapDone_next he
      · exact .inr (.inr (.inr (.inr (.inr (.inr (.inr ⟨rfl, hq, rfl, rfl⟩))))))
      · exact .inl ⟨rfl, rfl⟩
  · obtain ⟨ws, rfl⟩ := step_of_isReset hstep hm
    rw [resetBlock_eq]
    exact ⟨rfl, rfl⟩
  · exact (step_sequencer_or_keeps_control hstep hm).resolve_left fun h => hmove h.1

/-- Settles O27: the enabled branch and the waiting one. -/
theorem wakeStep : Obligations.WakeStep := fun _ => ⟨execSeqWake_pending, fun h => if_neg h⟩

/-- Settles O31: below 15 the chunk counter does not wrap. -/
theorem nextChunkStep : Obligations.NextChunkStep := fun _ =>
  ⟨fun _ hq htx hk hc => ⟨_, execSeqNext_staged hq htx hk hc, toNat_k_succ hk, rfl⟩, fun h => if_neg h⟩

/-- Settles O32: the entry's `K` is 15 because it is 15 as a number. -/
theorem lastChunkStep : Obligations.LastChunkStep := by
  refine fun s => ⟨fun c hq htx hk hc => ?_, fun h => if_neg h⟩
  have hk15 : 15 = s.k := (BitVec.eq_of_toNat_eq hk).symm
  rw [execSeqLast_staged hq htx hk hc, hk15]
  rfl

/-- Settles O33: the fault's entry is the whole next state. -/
theorem faultStep : Obligations.FaultStep := fun _ => ⟨fun _ => execSeqFault_staged, fun h => if_neg h⟩

/-- Settles O34: the bound on the timer decides between the two branches in `ResetDelay`. -/
theorem gapDoneStep : Obligations.GapDoneStep := by
  refine fun s => ⟨fun us hq hgapt hus => execSeqGapDone_elapsed hq (gapElapsed_iff.2 ⟨us, hgapt, hus⟩),
    fun us hgapt hus => if_neg fun h => ?_, fun hq => if_neg fun h => hq h.1⟩
  obtain ⟨us', hgapt', hus'⟩ := gapElapsed_iff.1 h.2
  obtain rfl := Option.some.inj (hgapt.symm.trans hgapt')
  omega

end Sys2Proof.Machine
end

section
/-! SUPPORT. Render passes (spec/43_render_loop.md R174, R175): how one ends whatever came between, and one that nobody
interrupts, move by move. -/

namespace Sys2Proof.Machine

/-! ### The end of a pass, whatever came between -/

/-- Out of `ResetDelay` into `WaitingForChange` there is one way but reset: `SEQ_GAP_DONE`. -/
theorem step_closes_pass {s t : State} (hstep : step s = .next t) (hm : isReset (nextMove s) = false)
    (hs : s.seqState = .resetDelay) (ht : t.seqState = .waitingForChange) :
    t = leaveResetDelay (logLine [.gap s.cfg.resetDelayUs.toNat] (takeMove s)) := by
  have hmoved : t.seqState ≠ (takeMove s).seqState := by
    rw [takeMove_seqState, hs, ht]
    nofun
  rcases step_sequencer_or_keeps_control hstep hm with ⟨-, i, -, he⟩ | ⟨hkept, -⟩
  · -- of the rows of the table only the last one goes from `ResetDelay` to `WaitingForChange`
    have hrow := controlTransferTable.1 i _ t he
    simp only [takeMove_seqState, hs, ht, reduceCtorEq, and_false, false_and, false_or, true_and] at hrow
    obtain ⟨rfl, -⟩ := hrow
    obtain ⟨-, -, rfl⟩ | rfl := execSeqGapDone_next he
    · rw [takeMove_cfg]
    · exact absurd rfl hmoved
  · exact absurd (hkept.trans (takeMove_seqState s).symm) hmoved

theorem EndsFullPass.last_ok {c : Cfg} {bytes : List Byte} {txlog : List TxEntry} {linelog tail : List LineItem}
    (h : EndsFullPass c bytes txlog linelog tail) : ∃ e, txlog.getLast? = some e ∧ e.result = .ok := by
  obtain ⟨done, _, -, -, htx, -⟩ := h
  rw [htx, okEntries_succ, ← List.append_assoc, List.getLast?_concat]
  exact ⟨_, rfl, rfl⟩

theorem EndsFaultedPass.last_err {c : Cfg} {bytes : List Byte} {f : Nat} {txlog : List TxEntry} {linelog tail : List LineItem}
    (h : EndsFaultedPass c bytes f txlog linelog tail) : ∃ e, txlog.getLast? = some e ∧ e.result = .err := by
  obtain ⟨done, _, _, _, -, -, htx, -⟩ := h
  rw [htx, List.getLast?_concat]
  exact ⟨_, rfl, rfl⟩

/-- What the line is given after a failed pass stands behind it. -/
theorem endsFaultedPass_played {c : Cfg} {bytes : List Byte} {f : Nat} {txlog : List TxEntry} {linelog : List LineItem}
    (h : EndsFaultedPass c bytes f txlog linelog []) (tail : List LineItem) :
    EndsFaultedPass c bytes f txlog (linelog ++ tail) tail := by
  obtain ⟨done, before, n, cut, hdone, hbefore, htx, hline⟩ := h
  exact ⟨done, before, n, cut, hdone, hbefore, htx, by rw [hline, List.append_nil]⟩

/-! ### Single moves of an uninterrupted pass: the `STATE` and the condition select the step, and it is enabled -/

section moves

variable {s : State} {rest : List Move} {c : List Word}

theorem step_wake (hs : s.sched = .sequencer :: rest) (hh : s.held = false) (hq : s.seqState = .waitingForChange)
    (hp : s.pending = true) :
    step s = .next { s with pending := false, seqState := .snapshotting, sched := rest } :=
  (step_sequencer hs hh (by simp [decodeSeq, State.seqView, hq, hp])).trans (execSeqWake_pending hq hp)

theorem step_snapshot (hs : s.sched = .sequencer :: rest) (hh : s.held = false) (hq : s.seqState = .snapshotting)
    (hg : s.guard = none) :
    step s = .next { copySnapshot s with guard := none, seqState := .encoding, sched := rest } :=
  (step_sequencer hs hh (by simp [decodeSeq, State.seqView, hq, hg])).trans (execSeqSnapshot_free hq hg)

theorem step_encode {bytes : List Byte} (hs : s.sched = .sequencer :: rest) (hh : s.held = false) (hq : s.seqState = .encoding)
    (hsnap : s.snapBytes = some bytes) :
    step s = .next { stageFrame bytes s with seqState := .transmitting, k := 0, sched := rest } :=
  (step_sequencer hs hh (by simp [decodeSeq, State.seqView, hq])).trans (execSeqEncode_written hq hsnap)

theorem step_submit (hs : s.sched = .sequencer :: rest) (hh : s.held = false) (hq : s.seqState = .transmitting)
    (htx : s.txs = .idle) (hc : s.chunk s.k.toNat = some c) : step s = .next (acceptChunk c { s with sched := rest }) :=
  (step_sequencer hs hh (by simp [decodeSeq, State.seqView, hq, htx])).trans (execSeqSubmit_staged hq htx hc)

theorem step_nextChunk (hs : s.sched = .sequencer :: rest) (hh : s.held = false) (hq : s.seqState = .transmitting)
    (htx : s.txs = .doneOk) (hk : s.k.toNat < 15) (hc : s.chunk s.k.toNat = some c) :
    step s = .next { setTxs .idle (logSubmission c .ok s) with k := s.k + 1, sched := rest } :=
  (step_sequencer hs hh (by simp [decodeSeq, State.seqView, hq, htx, hk])).trans (execSeqNext_staged hq htx hk hc)

theorem step_lastChunk (hs : s.sched = .sequencer :: rest) (hh : s.held = false) (hq : s.seqState = .transmitting)
    (htx : s.txs = .doneOk) (hk : s.k.toNat = 15) (hc : s.chunk 15 = some c) :
    step s = .next (enterResetDelay (setTxs .idle (logSubmission c .ok { s with sched := rest }))) :=
  (step_sequencer hs hh (by simp [decodeSeq, State.seqView, hq, htx, hk])).trans (execSeqLast_staged hq htx hk hc)

theorem step_fault (hs : s.sched = .sequencer :: rest) (hh : s.held = false) (hq : s.seqState = .transmitting)
    (htx : s.txs = .doneErr) (hc : s.chunk s.k.toNat = some c) :
    step s =
      .next (enterResetDelay (setTxs .idle (raiseTransmitFault s.k (logSubmission c .err { s with sched := rest })))) :=
  (step_sequencer hs hh (by simp [decodeSeq, State.seqView, hq, htx])).trans (execSeqFault_staged hq htx hc)

theorem step_gapDone (hs : s.sched = .sequencer :: rest) (hh : s.held = false) (hq : s.seqState = .resetDelay)
    (hgap : s.gapElapsed = true) :
    step s = .next (leaveResetDelay (logLine [.gap s.cfg.resetDelayUs.toNat] { s with sched := rest })) :=
  (step_sequencer hs hh (by simp [decodeSeq, State.seqView, hq, hgap])).trans (execSeqGapDone_elapsed hq hgap)

theorem step_txOk {segs cut : Nat} (hs : s.sched = .transmitter 0 segs cut :: rest) (hh : s.held = false)
    (htx : s.txs = .busy) (hc : s.txChunk = some c) :
    step s = .next (setTxs .doneOk (endPlay (logLine (wave c) { s with sched := rest, drawSegs := segs, drawCut := cut }))) :=
  (step_transmitter hs hh (by simp [decodeCompletion, htx])).trans (execTxOk_playing htx hc)

/-- A failure before the line has been driven puts on it just the segments drawn (R196; log entry 14). -/
theorem step_txErr {segs cut : Nat} (hs : s.sched = .transmitter 1 segs cut :: rest) (hh : s.held = false)
    (htx : s.txs = .busy) (hplay : s.play = 0) (hc : s.txChunk = some c) :
    step s = .next (setTxs .doneErr (endPlay (logLine (failedWave segs cut (wave c))
      { s with sched := rest, drawSegs := segs, drawCut := cut }))) := by
  have hout : segmentsOut { s with sched := rest, drawSegs := segs, drawCut := cut } = segs := by
    simp only [segmentsOut, hplay, Nat.zero_max]
  have hexec := execTxErr_playing (s := { s with sched := rest, drawSegs := segs, drawCut := cut }) htx hc
  rw [hout] at hexec
  exact (step_transmitter hs hh (by simp [decodeCompletion, htx])).trans hexec

end moves

/-! ### An uninterrupted pass -/

/-- The pass of the frame of `s` stands at chunk `n` in `t`: chunks `0 .. n-1` have been sent, `Ok`; chunk `n` is in the
handshake state `v` and has put `items` on the line; nobody else has moved. -/
structure MidPass (s : State) (n : Nat) (v : Txs) (items : List LineItem) (t : State) : Prop where
  released : t.held = false
  transmitting : t.seqState = .transmitting
  txs : t.txs = v
  k : t.k.toNat = n
  cfg : t.cfg = s.cfg
  staged : ∀ p, p < 16 → t.chunk p = some (encodeChunk s.cfg s.frameBytes p)
  txlog : t.txlog = s.txlog ++ okEntries s.cfg s.frameBytes n
  linelog : t.linelog = s.linelog ++ okWaves s.cfg s.frameBytes n ++ items
  pending : t.pending = false
  guard : t.guard = none
  fault : t.fault = s.fault
  faultlog : t.faultlog = s.faultlog
  frame : t.frame = s.frame
  ports : t.ports = s.ports

/-- Wake, snapshot, encode: three moves to the first chunk. -/
theorem run_startPass {s : State} {rest : List Move} (h : AboutToWake s)
    (hs : s.sched = .sequencer :: .sequencer :: .sequencer :: rest) :
    ∃ t, runSteps 3 s = .next t ∧ t.sched = rest ∧ MidPass s 0 .idle [] t := by
  obtain ⟨hheld, hq, hp, hg, htx⟩ := h
  have hwake := step_wake hs hheld hq hp
  have hsnapshot := step_snapshot
    (s := { s with pending := false, seqState := .snapshotting, sched := .sequencer :: .sequencer :: rest }) rfl hheld rfl hg
  refine ⟨_, (runSteps_succ hwake).trans ((runSteps_succ hsnapshot).trans
    (runSteps_one (step_encode rfl hheld rfl (snapBytes_copySnapshot s)))), rfl, ?_⟩
  exact ⟨hheld, rfl, htx, rfl, rfl, chunk_stageFrame s.frameBytes (copySnapshot s), by simp, by simp, rfl, rfl, rfl, rfl, rfl,
    rfl⟩

section submission

variable {s t : State} {n : Nat} {v : Txs} {items : List LineItem} {rest : List Move}

/-- The chunk that `ST[K]` holds in the middle of a pass. -/
theorem MidPass.chunk (h : MidPass s n v items t) : t.chunk t.k.toNat = some (encodeChunk s.cfg s.frameBytes n) :=
  h.k ▸ h.staged _ t.k.isLt

/-- `K` is the chunk's number. -/
theorem MidPass.k_eq (h : MidPass s n v items t) : t.k = BitVec.ofNat 4 n := by
  rw [← h.k, BitVec.ofNat_toNat, BitVec.setWidth_eq]

/-- A pass goes on with any step that leaves all but the transmitter's side alone. -/
theorem MidPass.transmitter {u : State} {v' : Txs} {items' : List LineItem} (h : MidPass s n v [] t)
    (hu : u = { t with txs := v', txbuf := u.txbuf, play := u.play, line := u.line, linelog := t.linelog ++ items',
                       offer := u.offer, sched := u.sched, drawSegs := u.drawSegs, drawCut := u.drawCut }) :
    MidPass s n v' items' u := by
  rw [hu]
  exact ⟨h.released, h.transmitting, rfl, h.k, h.cfg, h.staged, h.txlog, by simp [h.linelog], h.pending, h.guard, h.fault,
    h.faultlog, h.frame, h.ports⟩

theorem MidPass.step_submit (h : MidPass s n .idle [] t) (hs : t.sched = .sequencer :: rest) :
    ∃ u, step t = .next u ∧ u.sched = rest ∧ u.play = 0 ∧ u.txChunk = some (encodeChunk s.cfg s.frameBytes n) ∧
      MidPass s n .busy [] u :=
  ⟨_, Machine.step_submit hs h.released h.transmitting h.txs h.chunk, rfl, rfl,
    txChunk_acceptChunk _ _ (encodeChunk_length ..), h.transmitter (by rw [List.append_nil]; rfl)⟩

/-- Two moves submit the chunk and complete it, `Ok`. -/
theorem MidPass.run_ok {segs cut : Nat} (h : MidPass s n .idle [] t)
    (hs : t.sched = .sequencer :: .transmitter 0 segs cut :: rest) :
    ∃ u, runSteps 2 t = .next u ∧ u.sched = rest ∧ MidPass s n .doneOk (wave (encodeChunk s.cfg s.frameBytes n)) u := by
  obtain ⟨u, hrun, hsu, -, hbuf, hu⟩ := h.step_submit hs
  exact ⟨_, (runSteps_succ hrun).trans (runSteps_one (step_txOk hsu hu.released hu.txs hbuf)), rfl, hu.transmitter rfl⟩

/-- Two moves submit the chunk and complete it, `Err`. -/
theorem MidPass.run_err {segs cut : Nat} (h : MidPass s n .idle [] t)
    (hs : t.sched = .sequencer :: .transmitter 1 segs cut :: rest) :
    ∃ u, runSteps 2 t = .next u ∧ u.sched = rest ∧
      MidPass s n .doneErr (failedWave segs cut (wave (encodeChunk s.cfg s.frameBytes n))) u := by
  obtain ⟨u, hrun, hsu, hplay, hbuf, hu⟩ := h.step_submit hs
  exact ⟨_, (runSteps_succ hrun).trans (runSteps_one (step_txErr hsu hu.released hu.txs hplay hbuf)), rfl, hu.transmitter rfl⟩

/-- A chunk below 15 that completes `Ok` takes the pass to the next one. -/
theorem MidPass.run_chunk (h : MidPass s n .idle [] t) (hn : n < 15) (hs : t.sched = submissionMoves 0 0 0 ++ rest) :
    ∃ u, runSteps 3 t = .next u ∧ u.sched = rest ∧ MidPass s (n + 1) .idle [] u := by
  obtain ⟨u, hrun, hsu, hu⟩ := h.run_ok hs
  have hk : u.k.toNat < 15 := hu.k ▸ hn
  refine ⟨_, (runSteps_add hrun).trans
    (runSteps_one (step_nextChunk hsu hu.released hu.transmitting hu.txs hk hu.chunk)), rfl, ?_⟩
  exact ⟨hu.released, hu.transmitting, rfl, (toNat_k_succ hk).trans (congrArg (· + 1) hu.k), hu.cfg, hu.staged,
    by simp [hu.txlog, hu.k_eq, okEntries_succ], by simp [hu.linelog, okWaves_succ], hu.pending, hu.guard, hu.fault,
    hu.faultlog, hu.frame, hu.ports⟩

/-- `m` chunks that complete `Ok`, with at least one more to come. -/
theorem MidPass.run_chunks {m : Nat} (h : MidPass s n .idle [] t) (hn : n + m ≤ 15)
    (hs : t.sched = (List.replicate m (submissionMoves 0 0 0)).flatten ++ rest) :
    ∃ u, runSteps (3 * m) t = .next u ∧ u.sched = rest ∧ MidPass s (n + m) .idle [] u := by
  induction m generalizing n t with
  | zero => exact ⟨t, rfl, hs, h⟩
  | succ m ih =>
    rw [List.replicate_succ, List.flatten_cons, List.append_assoc] at hs
    obtain ⟨u, hrun, hsu, hu⟩ := h.run_chunk (by omega) hs
    obtain ⟨w, hrun', hsw, hw⟩ := ih hu (by omega) hsu
    refine ⟨w, ?_, hsw, by rwa [Nat.add_right_comm] at hw⟩
    rw [Nat.mul_succ, Nat.add_comm, runSteps_add hrun, hrun']

end submission

/-- A pass up to its last submission. -/
theorem run_toLastSubmission {s : State} {f us : Nat} {last rest : List Move} (h : AboutToWake s) (hf : f ≤ 15)
    (hs : s.sched = passMoves f last us ++ rest) :
    ∃ t, runSteps (3 + 3 * f) s = .next t ∧ t.sched = last ++ .elapse us :: .sequencer :: rest ∧ MidPass s f .idle [] t := by
  simp only [passMoves, List.append_assoc, List.cons_append, List.nil_append] at hs
  obtain ⟨t, hrun, hst, ht⟩ := run_startPass h hs
  obtain ⟨u, hrun', hsu, hu⟩ := ht.run_chunks (by omega) hst
  exact ⟨u, (runSteps_add hrun).trans hrun', hsu, by rwa [Nat.zero_add] at hu⟩

/-- A full pass is fifteen chunks and the last one. -/
theorem passMoves_succ (n us : Nat) : passMoves (n + 1) [] us = passMoves n (submissionMoves 0 0 0) us := by
  simp [passMoves, List.replicate_succ']

/-- A step into `ResetDelay`, the wait for the gap and its end: three moves close a pass. -/
theorem run_close {s t : State} {rest : List Move} (hstep : step s = .next (enterResetDelay t))
    (hs : t.sched = .elapse t.cfg.resetDelayUs.toNat :: .sequencer :: rest) (hh : t.held = false) :
    runSteps 3 s = .next (leaveResetDelay (logLine [.gap t.cfg.resetDelayUs.toNat] { t with sched := rest })) := by
  have hgap : (elapseTime t.cfg.resetDelayUs.toNat { enterResetDelay t with sched := .sequencer :: rest }).gapElapsed = true :=
    gapElapsed_iff.2 ⟨0 + t.cfg.resetDelayUs.toNat, rfl, by simp⟩
  have helapse := step_elapse (s := enterResetDelay t) hs hh
  exact (runSteps_succ hstep).trans ((runSteps_succ helapse).trans (runSteps_one (step_gapDone rfl hh rfl hgap)))

end Sys2Proof.Machine
end

section
/-! PROOFS. The laws of whole render passes (spec/43_render_loop.md R174, R175). -/

namespace Sys2Proof.Machine

/-- Settles O58: the invariant says how a pass that closes has ended, and its last entry that it did not fail; the uninterrupted
pass is fifteen chunks, the last one and the gap. -/
theorem fullPassLaw : Obligations.FullPassLaw := by
  refine ⟨fun s t h hstep hm hs ht hok => ?_, fun s rest h hs => ?_⟩
  · obtain rfl := step_closes_pass hstep hm hs ht
    obtain ⟨bytes, hsnap, hlen, ⟨hk, hends⟩ | ⟨-, -, hends⟩⟩ := h.takeMove.pass.closing ((takeMove_seqState s).trans hs)
    · rw [← takeMove_cfg s]
      exact ⟨hk, bytes, hsnap, hlen, passInProgress_played hends _⟩
    · obtain ⟨e, hlast, herr⟩ := hends.last_err
      exact nomatch (hok e hlast).symm.trans herr
  · rw [passMoves_succ] at hs
    obtain ⟨t, hrun, hst, ht⟩ := run_toLastSubmission h le_rfl hs
    obtain ⟨u, hrun', hsu, hu⟩ := ht.run_ok hst
    have hlast := step_lastChunk hsu hu.released hu.transmitting hu.txs hu.k (hu.staged 15 (by decide))
    have hclose := run_close (rest := rest) hlast (by simp [hu.cfg]) hu.released
    refine ⟨_, (runSteps_add hrun).trans ((runSteps_add hrun').trans hclose), ?_⟩
    have hk : u.k = 15 := hu.k_eq
    simp [hu.txlog, hu.linelog, hu.cfg, hu.pending, hu.guard, hu.fault, hu.faultlog, hu.frame, hu.ports, hk,
      okEntries_succ _ _ 15, okWaves_succ _ _ 15]

/-- Settles O59: the invariant says how a pass that closes has ended, its last entry that it failed, and the fault port where; the
uninterrupted pass is `f` chunks, the one that fails and the gap. -/
theorem faultedPassLaw : Obligations.FaultedPassLaw := by
  refine ⟨fun s t e h hstep hm hs ht hlast herr => ?_, fun s rest f segs cut h hf hs => ?_⟩
  · obtain rfl := step_closes_pass hstep hm hs ht
    obtain ⟨bytes, hsnap, hlen, ⟨-, hends⟩ | ⟨hfault, hchunk, hends⟩⟩ :=
      h.takeMove.pass.closing ((takeMove_seqState s).trans hs)
    · obtain ⟨e', hlast', hok⟩ := hends.last_ok
      obtain rfl := Option.some.inj (hlast'.symm.trans hlast)
      exact nomatch hok.symm.trans herr
    · rw [← takeMove_cfg s]
      exact ⟨hfault, hchunk, (h.takeMove.faultPort.latest hfault).trans (congrArg some hchunk), bytes, hsnap, hlen,
        endsFaultedPass_played hends _⟩
  · obtain ⟨t, hrun, hst, ht⟩ := run_toLastSubmission h (Nat.le_of_lt_succ hf) hs
    obtain ⟨u, hrun', hsu, hu⟩ := ht.run_err hst
    have hlast := step_fault hsu hu.released hu.transmitting hu.txs hu.chunk
    have hclose := run_close (rest := rest) hlast (by simp [hu.cfg]) hu.released
    rw [show 3 * f + 8 = 3 + 3 * f + (2 + 3) by omega]
    refine ⟨_, (runSteps_add hrun).trans ((runSteps_add hrun').trans hclose), ?_⟩
    simp [hu.txlog, hu.linelog, hu.cfg, hu.pending, hu.faultlog, hu.frame, hu.k_eq]

end Sys2Proof.Machine
end

section
/-! SUPPORT. Waveforms (spec/44_transmitter.md R194): the pulses of data descriptors and the waveform of an encoded pixel, and the
segments of a failed one, the last of them shortened (R196). -/

namespace Sys2Proof.Machine

/-! ### The pulses of data descriptors -/

/-- The word of a data descriptor: it drives the line high for at least a tick, so it does not end the play, and then low. -/
structure IsPulse (d : Word) : Prop where
  high : (unpackDesc d).highLevel = 1
  low : (unpackDesc d).lowLevel = 0
  lasts : (unpackDesc d).highTicks ≠ 0

theorem isPulse_packDesc_dataDesc {h : Tick} (l : Tick) (hh : 1 ≤ h.toNat) : IsPulse (packDesc (dataDesc h l)) := by
  have hlasts : h ≠ 0 := by
    rintro rfl
    simp at hh
  constructor <;> rw [unpackDesc_packDesc]
  · rfl
  · rfl
  · exact hlasts

/-- `ZERO` and `ONE` of a valid configuration are pulses (R212 (a)). -/
theorem isPulse_of_zero_or_one {c : Cfg} (hc : cfgValid c = true) {d : Word} (hd : d = zeroWord c ∨ d = oneWord c) :
    IsPulse d := by
  simp only [cfgValid, Bool.and_eq_true, decide_eq_true_eq] at hc
  obtain ⟨⟨hzero, -, hone, -⟩, -⟩ := hc
  rcases hd with rfl | rfl
  · exact isPulse_packDesc_dataDesc _ hzero
  · exact isPulse_packDesc_dataDesc _ hone

theorem wave_cons_pulse {d : Word} (h : IsPulse d) (rest : List Word) : wave (d :: rest) =
    .seg 1 (unpackDesc d).highTicks.toNat :: .seg 0 (unpackDesc d).lowTicks.toNat :: wave rest := by
  rw [wave, if_neg fun hidle => h.lasts hidle.1, h.high, h.low]

section pulses

variable {ds : List Word} (hds : ∀ d ∈ ds, IsPulse d)
include hds

theorem wave_pulses_append (rest : List Word) : wave (ds ++ rest) = wave ds ++ wave rest := by
  induction ds with
  | nil => rfl
  | cons d ds ih =>
    obtain ⟨hd, hds⟩ := List.forall_mem_cons.1 hds
    simp only [List.cons_append, wave_cons_pulse hd, ih hds]

/-- `IDLE` ends the play (R87). -/
theorem wave_pulses_idle : wave (ds ++ [0x00000000#32]) = wave ds :=
  (wave_pulses_append hds _).trans (List.append_nil _)

theorem wave_pulses_length : (wave ds).length = 2 * ds.length := by
  induction ds with
  | nil => rfl
  | cons d ds ih =>
    obtain ⟨hd, hds⟩ := List.forall_mem_cons.1 hds
    rw [wave_cons_pulse hd, List.length_cons, List.length_cons, ih hds, List.length_cons]
    omega

/-- Descriptor `j` is played as segments `2j` and `2j + 1`. -/
theorem wave_pulses_getElem? {j : Nat} {d : Word} (hj : ds[j]? = some d) :
    (wave ds)[2 * j]? = some (.seg 1 (unpackDesc d).highTicks.toNat) ∧
      (wave ds)[2 * j + 1]? = some (.seg 0 (unpackDesc d).lowTicks.toNat) := by
  induction ds generalizing j with
  | nil => cases hj
  | cons e ds ih =>
    obtain ⟨he, hds⟩ := List.forall_mem_cons.1 hds
    rw [wave_cons_pulse he]
    cases j with
    | zero =>
      obtain rfl := Option.some.inj hj
      exact ⟨rfl, rfl⟩
    | succ j => exact ih hds hj

end pulses

/-! ### The waveform of an encoded pixel -/

/-- How many of the descriptors are equal to `ONE`. -/
def onesIn (c : Cfg) (ds : List Word) : Nat := (ds.filter fun d => d = oneWord c).length

theorem onesIn_cons_one (c : Cfg) (ds : List Word) : onesIn c (oneWord c :: ds) = onesIn c ds + 1 := by simp [onesIn]

theorem onesIn_cons_other {c : Cfg} {d : Word} (hd : d ≠ oneWord c) (ds : List Word) : onesIn c (d :: ds) = onesIn c ds := by
  simp [onesIn, hd]

theorem onesIn_append_other {c : Cfg} {d : Word} (hd : d ≠ oneWord c) (ds : List Word) :
    onesIn c (ds ++ [d]) = onesIn c ds := by
  simp [onesIn, hd]

theorem onesIn_le_length (c : Cfg) (ds : List Word) : onesIn c ds ≤ ds.length := List.length_filter_le _ ds

/-- Data words last `T1` ticks for each `ONE` and `T0` for each other one (R283). -/
theorem waveTicks_zero_or_one {c : Cfg} (hc : cfgValid c = true) {ds : List Word}
    (hds : ∀ d ∈ ds, d = zeroWord c ∨ d = oneWord c) : waveTicks (wave ds) =
      onesIn c ds * (c.oneHigh.toNat + c.oneLow.toNat) +
        (ds.length - onesIn c ds) * (c.zeroHigh.toNat + c.zeroLow.toNat) := by
  induction ds with
  | nil => simp [wave, waveTicks, onesIn]
  | cons d ds ih =>
    obtain ⟨hd, hds⟩ := List.forall_mem_cons.1 hds
    rw [wave_cons_pulse (isPulse_of_zero_or_one hc hd), waveTicks, waveTicks, ih hds, List.length_cons]
    by_cases hone : d = oneWord c
    · subst hone
      rw [onesIn_cons_one, Nat.add_sub_add_right, Nat.succ_mul]
      simp only [oneWord, unpackDesc_packDesc, dataDesc]
      omega
    · obtain rfl := hd.resolve_right hone
      rw [onesIn_cons_other hone, Nat.sub_add_comm (onesIn_le_length c ds), Nat.succ_mul]
      simp only [zeroWord, unpackDesc_packDesc, dataDesc]
      omega

/-- An encoded pixel is 24 data words and `IDLE` (R147). -/
theorem encodePixel_dataWords (c : Cfg) (q0 q1 q2 : Byte) : ∃ ds : List Word,
    encodePixel c q0 q1 q2 = ds ++ [0x00000000#32] ∧ ds.length = 24 ∧ ∀ d ∈ ds, d = zeroWord c ∨ d = oneWord c := by
  refine ⟨_, encodePixel_eq c q0 q1 q2, by simp, fun d hd => ?_⟩
  simp only [List.mem_append, or_assoc] at hd
  rcases hd with h | h | h <;> exact pulsesOf_zero_or_one h

/-! ### The segments of a failed chunk -/

/-- A waveform's item when it is the last one out (R196). -/
def shortenItem (cut : Nat) : LineItem → LineItem
  | .seg l t => .seg l (if cut = 0 then t else min t cut)
  | .gap us => .gap us

theorem shortenLast_concat (cut : Nat) (items : List LineItem) (i : LineItem) :
    shortenLast cut (items ++ [i]) = items ++ [shortenItem cut i] := by
  induction items with
  | nil => cases i <;> rfl
  | cons j items ih =>
    cases items with
    | nil => simpa [shortenLast] using ih
    | cons k items => simpa [shortenLast] using ih

section shortened

variable (cut : Nat) (items : List LineItem)

@[simp] theorem shortenLast_length : (shortenLast cut items).length = items.length := by
  rcases List.eq_nil_or_concat items with rfl | ⟨front, i, rfl⟩
  · rfl
  · simp [shortenLast_concat]

/-- Only the last item is shortened. -/
theorem shortenLast_getElem? (j : Nat) : (shortenLast cut items)[j]? =
    if j + 1 = items.length then items[j]?.map (shortenItem cut) else items[j]? := by
  rcases List.eq_nil_or_concat items with rfl | ⟨front, i, rfl⟩
  · rfl
  · rw [List.concat_eq_append, shortenLast_concat, List.length_append, List.length_singleton]
    obtain hlt | rfl | hgt := Nat.lt_trichotomy j front.length
    · rw [if_neg (by omega), List.getElem?_append_left hlt, List.getElem?_append_left hlt]
    · simp
    · rw [if_neg (by omega), List.getElem?_eq_none (by simp; omega), List.getElem?_eq_none (by simp; omega)]

theorem failedWave_length (n : Nat) : (failedWave n cut items).length = min n items.length := by
  rw [failedWave, shortenLast_length, List.length_take]

variable {cut items} {n j : Nat}

/-- Before its last item a failed chunk's waveform is the whole one's. -/
theorem failedWave_getElem?_front (hj : j + 1 < (failedWave n cut items).length) :
    (failedWave n cut items)[j]? = items[j]? := by
  rw [failedWave_length] at hj
  rw [failedWave, shortenLast_getElem?, if_neg (by rw [List.length_take]; omega), List.getElem?_take_of_lt (by omega)]

/-- The last item of a failed chunk's waveform is the whole one's, shortened. -/
theorem failedWave_getElem?_last (hj : j + 1 = (failedWave n cut items).length) :
    (failedWave n cut items)[j]? = items[j]?.map (shortenItem cut) := by
  rw [failedWave_length] at hj
  rw [failedWave, shortenLast_getElem?, if_pos (by rw [List.length_take]; omega), List.getElem?_take_of_lt (by omega)]

end shortened

end Sys2Proof.Machine
end

section
/-! SUPPORT. What each step does to the play of the transmitter's chunk, and drive moves case by case (spec/44_transmitter.md
R192, R194, R197). -/

namespace Sys2Proof.Machine

/-! ### The play from step to step -/

/-- The play stands as it was: the line, the position, the buffer, and whether a chunk plays at all. -/
def PlayStands (s t : State) : Prop :=
  t.line = s.line ∧ t.play = s.play ∧ t.txbuf = s.txbuf ∧ (t.txs = .busy ↔ s.txs = .busy)

/-- The line has been driven to no further segment: the play stands, or one begins, or none is in progress any more and the line is
low. -/
def PlayUndriven (s t : State) : Prop :=
  PlayStands s t ∨ (s.txs = .idle ∧ t.txs = .busy) ∨ (t.txs ≠ .busy ∧ t.line = 0)

theorem playUndriven_of_same {s t : State} (hline : t.line = s.line) (hplay : t.play = s.play) (hbuf : t.txbuf = s.txbuf)
    (htx : t.txs = s.txs) : PlayUndriven s t :=
  .inl ⟨hline, hplay, hbuf, by rw [htx]⟩

/-- A report of the transmitter's that is read does not touch the play. -/
theorem playUndriven_of_readReport {s t : State} (hline : t.line = s.line) (hplay : t.play = s.play) (hbuf : t.txbuf = s.txbuf)
    (hs : s.txs ≠ .busy) (ht : t.txs = .idle) : PlayUndriven s t :=
  .inl ⟨hline, hplay, hbuf, iff_of_false (by rw [ht]; nofun) hs⟩

/-- No instruction drives a segment. -/
theorem exec_playUndriven {i : Instr} {s t : State} (he : exec i s = .next t) : PlayUndriven s t := by
  have hsame : PlayUndriven s s := playUndriven_of_same rfl rfl rfl rfl
  cases i with
  | setPixel | fbOpen | fbWrite | fbRead | fbClose =>
    rw [exec_command_frame rfl he]
    exact hsame
  | seqWake => obtain ⟨-, -, rfl⟩ | rfl := execSeqWake_next he <;> exact hsame
  | seqSnapshot => obtain ⟨-, -, rfl⟩ | rfl := execSeqSnapshot_next he <;> exact hsame
  | seqEncode => obtain ⟨_, -, -, rfl⟩ | rfl := execSeqEncode_next he <;> exact hsame
  | seqGapDone => obtain ⟨-, -, rfl⟩ | rfl := execSeqGapDone_next he <;> exact hsame
  | bit2pulseZero | bit2pulseOne => cases he; exact hsame
  | seqSubmit =>
    obtain ⟨_, -, htx, -, rfl⟩ | rfl := execSeqSubmit_next he
    · exact .inr (.inl ⟨htx, rfl⟩)
    · exact hsame
  | txAccept =>
    obtain ⟨_, htx, -, rfl⟩ | rfl := execTxAccept_next he
    · exact .inr (.inl ⟨htx, rfl⟩)
    · exact hsame
  | seqNext =>
    obtain ⟨_, -, htx, -, -, rfl⟩ | rfl := execSeqNext_next he
    · exact playUndriven_of_readReport rfl rfl rfl (by rw [htx]; nofun) rfl
    · exact hsame
  | seqLast =>
    obtain ⟨_, -, htx, -, -, rfl⟩ | rfl := execSeqLast_next he
    · exact playUndriven_of_readReport rfl rfl rfl (by rw [htx]; nofun) rfl
    · exact hsame
  | seqFault =>
    obtain ⟨_, -, htx, -, rfl⟩ | rfl := execSeqFault_next he
    · exact playUndriven_of_readReport rfl rfl rfl (by rw [htx]; nofun) rfl
    · exact hsame
  | txOk =>
    obtain ⟨_, -, -, rfl⟩ | rfl := execTxOk_next he
    · exact .inr (.inr ⟨nofun, rfl⟩)
    · exact hsame
  | txErr =>
    obtain ⟨_, -, -, rfl⟩ | rfl := execTxErr_next he
    · exact .inr (.inr ⟨nofun, rfl⟩)
    · exact hsame

/-- Of all moves only a drive move goes on with a play. -/
theorem step_playUndriven_or_drives {s t : State} (h : step s = .next t) :
    PlayUndriven s t ∨ (nextMove s = .drive ∧ t.txs = .busy) := by
  have htake : PlayUndriven (takeMove s) t → PlayUndriven s t := by
    simp only [PlayUndriven, PlayStands, takeMove_line, takeMove_play, takeMove_txbuf, takeMove_txs, imp_self]
  rcases step_next h with ⟨i, u, hf, he⟩ | hf
  · have hkept := exec_playUndriven he
    rw [fetch_run_frame hf] at hkept
    exact .inl (htake hkept)
  · rcases fetch_quiet hf with ⟨ws, -, rfl⟩ | ⟨-, -, hcase⟩
    · rw [resetBlock_eq]
      exact .inl (.inr (.inr ⟨nofun, rfl⟩))
    · rcases hcase with ⟨_, _, _, -, -, -, rfl⟩ | rfl | ⟨_, _, _, -, rfl⟩ | ⟨hm, hdrive⟩ | ⟨_, -, rfl⟩
      · exact .inl (htake (playUndriven_of_same (by simp) (by simp) (by simp) (by simp)))
      · exact .inl (htake (playUndriven_of_same rfl rfl rfl rfl))
      · exact .inl (htake (playUndriven_of_same rfl rfl rfl rfl))
      · obtain ⟨_, htx, -, rfl⟩ | ⟨-, rfl⟩ := driveLine_next hdrive
        · exact .inr ⟨hm, htx⟩
        · exact .inl (htake (playUndriven_of_same rfl rfl rfl rfl))
      · exact .inl (htake (playUndriven_of_same rfl rfl rfl rfl))

/-! ### Drive moves -/

theorem playSegment_within {items : List LineItem} {s : State} {l : BitVec 1} {ticks : Nat}
    (h : items[s.play]? = some (.seg l ticks)) : playSegment items s = { s with line := l, play := s.play + 1 } := by
  obtain ⟨hlt, -⟩ := List.getElem?_eq_some_iff.1 h
  rw [playSegment, levelAt, h, Nat.min_eq_left hlt]
  rfl

theorem playSegment_past {items : List LineItem} {s : State} (h : s.play = items.length) :
    playSegment items s = { s with line := 0 } := by
  rw [playSegment, levelAt_end h.ge, Nat.min_eq_right (by omega), ← h]
  rfl

section drive

variable {s : State} {ds : List Word} (htx : s.txs = .busy) (hc : s.txChunk = some ds)
include htx hc

theorem driveLine_playing : driveLine s = .next (playSegment (wave ds) s) := by
  rw [driveLine, if_pos htx, hc]

theorem driveLine_within {l : BitVec 1} {ticks : Nat} (hseg : (wave ds)[s.play]? = some (.seg l ticks)) :
    driveLine s = .next { s with line := l, play := s.play + 1 } := by
  rw [driveLine_playing htx hc, playSegment_within hseg]

theorem driveLine_past (hend : s.play = (wave ds).length) : driveLine s = .next { s with line := 0 } := by
  rw [driveLine_playing htx hc, playSegment_past hend]

variable {rest : List Move} (hh : s.held = false) (hs : s.sched = .drive :: rest)
include hh hs

theorem step_drive_within {l : BitVec 1} {ticks : Nat} (hseg : (wave ds)[s.play]? = some (.seg l ticks)) :
    step s = .next { s with sched := rest, line := l, play := s.play + 1 } :=
  (step_drive hs hh).trans (driveLine_within (s := { s with sched := rest }) htx hc hseg)

theorem step_drive_past (hend : s.play = (wave ds).length) : step s = .next { s with sched := rest, line := 0 } :=
  (step_drive hs hh).trans (driveLine_past (s := { s with sched := rest }) htx hc hend)

end drive

/-! ### A play in a state of the invariant -/

/-- While a chunk plays the block is out of reset. -/
theorem StateInv.released_of_busy {s : State} (h : StateInv s) (htx : s.txs = .busy) : s.held = false := by
  rw [← Bool.not_eq_true]
  intro hheld
  obtain ⟨-, -, hidle, -⟩ := h.heldOk.waits hheld
  rw [htx] at hidle
  cases hidle

/-- The chunk that plays is an encoded one. -/
theorem StateInv.txChunk_of_busy {s : State} (h : StateInv s) (htx : s.txs = .busy) :
    ∃ bytes, s.txChunk = some (encodeChunk s.cfg bytes s.k.toNat) := by
  have hne : s.txs ≠ .idle := by rw [htx]; nofun
  obtain ⟨bytes, -, -, hchunks, -⟩ := h.pass.transmitting (h.link.inPass hne)
  exact ⟨bytes, (h.link.buffered hne).trans (hchunks _ s.k.isLt)⟩

end Sys2Proof.Machine
end

section
/-! PROOFS. The statements about the transmitter (spec/44_transmitter.md). -/

namespace Sys2Proof.Machine

/-- Settles O16: an encoded pixel is 24 pulses and `IDLE`, and every pulse is two segments. -/
theorem chunkWaveform : Obligations.ChunkWaveform := by
  intro c q0 q1 q2 hc
  obtain ⟨ds, heq, hlen, hds⟩ := encodePixel_dataWords c q0 q1 q2
  have hpulse : ∀ d ∈ ds, IsPulse d := fun d hd => isPulse_of_zero_or_one hc (hds d hd)
  have hidle : 0x00000000#32 ≠ oneWord c := fun h => (isPulse_of_zero_or_one hc (.inr h)).lasts (by decide)
  have hones : onesIn c (ds ++ [0x00000000#32]) = onesIn c ds := onesIn_append_other hidle ds
  rw [heq, wave_pulses_idle hpulse]
  refine ⟨by rw [wave_pulses_length hpulse, hlen], fun j hj d hd => ?_, onesIn c ds, hlen ▸ onesIn_le_length c ds, hones, ?_⟩
  · rw [List.getElem?_append_left (hlen ▸ hj)] at hd
    exact wave_pulses_getElem? hpulse hd
  · rw [waveTicks_zero_or_one hc hds, hlen]

theorem wave_encodeChunk_length {c : Cfg} (hc : cfgValid c = true) (bytes : List Byte) (p : Nat) :
    (wave (encodeChunk c bytes p)).length = 48 :=
  (chunkWaveform c _ _ _ hc).1

/-- The segments of an encoded chunk go high and low in turn. -/
theorem wave_encodeChunk_getElem? {c : Cfg} (hc : cfgValid c = true) (bytes : List Byte) (p : Nat) {j : Nat} (hj : j < 48) :
    ∃ ticks, (wave (encodeChunk c bytes p))[j]? = some (.seg (if j % 2 = 0 then 1 else 0) ticks) := by
  obtain ⟨-, hsegments, -⟩ := chunkWaveform c _ _ _ hc
  have hlt : j / 2 < (encodeChunk c bytes p).length := by rw [encodeChunk_length]; omega
  obtain ⟨hhigh, hlow⟩ := hsegments (j / 2) (by omega) _ (List.getElem?_eq_getElem hlt)
  split
  · exact ⟨_, (congrArg _ (by omega)).trans hhigh⟩
  · exact ⟨_, (congrArg _ (by omega)).trans hlow⟩

/-- The last segment of an encoded chunk is low. -/
theorem lineAfter_wave_encodeChunk {c : Cfg} (hc : cfgValid c = true) (bytes : List Byte) (p : Nat) :
    lineAfter (wave (encodeChunk c bytes p)) 48 = 0 := by
  obtain ⟨ticks, hseg⟩ := wave_encodeChunk_getElem? hc bytes p (j := 47) (by decide)
  rw [lineAfter_succ, levelAt, hseg]
  rfl

/-- Settles O35: the enabled branch and the waiting one. -/
theorem completionOkStep : Obligations.CompletionOkStep := fun _ => ⟨fun _ => execTxOk_playing, fun h => if_neg h⟩

/-- Settles O36: `failedWave` is the waveform up to its last item, which it shortens. -/
theorem completionErrStep : Obligations.CompletionErrStep := by
  refine fun s => ⟨fun ds htx hc => ⟨_, execTxErr_playing htx hc, rfl, _, rfl, failedWave_length .., fun j hj => ?_,
    fun j l ticks hj hseg => ⟨if s.drawCut = 0 then ticks else min ticks s.drawCut, ?_, ?_, fun hcut => if_pos hcut⟩⟩,
    fun h => if_neg h⟩
  · exact failedWave_getElem?_front hj
  · rw [failedWave_getElem?_last hj, hseg]
    rfl
  · split
    · exact le_rfl
    · exact Nat.min_le_left ..

/-- Settles O52: the line stands with a transmitter that stays as it is, is low when a play ends, and is free while one goes on. -/
theorem lineIsLowUnlessBusy : Obligations.LineIsLowUnlessBusy := by
  intro s t hs hstep ht
  rcases step_playUndriven_or_drives hstep with (⟨hline, -, -, hbusy⟩ | ⟨-, hbusy⟩ | ⟨-, hlow⟩) | ⟨-, hbusy⟩
  · exact hline.trans (hs (mt hbusy.2 ht))
  · exact absurd hbusy ht
  · exact hlow
  · exact absurd hbusy ht

/-- Settles O60: a drive move case by case; no other move touches a play that goes on; and a play of the invariant is of an encoded
chunk, 48 segments high and low in turn. -/
theorem driveStep : Obligations.DriveStep := by
  refine ⟨fun s rest hh hs => ⟨fun _ _ _ htx hc => step_drive_within htx hc hh hs,
    fun _ htx hc => step_drive_past htx hc hh hs, fun htx => ?_,
    fun htx hnone => (step_drive hs hh).trans (driveLine_unwritten htx hnone)⟩, fun s t hstep _ hs ht hm => ?_,
    fun s rest h htx hs => ?_⟩
  · exact (step_drive hs hh).trans (if_neg htx)
  · rcases step_playUndriven_or_drives hstep with (⟨hline, hplay, hbuf, -⟩ | ⟨hidle, -⟩ | ⟨hne, -⟩) | ⟨hdrive, -⟩
    · exact ⟨hline, hplay, txChunk_eq_of_txbuf hbuf⟩
    · rw [hs] at hidle
      cases hidle
    · exact absurd ht hne
    · exact absurd hdrive hm
  · have hh := h.released_of_busy htx
    have hcfg := h.heldOk.latched hh
    obtain ⟨bytes, hc⟩ := h.txChunk_of_busy htx
    have hlen := wave_encodeChunk_length hcfg bytes s.k.toNat
    obtain ⟨hle, hline⟩ := h.link.playing _ htx hc
    refine ⟨fun hlt => ?_, fun hge => ?_⟩
    · obtain ⟨ticks, hseg⟩ := wave_encodeChunk_getElem? hcfg bytes s.k.toNat hlt
      exact step_drive_within htx hc hh hs hseg
    · have hend : s.play = 48 := by omega
      have hlow : s.line = 0 := by
        rcases hline with hline | ⟨-, hline⟩
        · rw [hline, hend, lineAfter_wave_encodeChunk hcfg]
        · exact hline
      refine ⟨hend, hlow, ?_⟩
      rw [step_drive_past htx hc hh hs (hend.trans hlen.symm), ← hlow]

end Sys2Proof.Machine
end

section
/-! SUPPORT. The configuration words clause by clause (spec/45_configuration.md R211, R212), and what keeps the control registers
and the block in reset (R213, R214). -/

namespace Sys2Proof.Machine

/-! ### The words -/

theorem pulseWordClear_iff (w : Word) : pulseWordClear w = true ↔ w.getLsbD 15 = false ∧ w.getLsbD 31 = false := by
  simp [pulseWordClear]

/-- A clear pulse word with bit 15 set is the data-bit descriptor of its two durations. -/
theorem unpackDesc_or_highLevel {w : Word} (h : pulseWordClear w = true) :
    unpackDesc (w ||| 0x8000#32) = dataDesc (w.extractLsb' 0 15) (w.extractLsb' 16 15) := by
  obtain ⟨-, h31⟩ := (pulseWordClear_iff w).1 h
  have hmask : ∀ j < 32, j ≠ 15 → (0x8000#32).getLsbD j = false := by decide
  simp only [unpackDesc, dataDesc, Desc.mk.injEq]
  refine ⟨?_, ?_, ?_, ?_⟩ <;> ext j hj
  · simp [hmask j (by omega) (by omega)]
  · obtain rfl : j = 0 := by omega
    simp
  · simp [hmask (16 + j) (by omega) (by omega)]
  · obtain rfl : j = 0 := by omega
    simpa using h31

theorem packDesc_of_pulseWordClear {w : Word} (h : pulseWordClear w = true) :
    packDesc (dataDesc (w.extractLsb' 0 15) (w.extractLsb' 16 15)) = w ||| 0x8000#32 := by
  rw [← unpackDesc_or_highLevel h, packDesc_unpackDesc]

theorem cfgWordsValid_iff (w : CfgWords) : cfgWordsValid w = true ↔
    cfgValid (unpackCfg w) = true ∧ pulseWordClear w.word0 = true ∧ pulseWordClear w.word1 = true := by
  simp only [cfgWordsValid, Bool.and_eq_true]

theorem cfgValid_iff (c : Cfg) : cfgValid c = true ↔
    (1 ≤ c.zeroHigh.toNat ∧ 1 ≤ c.zeroLow.toNat ∧ 1 ≤ c.oneHigh.toNat ∧ 1 ≤ c.oneLow.toNat) ∧
      corrValid c.corrRed = true ∧ corrValid c.corrGreen = true ∧ corrValid c.corrBlue = true := by
  simp only [cfgValid, Bool.and_eq_true, decide_eq_true_eq]

/-- The upper bound of R212 (a) is the width of a tick count. -/
theorem tick_le (d : Tick) : d.toNat ≤ 32767 := Nat.le_of_lt_succ d.isLt

/-! ### The control registers -/

theorem exec_sequencer_nReq {i : Instr} {s t : State} (hi : isSequencerStep i = true) (he : exec i s = .next t) :
    t.nReq = s.nReq := by
  cases i with
  | seqWake => obtain ⟨-, -, rfl⟩ | rfl := execSeqWake_next he <;> rfl
  | seqSnapshot => obtain ⟨-, -, rfl⟩ | rfl := execSeqSnapshot_next he <;> rfl
  | seqEncode => obtain ⟨_, -, -, rfl⟩ | rfl := execSeqEncode_next he <;> rfl
  | seqSubmit => obtain ⟨_, -, -, -, rfl⟩ | rfl := execSeqSubmit_next he <;> rfl
  | seqNext => obtain ⟨_, -, -, -, -, rfl⟩ | rfl := execSeqNext_next he <;> rfl
  | seqLast => obtain ⟨_, -, -, -, -, rfl⟩ | rfl := execSeqLast_next he <;> rfl
  | seqFault => obtain ⟨_, -, -, -, rfl⟩ | rfl := execSeqFault_next he <;> rfl
  | seqGapDone => obtain ⟨-, -, rfl⟩ | rfl := execSeqGapDone_next he <;> rfl
  | setPixel | fbOpen | fbWrite | fbRead | fbClose | txAccept | txOk | txErr | bit2pulseZero | bit2pulseOne => cases hi

/-- No instruction writes a control register or the number of requesters. -/
theorem exec_registers {i : Instr} {s t : State} (he : exec i s = .next t) : t.cfg = s.cfg ∧ t.nReq = s.nReq := by
  cases hc : isCommand i with
  | true =>
    rw [exec_command_frame hc he]
    exact ⟨rfl, rfl⟩
  | false =>
    cases hq : isSequencerStep i with
    | true =>
      obtain ⟨-, -, -, -, hcfg, -⟩ := exec_sequencer_frame hq he
      exact ⟨hcfg, exec_sequencer_nReq hq he⟩
    | false =>
      rw [exec_transmitter_frame hc hq he]
      exact ⟨rfl, rfl⟩

/-! ### The block held in reset -/

/-- A held block answers reset alone (R229). -/
theorem fetchMove_held {m : Move} {s : State} (hh : s.held = true) (hm : isReset m = false) :
    fetchMove m s = .refuse .configInvalid := by
  unfold fetchMove
  rw [if_pos hh]
  cases m with
  | reset => cases hm
  | requester | sequencer | txAccept | transmitter | drive | encoder | elapse => rfl

end Sys2Proof.Machine
end

section
/-! PROOFS. The statements about the configuration (spec/45_configuration.md). -/

namespace Sys2Proof.Machine

/-- Settles O9: both pulse words of a valid configuration are clear. -/
theorem configurationWordsPackPulses : Obligations.ConfigurationWordsPackPulses := by
  intro w hw
  obtain ⟨-, hzero, hone⟩ := (cfgWordsValid_iff w).1 hw
  exact ⟨packDesc_of_pulseWordClear hzero, packDesc_of_pulseWordClear hone⟩

/-- Settles O10: a multiplier by its value and by its bit pattern, then the words clause by clause. -/
theorem configurationValidity : Obligations.ConfigurationValidity := by
  refine ⟨corrValid_iff_val32, fun w => decide_eq_true_iff, fun w => ?_⟩
  simp only [cfgWordsValid_iff, cfgValid_iff, pulseWordClear_iff, unpackCfg, ← corrValid_iff_val32, forall_eq_or_imp,
    forall_eq, tick_le, and_true, and_assoc]
  tauto

/-- Settles O51: a move hands the registers on as they were, and no instruction writes them. -/
theorem configurationIsReadOnly : Obligations.ConfigurationIsReadOnly := by
  intro s t hstep hm
  rw [← takeMove_cfg s, ← takeMove_nReq s]
  rcases step_next hstep with ⟨i, u, hf, he⟩ | hf
  · have hkept := exec_registers he
    rwa [fetch_run_frame hf] at hkept
  · rw [fetch_quiet_frame hf hm]
    exact ⟨rfl, rfl⟩

/-- Settles O42: reset with invalid words gives the reset values and holds the block, and a held block refuses other moves. -/
theorem invalidConfigurationHoldsReset : Obligations.InvalidConfigurationHoldsReset := by
  refine ⟨fun s words rest hs hinvalid => ⟨_, step_reset hs, ?_⟩, fun s m rest hh hs hm => ?_⟩
  · rw [resetBlock_eq, hinvalid]
    exact ⟨rfl, rfl, rfl, rfl, rfl, rfl⟩
  · rw [step, nextMove_cons hs, fetchMove_held ((takeMove_held s).trans hh) hm]
    rfl

end Sys2Proof.Machine
end

section
/-! SUPPORT. What a step does to the fault port, to the transmitter's handshake and to the ports of other requesters
(spec/60_exceptions.md R227, R238, R240). -/

namespace Sys2Proof.Machine

/-! ### Which agent a step is of -/

/-- A step runs an instruction of the sequencer's on the sequencer's move, or another agent's instruction, or none. -/
theorem step_sequencer_or_other {s t : State} (h : step s = .next t) :
    (nextMove s = .sequencer ∧ ∃ i, isSequencerStep i = true ∧ exec i (takeMove s) = .next t) ∨
      (∃ i u, isSequencerStep i = false ∧ fetchMove (nextMove s) (takeMove s) = .run i u ∧ exec i u = .next t) ∨
      fetchMove (nextMove s) (takeMove s) = .quiet t := by
  rcases step_next h with ⟨i, u, hf, he⟩ | hf
  · cases hi : isSequencerStep i with
    | true => exact .inl ⟨fetch_run_sequencer hf hi, i, hi, fetch_run_sequencer_state hf hi ▸ he⟩
    | false => exact .inr (.inl ⟨i, u, hi, hf, he⟩)
  · exact .inr (.inr hf)

/-- A command answers or marks its issuer's port; every other port is as it was (R110). -/
theorem exec_command_other_port {i : Instr} {s t : State} {r : Nat} (hi : isCommand i = true) (he : exec i s = .next t)
    (hr : r ≠ s.me) : t.port r = s.port r := by
  cases i with
  | setPixel => obtain ⟨-, rfl⟩ | ⟨-, -, rfl⟩ | ⟨-, -, -, rfl⟩ | ⟨-, -, -, rfl⟩ := execSetPixel_next he <;> simp [hr]
  | fbOpen => obtain ⟨-, -, rfl⟩ | ⟨-, rfl⟩ := execFbOpen_next he <;> simp [hr]
  | fbWrite => obtain ⟨-, rfl⟩ | ⟨-, -, rfl⟩ | ⟨-, -, -, rfl⟩ | ⟨-, -, -, rfl⟩ := execFbWrite_next he <;> simp [hr]
  | fbRead => obtain ⟨-, rfl⟩ | ⟨-, -, rfl⟩ | ⟨-, -, -, rfl⟩ | ⟨-, -, -, rfl⟩ := execFbRead_next he <;> simp [hr]
  | fbClose => obtain ⟨-, rfl⟩ | ⟨-, -, rfl⟩ | ⟨-, -, rfl⟩ := execFbClose_next he <;> simp [hr]
  | seqWake | seqSnapshot | seqEncode | seqSubmit | seqNext | seqLast | seqFault | seqGapDone | txAccept | txOk | txErr
  | bit2pulseZero | bit2pulseOne => cases hi

/-! ### The fault port -/

/-- `FAULT`, `FAULT_CHUNK` and `FAULTLOG` as they were. -/
def FaultPortKept (s t : State) : Prop :=
  t.faultlog = s.faultlog ∧ t.fault = s.fault ∧ t.faultChunk = s.faultChunk

/-- The entry of `TransmitFault(k)`, as the fault port shows it (R228). -/
def FaultEntered (k : BitVec 4) (s t : State) : Prop :=
  t.faultlog = s.faultlog ++ [k] ∧ t.fault = true ∧ t.faultChunk = k

/-- A sequencer step leaves the fault port alone, or it enters a transmission fault of chunk `K` (R168). -/
theorem exec_sequencer_faultPort {i : Instr} {s t : State} (hi : isSequencerStep i = true) (he : exec i s = .next t) :
    FaultPortKept s t ∨ FaultEntered s.k s t := by
  have hsame : FaultPortKept s s := ⟨rfl, rfl, rfl⟩
  cases i with
  | seqFault =>
    obtain ⟨_, -, -, -, rfl⟩ | rfl := execSeqFault_next he
    · exact .inr ⟨rfl, rfl, rfl⟩
    · exact .inl hsame
  | seqWake => obtain ⟨-, -, rfl⟩ | rfl := execSeqWake_next he <;> exact .inl hsame
  | seqSnapshot => obtain ⟨-, -, rfl⟩ | rfl := execSeqSnapshot_next he <;> exact .inl hsame
  | seqEncode => obtain ⟨_, -, -, rfl⟩ | rfl := execSeqEncode_next he <;> exact .inl hsame
  | seqSubmit => obtain ⟨_, -, -, -, rfl⟩ | rfl := execSeqSubmit_next he <;> exact .inl hsame
  | seqNext => obtain ⟨_, -, -, -, -, rfl⟩ | rfl := execSeqNext_next he <;> exact .inl hsame
  | seqLast => obtain ⟨_, -, -, -, -, rfl⟩ | rfl := execSeqLast_next he <;> exact .inl hsame
  | seqGapDone => obtain ⟨-, -, rfl⟩ | rfl := execSeqGapDone_next he <;> exact .inl hsame
  | setPixel | fbOpen | fbWrite | fbRead | fbClose | txAccept | txOk | txErr | bit2pulseZero | bit2pulseOne => cases hi

/-- No other agent's instruction touches the fault port. -/
theorem exec_other_faultPort {i : Instr} {s t : State} (hi : isSequencerStep i = false) (he : exec i s = .next t) :
    FaultPortKept s t := by
  cases hc : isCommand i with
  | true =>
    rw [exec_command_frame hc he]
    exact ⟨rfl, rfl, rfl⟩
  | false =>
    rw [exec_transmitter_frame hc hi he]
    exact ⟨rfl, rfl, rfl⟩

/-- A step other than reset leaves the fault port alone, or the sequencer enters a transmission fault of chunk `K`. -/
theorem step_faultPort {s t : State} (h : step s = .next t) (hm : isReset (nextMove s) = false) :
    FaultPortKept s t ∨ (nextMove s = .sequencer ∧ FaultEntered s.k s t) := by
  have htake : FaultPortKept (takeMove s) t → FaultPortKept s t := by
    simp only [FaultPortKept, takeMove_faultlog, takeMove_fault, takeMove_faultChunk, imp_self]
  rcases step_sequencer_or_other h with ⟨hseq, i, hi, he⟩ | ⟨i, u, hi, hf, he⟩ | hf
  · refine (exec_sequencer_faultPort hi he).imp htake fun hentered => ⟨hseq, ?_⟩
    simpa only [FaultEntered, takeMove_faultlog, takeMove_k] using hentered
  · have hkept := exec_other_faultPort hi he
    rw [fetch_run_frame hf] at hkept
    exact .inl (htake hkept)
  · refine .inl (htake ?_)
    rw [fetch_quiet_frame hf hm]
    exact ⟨rfl, rfl, rfl⟩

/-! ### The transmitter's handshake -/

/-- The sequencer submits `ST[K]`, or it consumes a completion, or it leaves `TXS` (R32); the chunk it presents is taken within
its own step (R176). -/
theorem exec_sequencer_handshake {i : Instr} {s t : State} (hi : isSequencerStep i = true) (ho : s.offer = none)
    (he : exec i s = .next t) : t.offer = none ∧ (t.txs = s.txs ∨
      (s.seqState = .transmitting ∧ s.txs = .idle ∧ t.txs = .busy ∧ t.txChunk = s.chunk s.k.toNat) ∨
      (s.seqState = .transmitting ∧ (s.txs = .doneOk ∨ s.txs = .doneErr) ∧ t.txs = .idle)) := by
  cases i with
  | seqSubmit =>
    obtain ⟨c, hq, htx, hc, rfl⟩ | rfl := execSeqSubmit_next he
    · exact ⟨rfl, .inr (.inl ⟨hq, htx, rfl, (txChunk_acceptChunk c s (chunk_length hc)).trans hc.symm⟩)⟩
    · exact ⟨ho, .inl rfl⟩
  | seqNext =>
    obtain ⟨_, hq, htx, -, -, rfl⟩ | rfl := execSeqNext_next he
    · exact ⟨ho, .inr (.inr ⟨hq, .inl htx, rfl⟩)⟩
    · exact ⟨ho, .inl rfl⟩
  | seqLast =>
    obtain ⟨_, hq, htx, -, -, rfl⟩ | rfl := execSeqLast_next he
    · exact ⟨ho, .inr (.inr ⟨hq, .inl htx, rfl⟩)⟩
    · exact ⟨ho, .inl rfl⟩
  | seqFault =>
    obtain ⟨_, hq, htx, -, rfl⟩ | rfl := execSeqFault_next he
    · exact ⟨ho, .inr (.inr ⟨hq, .inr htx, rfl⟩)⟩
    · exact ⟨ho, .inl rfl⟩
  | seqWake => obtain ⟨-, -, rfl⟩ | rfl := execSeqWake_next he <;> exact ⟨ho, .inl rfl⟩
  | seqSnapshot => obtain ⟨-, -, rfl⟩ | rfl := execSeqSnapshot_next he <;> exact ⟨ho, .inl rfl⟩
  | seqEncode => obtain ⟨_, -, -, rfl⟩ | rfl := execSeqEncode_next he <;> exact ⟨ho, .inl rfl⟩
  | seqGapDone => obtain ⟨-, -, rfl⟩ | rfl := execSeqGapDone_next he <;> exact ⟨ho, .inl rfl⟩
  | setPixel | fbOpen | fbWrite | fbRead | fbClose | txAccept | txOk | txErr | bit2pulseZero | bit2pulseOne => cases hi

/-- The instruction that a completion's move runs leaves `TXS` at the drawn result (R91, R195, R196). -/
theorem exec_completion_handshake {i : Instr} {s t : State} {txr : BitVec 1} (hd : decodeCompletion s.txs txr = .instr i)
    (he : exec i s = .next t) : t.offer = s.offer ∧ (t.txs = s.txs ∨
      (s.txs = .busy ∧ (txr = 0 ∧ t.txs = .doneOk ∨ txr = 1 ∧ t.txs = .doneErr))) := by
  obtain ⟨hbusy, htxr, rfl⟩ | ⟨hbusy, htxr, rfl⟩ := (transmitterStepSelection.2.1 s.txs txr i).1 hd
  · obtain ⟨_, -, -, rfl⟩ | rfl := execTxOk_next he
    · exact ⟨rfl, .inr ⟨hbusy, .inl ⟨htxr, rfl⟩⟩⟩
    · exact ⟨rfl, .inl rfl⟩
  · obtain ⟨_, -, -, rfl⟩ | rfl := execTxErr_next he
    · exact ⟨rfl, .inr ⟨hbusy, .inr ⟨htxr, rfl⟩⟩⟩
    · exact ⟨rfl, .inl rfl⟩

/-- With no chunk presented, another agent's instruction changes `TXS` only as the transmitter's completion. -/
theorem fetch_run_other_handshake {m : Move} {i : Instr} {s u t : State} (hi : isSequencerStep i = false)
    (ho : s.offer = none) (hf : fetchMove m s = .run i u) (he : exec i u = .next t) :
    t.offer = none ∧ (t.txs = s.txs ∨ (s.txs = .busy ∧ ∃ txr segs cut, m = .transmitter txr segs cut ∧
      (txr = 0 ∧ t.txs = .doneOk ∨ txr = 1 ∧ t.txs = .doneErr))) := by
  obtain ⟨-, ⟨_, _, -, -, hd, rfl⟩ | ⟨-, hd, -⟩ | ⟨-, -, hoffer, -⟩ | ⟨txr, segs, cut, rfl, hd, -, rfl⟩ | ⟨_, -, hbit, rfl⟩⟩ :=
    fetch_run hf
  · rw [exec_command_frame (decodeCmd_isCommand hd) he]
    exact ⟨ho, .inl rfl⟩
  · exact nomatch hi.symm.trans (decodeSeq_isSequencerStep hd)
  · rw [ho] at hoffer
    cases hoffer
  · obtain ⟨hoffer, htxs⟩ := exec_completion_handshake (s := { s with drawSegs := segs, drawCut := cut }) hd he
    exact ⟨hoffer.trans ho, htxs.imp_right fun ⟨hbusy, hdone⟩ => ⟨hbusy, txr, segs, cut, rfl, hdone⟩⟩
  · rcases hbit with rfl | rfl <;> cases he <;> exact ⟨ho, .inl rfl⟩

end Sys2Proof.Machine
end

section
/-! PROOFS. The statements about faults and about what each kind of agent may touch (spec/60_exceptions.md). -/

namespace Sys2Proof.Machine

/-- Settles O24: with nothing outstanding the decoded word is the one presented, and presenting and answering it write the issuer's
port alone. -/
theorem illegalWordIsAnswered : Obligations.IllegalWordIsAnswered := by
  intro s r w rest why hh hs hr hnone hd
  have hw : s.cmdOf r w = w := by rw [State.cmdOf, hnone, Option.getD_none]
  refine ⟨_, step_command_illegal hs hh hr (hw.symm ▸ hd), ?_, fun q hq => ?_, rfl⟩
  · rw [raiseIllegalCommand_eq, port_respond, presentCmd_me, if_pos rfl, presentCmd_me_port]
    rfl
  · rw [raiseIllegalCommand_eq, port_respond, presentCmd_me, if_neg hq, presentCmd_other_port r w _ q hq]
    rfl

/-- Settles O50: the fault port is left alone, or the entry of a transmission fault sets all of it. -/
theorem faultIsSticky : Obligations.FaultIsSticky := by
  intro s t hstep hm
  rcases step_faultPort hstep hm with ⟨hlog, hfault, hchunk⟩ | ⟨hseq, hlog, hfault, hchunk⟩
  · exact ⟨hfault.trans, .inl ⟨hlog, hfault, hchunk⟩⟩
  · exact ⟨fun _ => hfault, .inr ⟨hchunk.symm ▸ hlog, hfault, hchunk, hseq⟩⟩

/-- Settles O49: the handshake by the agent whose step it is, then the frame of each kind of instruction. -/
theorem rolesOfAgents : Obligations.RolesOfAgents := by
  refine ⟨fun s t hstep hm ho => ?_, fun i s t he => ⟨fun hc => ?_, fun hq => exec_sequencer_frame hq he, fun hc hq => ?_⟩⟩
  · rw [← takeMove_offer] at ho
    rw [← takeMove_txs s, ← takeMove_seqState s, ← takeMove_k s,
      ← chunk_eq_of_staging (takeMove_staging s)]
    rcases step_sequencer_or_other hstep with ⟨hseq, i, hi, he⟩ | ⟨i, u, hi, hf, he⟩ | hf
    · obtain ⟨hoffer, hsame | hsubmit | hconsume⟩ := exec_sequencer_handshake hi ho he
      · exact ⟨hoffer, .inl hsame⟩
      · exact ⟨hoffer, .inr (.inl ⟨hseq, hsubmit⟩)⟩
      · exact ⟨hoffer, .inr (.inr (.inr ⟨hseq, hconsume⟩))⟩
    · obtain ⟨hoffer, hsame | hcompletion⟩ := fetch_run_other_handshake hi ho hf he
      · exact ⟨hoffer, .inl hsame⟩
      · exact ⟨hoffer, .inr (.inr (.inl hcompletion))⟩
    · rw [fetch_quiet_frame hf hm]
      exact ⟨ho, .inl rfl⟩
  · have hport : ∀ r, r ≠ s.me → t.port r = s.port r := fun r hr => exec_command_other_port hc he hr
    rw [exec_command_frame hc he]
    exact ⟨rfl, rfl, rfl, rfl, rfl, rfl, rfl, rfl, rfl, rfl, rfl, rfl, rfl, rfl, rfl, rfl, hport⟩
  · rw [exec_transmitter_frame hc hq he]
    exact ⟨rfl, rfl, rfl, rfl, rfl, rfl, rfl, rfl, rfl, rfl, rfl, rfl, rfl, rfl⟩

end Sys2Proof.Machine
end

section
/-! PROOFS. The statement about reset (spec/70_reset_and_hazards.md R260, R261), with what an empty frame and an empty port list
read as (R38). -/

namespace Sys2Proof.Machine

theorem x_of_frame_empty {s : State} (h : s.frame = []) (a : Nat) : s.x a = 0x00 := by
  rw [State.x, h, cellsRead_nil, frameDefault, Option.getD_some]

theorem port_of_ports_empty {s : State} (h : s.ports = []) (r : Nat) : s.port r = Port.idle := by
  rw [State.port, h, cellsRead_nil, Option.getD_some]

/-- Settles O41: reset is taken held or not, and as its words are valid they are latched beside the reset values. -/
theorem resetGivesResetValues : Obligations.ResetGivesResetValues := by
  intro s words rest hs hvalid
  refine ⟨_, step_reset hs, ?_⟩
  rw [resetBlock_eq, hvalid]
  exact ⟨x_of_frame_empty rfl, rfl, rfl, rfl, rfl, rfl, rfl, rfl, rfl, port_of_ports_empty rfl, rfl, rfl, rfl, rfl, rfl, rfl,
    rfl, rfl⟩

end Sys2Proof.Machine
end
